-- ==== Sys2Proof/Word.lean ====
section
/-! DEFINITION. The byte and the names of the levels, directions, pulls and pins of the wire
(00_scope.md R15, R18). -/

namespace Sys2Proof

/-- A byte: 8 bits, unsigned, bit 0 the least significant (00_scope.md R15). -/
abbrev Byte := BitVec 8

/-- A digital level; positive logic, High = 1 (00_scope.md R18, 30_encoding.md R116). -/
inductive Level where
  | low
  | high
  deriving DecidableEq, Repr, Inhabited

/-- The direction of a pin: the source's mode Input or Output (40_pin_primitives.md R131). -/
inductive PinMode where
  | input
  | output
  deriving DecidableEq, Repr

/-- The pull resistor requested on an input (00_scope.md R11). -/
inductive Pull where
  | none
  | pullUp
  deriving DecidableEq, Repr

/-- The three lines (00_scope.md R18): CLK, IO, CE. -/
inductive Pin where
  | clk
  | io
  | ce
  deriving DecidableEq, Repr

/-- Whether and where TX_OPEN resets the data line (00_scope.md R9). -/
inductive DataResetOrder where
  | none
  | beforeCe
  | afterCe
  deriving DecidableEq, Repr

/-- A pin identifier of the host controller: the number of the platform's identifier. The spec takes the type as a
parameter and needs its equality only (00_scope.md R13). DESIGN CHOICE (log entry 5): a number without a bound, so that
the identifiers of every platform can be numbered. -/
abbrev PinId := Nat

/-- A pin event, with the level it read where it reads one (00_scope.md R18). -/
inductive PinEvent where
  /-- `DIR(p, m, u)` (40_pin_primitives.md R131). -/
  | dir (p : Pin) (m : PinMode) (u : Pull)
  /-- `WR(p, l)` (R132). -/
  | wr (p : Pin) (l : Level)
  /-- `RD(p) -> l` (R133). -/
  | rd (p : Pin) (l : Level)
  /-- `DLY(t)`, `t` in microseconds (R134). -/
  | dly (t : BitVec 16)
  /-- `REL(p)` (R135). -/
  | rel (p : Pin)
  deriving DecidableEq, Repr

end Sys2Proof
end

