-- ==== Sys2Proof/Config.lean ====
section
/-! DEFINITION. The constants the source fixes (00_scope.md R6, R7), the defaults of the open parameters
(R8 to R11) and the one free value: the levels the environment draws (20_memory.md R75). -/

namespace Sys2Proof.Config

/-- `CLK_IMG_LEN`: bytes in a clock register image (00_scope.md R6). -/
abbrev clkImgLen : Nat := 7

/-- `RAM_MAX`: bytes in a RAM burst (00_scope.md R6). -/
abbrev ramMax : Nat := 31

/-- `BITS_PER_BYTE` (00_scope.md R6). -/
abbrev bitsPerByte : Nat := 8

/-- `YEAR_BASE` (00_scope.md R6). -/
abbrev yearBase : Nat := 2000

/-- `YEAR_MIN` (00_scope.md R6). -/
abbrev yearMin : Nat := 2000

/-- `YEAR_MAX` (00_scope.md R6). -/
abbrev yearMax : Nat := 2099

/-- `CMD_WP`: clear write protect (00_scope.md R7). -/
abbrev cmdWp : Byte := 0x8E

/-- `CMD_TCS`: disable trickle charge (00_scope.md R7). -/
abbrev cmdTcs : Byte := 0x90

/-- `CMD_CLK_WR`: write clock burst (00_scope.md R7). -/
abbrev cmdClkWr : Byte := 0xBE

/-- `CMD_CLK_RD`: read clock burst (00_scope.md R7). -/
abbrev cmdClkRd : Byte := 0xBF

/-- `CMD_RAM_WR`: write RAM burst (00_scope.md R7). -/
abbrev cmdRamWr : Byte := 0xFE

/-- `CMD_RAM_RD`: read RAM burst (00_scope.md R7). -/
abbrev cmdRamRd : Byte := 0xFF

/-- The data value of the two maintenance writes (00_scope.md R7). -/
abbrev maintenanceValue : Byte := 0x00

/-- The default clock half-period delay, in microseconds (00_scope.md R8). -/
abbrev defaultClkDelay : BitVec 16 := 10

/-- The default settle delay (00_scope.md R10). -/
abbrev defaultSettleDelay : BitVec 16 := 0

/-- FREE VALUE: the `n`-th level drawn from the environment when it has fixed none beforehand. "No engine
rule constrains" it (20_memory.md R75, log entry 6), so it has no body. -/
opaque draw : Nat → Level

end Sys2Proof.Config
end

