-- ==== Sys2Proof/Syntax.lean ====
section
/-! DEFINITION. The instructions: one constructor per row of spec/opcode_table.json, in the table's order. -/

namespace Sys2Proof

/-- The operations of the engine. Formats H (30_encoding.md R110), W (R101), U and P (R112). -/
inductive Instr where
  -- format H: host operations
  /-- INIT (45_driver_operations.md R200), with the configuration inputs it samples (30_encoding.md R111). -/
  | init (clkId ioId ceId : PinId) (clkDelay settleDelay : BitVec 16) (order : DataResetOrder) (pull : Pull)
  /-- READ_DATETIME (R201). -/
  | readDatetime
  /-- WRITE_DATETIME (R202). -/
  | writeDatetime (year : BitVec 12) (month : BitVec 4) (day hour : BitVec 5) (minute second : BitVec 6)
  /-- READ_RAM (R203). -/
  | readRam
  /-- WRITE_RAM (R204): the length port and the 31 byte ports of 30_encoding.md R111. -/
  | writeRam (len : BitVec 8) (image : Vector Byte 31)
  /-- CLOSE (R205). -/
  | close
  -- format W: wire commands
  /-- CMD_WP (44_burst_transactions.md R184). -/
  | cmdWp
  /-- CMD_TCS (R185). -/
  | cmdTcs
  /-- CMD_CLK_WR (R186). -/
  | cmdClkWr
  /-- CMD_CLK_RD (R187). -/
  | cmdClkRd
  /-- CMD_RAM_WR (R188), with the length `n` of its data. -/
  | cmdRamWr (len : BitVec 8)
  /-- CMD_RAM_RD (R189). -/
  | cmdRamRd
  -- format U: micro-operations
  /-- TX_OPEN (41_framing.md R140). -/
  | txOpen
  /-- TX_CLOSE (R143). -/
  | txClose
  /-- WRITE_BYTE (42_byte_shift.md R150). -/
  | writeByte (v : Byte)
  /-- READ_BYTE (R152). -/
  | readByte
  /-- BCD_PACK (43_bcd_codec.md R160): `v` from 0 to 99. -/
  | bcdPack (v : BitVec 7)
  /-- BCD_UNPACK (R161). -/
  | bcdUnpack (byte tensMask : Byte)
  /-- DOW (R163). -/
  | dow (year : BitVec 12) (month : BitVec 4) (day : BitVec 5)
  /-- BCD_ENCODE (R164). -/
  | bcdEncode (year : BitVec 12) (month : BitVec 4) (day hour : BitVec 5) (minute second : BitVec 6)
  /-- BCD_DECODE (R166). -/
  | bcdDecode (image : Vector Byte 7)
  /-- REG_WRITE (44_burst_transactions.md R181). DESIGN CHOICE: `c` is any byte, not one of the six, and `v` any value
  (log entry 25); so is `c` in the next two. -/
  | regWrite (c v : Byte)
  /-- BURST_READ (R182): the count is a port of 5 bits. -/
  | burstRead (c : Byte) (n : BitVec 5)
  /-- BURST_WRITE (R183): `data[0..n-1]` is sent. -/
  | burstWrite (c : Byte) (n : BitVec 5) (data : Vector Byte 31)
  -- format P: pin events
  /-- DIR (40_pin_primitives.md R131). -/
  | dir (p : Pin) (m : PinMode) (u : Pull)
  /-- WR (R132). -/
  | wr (p : Pin) (l : Level)
  /-- RD (R133). -/
  | rd (p : Pin)
  /-- DLY (R134). -/
  | dly (t : BitVec 16)
  /-- REL (R135). -/
  | rel (p : Pin)
  deriving DecidableEq, Repr

/-- The formats that name an operation (30_encoding.md R100). -/
inductive Format where
  | h
  | w
  | u
  | p
  deriving DecidableEq, Repr

/-- The format an operation belongs to (30_encoding.md R101, R110, R112). -/
def Instr.format : Instr → Format
  | .init .. | .readDatetime | .writeDatetime .. | .readRam | .writeRam .. | .close => .h
  | .cmdWp | .cmdTcs | .cmdClkWr | .cmdClkRd | .cmdRamWr _ | .cmdRamRd => .w
  | .txOpen | .txClose | .writeByte _ | .readByte | .bcdPack _ | .bcdUnpack .. | .dow .. | .bcdEncode ..
  | .bcdDecode _ | .regWrite .. | .burstRead .. | .burstWrite .. => .u
  | .dir .. | .wr .. | .rd _ | .dly _ | .rel _ => .p

end Sys2Proof
end

