-- ==== Sys2Proof/Machine/Operands.lean ====
section
/-! DEFINITION. Operand assembly: levels and bits (00_scope.md R18), the BCD byte and its mask table
(30_encoding.md R103 to R107, 43_bcd_codec.md R160, R161), the calendar helpers (R162, R163) and the bounds
of the two codecs (R165, R167). All arithmetic is unsigned (R169). -/

namespace Sys2Proof.Machine

/-- `lvl(b)` (00_scope.md R18). -/
def lvl (b : Bool) : Level := if b then .high else .low

/-- `bit(l)`, the inverse of `lvl` (00_scope.md R18). -/
def bit : Level → Bool
  | .low => false
  | .high => true

/-- The names of the seven bytes of a ClockRegisterImage (20_memory.md R62). -/
inductive ImgIndex where
  | second
  | minute
  | hour
  | day
  | month
  | weekday
  | year
  deriving DecidableEq, Repr

/-- The index of a field in the image (20_memory.md R62, 30_encoding.md R104). -/
def ImgIndex.idx : ImgIndex → Fin 7
  | .second => 0
  | .minute => 1
  | .hour => 2
  | .day => 3
  | .month => 4
  | .weekday => 5
  | .year => 6

/-- The tens masks of the mask table (30_encoding.md R104). The weekday byte has none and is not decoded. -/
def ImgIndex.tensMask : ImgIndex → Byte
  | .second => 0x70
  | .minute => 0x70
  | .hour => 0x30
  | .day => 0x30
  | .month => 0x10
  | .weekday => 0x00
  | .year => 0xf0

/-- The decoded indices, in the order of the digit checks (43_bcd_codec.md R166): index 5 is skipped. -/
def decodedFields : List ImgIndex := [.second, .minute, .hour, .day, .month, .year]

/-- BCD_PACK's byte (43_bcd_codec.md R160), for `v` from 0 to 99. -/
def bcdPackByte (v : Nat) : Byte := BitVec.ofNat 8 (((v / 10) <<< 4) ||| (v % 10))

/-- The domain on which BCD_PACK is defined (43_bcd_codec.md R160). -/
def bcdPackDefined (v : Nat) : Bool := v ≤ 99

/-- BCD_UNPACK's tens digit (43_bcd_codec.md R161). -/
def tensDigit (byte tensMask : Byte) : BitVec 4 := ((byte &&& tensMask) >>> 4).setWidth 4

/-- BCD_UNPACK's units digit (43_bcd_codec.md R161). -/
def unitsDigit (byte : Byte) : BitVec 4 := (byte &&& 0x0f).setWidth 4

/-- The two-digit value of a byte under a mask (30_encoding.md R107). -/
def bcdValue (byte tensMask : Byte) : Nat := (tensDigit byte tensMask).toNat * 10 + (unitsDigit byte).toNat

/-- Both masked nibbles are decimal digits (43_bcd_codec.md R166). -/
def digitsValid (byte tensMask : Byte) : Bool :=
  (tensDigit byte tensMask).toNat ≤ 9 && (unitsDigit byte).toNat ≤ 9

/-- `LEAP(year)` (43_bcd_codec.md R162), for years 2000 to 2099. -/
def leap (year : Nat) : Bool := (year - 2000) % 4 = 0

/-- `DAYS_IN_MONTH(year, month)` (43_bcd_codec.md R162). No month outside 1 to 12 has a day. -/
def daysInMonth (year month : Nat) : Nat :=
  match month with
  | 1 | 3 | 5 | 7 | 8 | 10 | 12 => 31
  | 4 | 6 | 9 | 11 => 30
  | 2 => if leap year then 29 else 28
  | _ => 0

/-- Days before the first of `month` in a year that is not a leap year: `CUM` of 43_bcd_codec.md R163. -/
def cumulativeDays : List Nat := [0, 31, 59, 90, 120, 151, 181, 212, 243, 273, 304, 334]

/-- `CUM` of 43_bcd_codec.md R163 with the leap day of `year` counted from March on. -/
def daysBeforeMonth (year month : Nat) : Nat :=
  cumulativeDays.getD (month - 1) 0 + if leap year && month ≥ 3 then 1 else 0

/-- `N` of 43_bcd_codec.md R163: days since 2000-01-01. -/
def dayNumber (year month day : Nat) : Nat :=
  365 * (year - 2000) + (year - 2000 + 3) / 4 + daysBeforeMonth year month + (day - 1)

/-- DOW (43_bcd_codec.md R163), Monday = 0. -/
def dayOfWeek (year month day : Nat) : Nat := (5 + dayNumber year month day) % 7

/-- A valid date: the domain of DOW (43_bcd_codec.md R163). -/
def dateValid (year month day : Nat) : Bool :=
  (2000 ≤ year && year ≤ 2099) && (1 ≤ month && month ≤ 12) && (1 ≤ day && day ≤ daysInMonth year month)

/-- The six fields of a CalendarValue, in the order of RangeError's information words (43_bcd_codec.md R165). -/
inductive CalField where
  | year
  | month
  | day
  | hour
  | minute
  | second
  deriving DecidableEq, Repr

/-- The bounds check of BCD_ENCODE (43_bcd_codec.md R165): the first field that fails, in the rule's order. -/
def encodeBounds (year month day hour minute second : Nat) : Option CalField :=
  if ¬ (2000 ≤ year ∧ year ≤ 2099) then some .year
  else if ¬ (1 ≤ month ∧ month ≤ 12) then some .month
  else if ¬ (1 ≤ day ∧ day ≤ daysInMonth year month) then some .day
  else if ¬ hour ≤ 23 then some .hour
  else if ¬ minute ≤ 59 then some .minute
  else if ¬ second ≤ 59 then some .second
  else none

/-- The range check of BCD_DECODE (43_bcd_codec.md R167): the first field that fails, in the rule's order. -/
def decodeBounds (year month day hour minute second : Nat) : Option ImgIndex :=
  if ¬ second ≤ 59 then some .second
  else if ¬ minute ≤ 59 then some .minute
  else if ¬ hour ≤ 23 then some .hour
  else if ¬ (1 ≤ month ∧ month ≤ 12) then some .month
  else if ¬ (1 ≤ day ∧ day ≤ daysInMonth year month) then some .day
  else none

/-- The image BCD_ENCODE builds from fields that passed the bounds check (43_bcd_codec.md R164). -/
def encodeImage (year month day hour minute second : Nat) : Vector Byte 7 :=
  #v[bcdPackByte second, bcdPackByte minute, bcdPackByte hour, bcdPackByte day, bcdPackByte month,
     bcdPackByte (dayOfWeek year month day), bcdPackByte (year - 2000)]

/-- The byte of a field in an image. -/
def imageByte (image : Vector Byte 7) (f : ImgIndex) : Byte := image[f.idx]

/-- The decoded value of a field of an image (43_bcd_codec.md R166). -/
def imageValue (image : Vector Byte 7) (f : ImgIndex) : Nat := bcdValue (imageByte image f) f.tensMask

/-- The first decoded field whose masked nibbles are not both digits (43_bcd_codec.md R166). -/
def firstBadDigit (image : Vector Byte 7) : Option ImgIndex :=
  decodedFields.find? fun f => ! digitsValid (imageByte image f) f.tensMask

/-- The first `n` bytes of a buffer replaced by the list's, the rest kept: `buf[0..len-1] <- bytes`. -/
def loadFront {n : Nat} (v : Vector Byte n) (bytes : List Byte) : Vector Byte n :=
  ⟨(bytes.take n ++ v.toList.drop (min n bytes.length)).toArray, by simp⟩

/-- `min(n, 31)`: how many bytes of a RamImage of length `n` are transferred (20_memory.md R63,
30_encoding.md R108). -/
def ramCount (len : BitVec 8) : Nat := min len.toNat 31

end Sys2Proof.Machine
end

