-- ==== Sys2Proof/WellFormed.lean ====
section
/-! DEFINITION. Well-formed instructions: the operand ranges the opcode table and its rules give beyond the
widths of the operand ports. Each check is the domain the rule states. -/

namespace Sys2Proof

/-- The operand is in the domain the spec gives the operation: BCD_PACK `0 <= v <= 99` (43_bcd_codec.md R160),
DOW a valid date (R163), RD only of the data line (40_pin_primitives.md R133, the table's "IO=1 only"). Every
other operand is bounded by its port alone. DESIGN CHOICE for REG_WRITE, BURST_READ and BURST_WRITE: the command byte
need not be one of the six of 44_burst_transactions.md R180, nor a maintenance value 0x00 (log entry 25). -/
def Instr.wellFormed : Instr → Bool
  | .bcdPack v => Machine.bcdPackDefined v.toNat
  | .dow y m d => Machine.dateValid y.toNat m.toNat d.toNat
  | .rd p => p = .io
  | .init .. | .readDatetime | .writeDatetime .. | .readRam | .writeRam .. | .close => true
  | .cmdWp | .cmdTcs | .cmdClkWr | .cmdClkRd | .cmdRamWr _ | .cmdRamRd => true
  | .txOpen | .txClose | .writeByte _ | .readByte | .bcdUnpack .. | .bcdEncode .. | .bcdDecode _ => true
  | .regWrite .. | .burstRead .. | .burstWrite .. => true
  | .dir .. | .wr .. | .dly _ | .rel _ => true

end Sys2Proof
end

