-- ==== Sys2Proof/Decode.lean ====
section
/-! DEFINITION. The decoder, total on any bytes and rejecting by name, and after it the encoder. The codes are
the spec's (30_encoding.md R101, R110, R112). A request is laid out as its code in the first byte, then its
operands in the opcode table's order, each in the fewest whole bytes that hold its port, the low byte first; a pin
identifier, whose type the spec leaves open, in groups of 7 bits, the low group first.
DESIGN CHOICE: the spec gives parallel ports and no byte layout (log entry 2). -/

namespace Sys2Proof

/-- Why a request decodes to no operation. -/
inductive DecodeError where
  /-- No bytes at all. -/
  | noCode
  /-- Host code 0b000 or 0b111 (30_encoding.md R113(a)): answered with UsageError(IllegalOp) by the machine. -/
  | illegalHostCode
  /-- A first byte above the three bits of `op_code` (R110). -/
  | hostCodeTooWide
  /-- A command byte outside the six (R113(b)). -/
  | unknownCommandByte
  /-- Format U code 12 or above (R112). -/
  | unassignedMicroOperation
  /-- Format P code 5 or above (R112). -/
  | unassignedPinEvent
  /-- Operand bytes are missing. -/
  | truncated
  /-- An operand does not fit its port or names no value of its enumeration. -/
  | badOperand
  /-- The operand is outside the domain the rule gives the operation (Instr.wellFormed). -/
  | outsideDomain
  deriving DecidableEq, Repr

namespace Decode

/-- One operand port of at most 8 bits, in one byte. -/
def takeBits (w : Nat) : List Byte → Except DecodeError (BitVec w × List Byte)
  | [] => .error .truncated
  | b :: rest => if b.toNat < 2 ^ w then .ok (b.setWidth w, rest) else .error .badOperand

/-- One operand port of 9 to 16 bits, in two bytes, the low one first. -/
def takeWord (w : Nat) : List Byte → Except DecodeError (BitVec w × List Byte)
  | lo :: hi :: rest =>
    if hi.toNat * 256 + lo.toNat < 2 ^ w then .ok (BitVec.ofNat w (hi.toNat * 256 + lo.toNat), rest)
    else .error .badOperand
  | _ => .error .truncated

/-- One pin identifier (00_scope.md R13): 7 bits a byte, the low ones first, bit 7 set in every byte but the last.
A last byte 0 after others is refused, so that each identifier has one spelling. -/
def takeIdent : List Byte → Except DecodeError (Nat × List Byte)
  | [] => .error .truncated
  | b :: rest =>
    if b.toNat < 128 then .ok (b.toNat, rest)
    else
      match takeIdent rest with
      | .error e => .error e
      | .ok (high, r) => if high = 0 then .error .badOperand else .ok (b.toNat - 128 + 128 * high, r)

/-- A fixed number of byte ports. -/
def takeBytes (n : Nat) (l : List Byte) : Except DecodeError (Vector Byte n × List Byte) :=
  if h : (l.take n).length = n then .ok (⟨(l.take n).toArray, by simpa using h⟩, l.drop n)
  else .error .truncated

/-- `CLK = 0, IO = 1, CE = 2` (30_encoding.md R112). -/
def takePin : List Byte → Except DecodeError (Pin × List Byte)
  | [] => .error .truncated
  | b :: rest =>
    match b.toNat with
    | 0 => .ok (.clk, rest)
    | 1 => .ok (.io, rest)
    | 2 => .ok (.ce, rest)
    | _ => .error .badOperand

/-- `In = 0, Out = 1` (30_encoding.md R112). -/
def takeMode : List Byte → Except DecodeError (PinMode × List Byte)
  | [] => .error .truncated
  | b :: rest =>
    match b.toNat with
    | 0 => .ok (.input, rest)
    | 1 => .ok (.output, rest)
    | _ => .error .badOperand

/-- `None = 0, PullUp = 1` (30_encoding.md R111, R112). -/
def takePull : List Byte → Except DecodeError (Pull × List Byte)
  | [] => .error .truncated
  | b :: rest =>
    match b.toNat with
    | 0 => .ok (.none, rest)
    | 1 => .ok (.pullUp, rest)
    | _ => .error .badOperand

/-- `Low = 0, High = 1` (30_encoding.md R112). -/
def takeLevel : List Byte → Except DecodeError (Level × List Byte)
  | [] => .error .truncated
  | b :: rest =>
    match b.toNat with
    | 0 => .ok (.low, rest)
    | 1 => .ok (.high, rest)
    | _ => .error .badOperand

/-- `0` NONE, `1` BEFORE_CE, `2` AFTER_CE, `3` "unassigned and treated as NONE" (30_encoding.md R111). -/
def takeOrder : List Byte → Except DecodeError (DataResetOrder × List Byte)
  | [] => .error .truncated
  | b :: rest =>
    match b.toNat with
    | 0 => .ok (.none, rest)
    | 1 => .ok (.beforeCe, rest)
    | 2 => .ok (.afterCe, rest)
    | 3 => .ok (.none, rest)
    | _ => .error .badOperand

/-- The operand is checked against the domain of its operation. -/
def checked (i : Instr) (rest : List Byte) : Except DecodeError (Instr × List Byte) :=
  if i.wellFormed then .ok (i, rest) else .error .outsideDomain

/-- The six fields of a CalendarValue operand (30_encoding.md R109). -/
def takeCalendar (mk : BitVec 12 → BitVec 4 → BitVec 5 → BitVec 5 → BitVec 6 → BitVec 6 → Instr)
    (r : List Byte) : Except DecodeError (Instr × List Byte) := do
  let (y, r) ← takeWord 12 r
  let (mo, r) ← takeBits 4 r
  let (d, r) ← takeBits 5 r
  let (h, r) ← takeBits 5 r
  let (mi, r) ← takeBits 6 r
  let (s, r) ← takeBits 6 r
  return (mk y mo d h mi s, r)

/-- Format H (30_encoding.md R110). -/
def host (code : Nat) (r : List Byte) : Except DecodeError (Instr × List Byte) :=
  match code with
  | 0 => .error .illegalHostCode
  | 1 => do
    let (clkId, r) ← takeIdent r
    let (ioId, r) ← takeIdent r
    let (ceId, r) ← takeIdent r
    let (clkDelay, r) ← takeWord 16 r
    let (settleDelay, r) ← takeWord 16 r
    let (order, r) ← takeOrder r
    let (pull, r) ← takePull r
    return (.init clkId ioId ceId clkDelay settleDelay order pull, r)
  | 2 => .ok (.readDatetime, r)
  | 3 => takeCalendar .writeDatetime r
  | 4 => .ok (.readRam, r)
  | 5 => do
    let (len, r) ← takeBits 8 r
    let (image, r) ← takeBytes 31 r
    return (.writeRam len image, r)
  | 6 => .ok (.close, r)
  | 7 => .error .illegalHostCode
  | _ => .error .hostCodeTooWide

/-- Format W (30_encoding.md R101): the whole byte is the key. -/
def wire (code : Nat) (r : List Byte) : Except DecodeError (Instr × List Byte) :=
  match code with
  | 0x8E => .ok (.cmdWp, r)
  | 0x90 => .ok (.cmdTcs, r)
  | 0xBE => .ok (.cmdClkWr, r)
  | 0xBF => .ok (.cmdClkRd, r)
  | 0xFE => do
    let (len, r) ← takeBits 8 r
    return (.cmdRamWr len, r)
  | 0xFF => .ok (.cmdRamRd, r)
  | _ => .error .unknownCommandByte

/-- Format U (30_encoding.md R112). DESIGN CHOICE: the command byte of REG_WRITE, BURST_READ and BURST_WRITE is any
byte, as the table's "u8 command byte" has it, also outside the six of 44_burst_transactions.md R180 (log entry 25). -/
def micro (code : Nat) (r : List Byte) : Except DecodeError (Instr × List Byte) :=
  match code with
  | 0 => .ok (.txOpen, r)
  | 1 => .ok (.txClose, r)
  | 2 => do
    let (v, r) ← takeBits 8 r
    return (.writeByte v, r)
  | 3 => .ok (.readByte, r)
  | 4 => do
    let (v, r) ← takeBits 7 r
    checked (.bcdPack v) r
  | 5 => do
    let (byte, r) ← takeBits 8 r
    let (mask, r) ← takeBits 8 r
    return (.bcdUnpack byte mask, r)
  | 6 => do
    let (y, r) ← takeWord 12 r
    let (m, r) ← takeBits 4 r
    let (d, r) ← takeBits 5 r
    checked (.dow y m d) r
  | 7 => takeCalendar .bcdEncode r
  | 8 => do
    let (image, r) ← takeBytes 7 r
    return (.bcdDecode image, r)
  | 9 => do
    let (c, r) ← takeBits 8 r
    let (v, r) ← takeBits 8 r
    return (.regWrite c v, r)
  | 10 => do
    let (c, r) ← takeBits 8 r
    let (n, r) ← takeBits 5 r
    return (.burstRead c n, r)
  | 11 => do
    let (c, r) ← takeBits 8 r
    let (n, r) ← takeBits 5 r
    let (data, r) ← takeBytes 31 r
    return (.burstWrite c n data, r)
  | _ => .error .unassignedMicroOperation

/-- Format P (30_encoding.md R112). -/
def pinEvent (code : Nat) (r : List Byte) : Except DecodeError (Instr × List Byte) :=
  match code with
  | 0 => do
    let (p, r) ← takePin r
    let (m, r) ← takeMode r
    let (u, r) ← takePull r
    return (.dir p m u, r)
  | 1 => do
    let (p, r) ← takePin r
    let (l, r) ← takeLevel r
    return (.wr p l, r)
  | 2 => do
    let (p, r) ← takePin r
    checked (.rd p) r
  | 3 => do
    let (t, r) ← takeWord 16 r
    return (.dly t, r)
  | 4 => do
    let (p, r) ← takePin r
    return (.rel p, r)
  | _ => .error .unassignedPinEvent

end Decode

/-- The operation a request of a format asks for, and the bytes after it. -/
def decode (f : Format) : List Byte → Except DecodeError (Instr × List Byte)
  | [] => .error .noCode
  | code :: r =>
    match f with
    | .h => Decode.host code.toNat r
    | .w => Decode.wire code.toNat r
    | .u => Decode.micro code.toNat r
    | .p => Decode.pinEvent code.toNat r

namespace Encode

/-- A port of at most 8 bits in one byte. -/
def bits {w : Nat} (v : BitVec w) : List Byte := [v.setWidth 8]

/-- A port of 9 to 16 bits in two bytes, the low one first. -/
def word {w : Nat} (v : BitVec w) : List Byte := [BitVec.ofNat 8 v.toNat, BitVec.ofNat 8 (v.toNat / 256)]

/-- The groups of 7 bits of a number, the low one first, for numbers of at most `fuel` groups. -/
def groups : Nat → Nat → List Byte
  | 0, _ => []
  | fuel + 1, n =>
    if n < 128 then [BitVec.ofNat 8 n] else BitVec.ofNat 8 (128 + n % 128) :: groups fuel (n / 128)

/-- A pin identifier: 7 bits a byte, the low ones first, bit 7 set in every byte but the last. -/
def ident (n : Nat) : List Byte := groups (n + 1) n

/-- `CLK = 0, IO = 1, CE = 2` (30_encoding.md R112). -/
def pin : Pin → List Byte
  | .clk => [0]
  | .io => [1]
  | .ce => [2]

/-- `In = 0, Out = 1` (30_encoding.md R112). -/
def mode : PinMode → List Byte
  | .input => [0]
  | .output => [1]

/-- `None = 0, PullUp = 1` (30_encoding.md R112). -/
def pull : Pull → List Byte
  | .none => [0]
  | .pullUp => [1]

/-- `Low = 0, High = 1` (30_encoding.md R112). -/
def level : Level → List Byte
  | .low => [0]
  | .high => [1]

/-- `0` NONE, `1` BEFORE_CE, `2` AFTER_CE (30_encoding.md R111). -/
def order : DataResetOrder → List Byte
  | .none => [0]
  | .beforeCe => [1]
  | .afterCe => [2]

/-- The six fields of a CalendarValue operand (30_encoding.md R109). -/
def calendar (y : BitVec 12) (mo : BitVec 4) (d h : BitVec 5) (mi s : BitVec 6) : List Byte :=
  word y ++ bits mo ++ bits d ++ bits h ++ bits mi ++ bits s

end Encode

/-- The bytes of an operation, in the layout the decoder reads. -/
def encode : Instr → List Byte
  | .init c i e cd sd o u =>
    [1] ++ Encode.ident c ++ Encode.ident i ++ Encode.ident e ++ Encode.word cd ++ Encode.word sd ++ Encode.order o
      ++ Encode.pull u
  | .readDatetime => [2]
  | .writeDatetime y mo d h mi s => [3] ++ Encode.calendar y mo d h mi s
  | .readRam => [4]
  | .writeRam len image => [5] ++ Encode.bits len ++ image.toList
  | .close => [6]
  | .cmdWp => [0x8E]
  | .cmdTcs => [0x90]
  | .cmdClkWr => [0xBE]
  | .cmdClkRd => [0xBF]
  | .cmdRamWr len => [0xFE] ++ Encode.bits len
  | .cmdRamRd => [0xFF]
  | .txOpen => [0]
  | .txClose => [1]
  | .writeByte v => [2] ++ Encode.bits v
  | .readByte => [3]
  | .bcdPack v => [4] ++ Encode.bits v
  | .bcdUnpack b m => [5] ++ Encode.bits b ++ Encode.bits m
  | .dow y m d => [6] ++ Encode.word y ++ Encode.bits m ++ Encode.bits d
  | .bcdEncode y mo d h mi s => [7] ++ Encode.calendar y mo d h mi s
  | .bcdDecode image => [8] ++ image.toList
  | .regWrite c v => [9] ++ Encode.bits c ++ Encode.bits v
  | .burstRead c n => [10] ++ Encode.bits c ++ Encode.bits n
  | .burstWrite c n data => [11] ++ Encode.bits c ++ Encode.bits n ++ data.toList
  | .dir p m u => [0] ++ Encode.pin p ++ Encode.mode m ++ Encode.pull u
  | .wr p l => [1] ++ Encode.pin p ++ Encode.level l
  | .rd p => [2] ++ Encode.pin p
  | .dly t => [3] ++ Encode.word t
  | .rel p => [4] ++ Encode.pin p

/-- The longest request whose operands have a width, in bytes: BURST_WRITE's code, command byte, count and 31 data
bytes. An INIT fits as well while its identifiers have 9 groups or fewer. -/
def longestRequest : Nat := 34

/-- The bytes of a word of the opcode table, the bits above `nbits` zero, up to the longest request. -/
def tableBytes (nbits w : Nat) : List Byte :=
  (List.range longestRequest).map fun k => BitVec.ofNat 8 ((w % 2 ^ nbits) >>> (8 * k))

/-- The format a table word is taken to be of. The table's formats are separate enumerations whose numbers
overlap (30_encoding.md R100), and a bare word does not say its format: a word of the six command bytes is
format W; host codes 1 to 6 are format H, the one the engine decodes; what is left is format U, or P where
U has no such code. DESIGN CHOICE (log entry 3). -/
def tableFormat (nbits w : Nat) : Format :=
  let code := w % 256
  if nbits = 4 then .u
  else if code ∈ [0x8E, 0x90, 0xBE, 0xBF, 0xFE, 0xFF] then .w
  else if 1 ≤ code ∧ code ≤ 6 then .h
  else if nbits = 3 then .p
  else .u

/-- The instruction the decoder reads from a word numbered as spec/opcode_table.json numbers it. -/
def decodeTableWord (nbits w : Nat) : Option Instr :=
  match decode (tableFormat nbits w) (tableBytes nbits w) with
  | .ok (i, _) => some i
  | .error _ => none

end Sys2Proof
end

