-- ==== Sys2Proof/Machine/State.lean ====
section
/-! DEFINITION. The state of the engine S = (drv, tx, pin, cfg, x, buf, status, seq) (10_state.md R20), what
stands at its boundary (requests, response, trace, environment), and the state after reset (R50). -/

namespace Sys2Proof.Machine

/-- `drv`, the driver state (10_state.md R21). -/
inductive DrvState where
  | uninitialized
  | ready
  | closed
  deriving DecidableEq, Repr

/-- `tx`, the transaction state (10_state.md R22). -/
inductive TxState where
  | idle
  | opened
  deriving DecidableEq, Repr

/-- `pin`, what the engine presents on the three lines (10_state.md R23). CLK and CE have no pull. -/
structure PinRegs where
  clkDir : PinMode
  clkO : Level
  ceDir : PinMode
  ceO : Level
  ioDir : PinMode
  ioO : Level
  ioPull : Pull
  deriving DecidableEq, Repr

/-- `cfg.pins`, the pin assignment (10_state.md R27). -/
structure PinAssignment where
  clkId : PinId
  ioId : PinId
  ceId : PinId
  deriving DecidableEq, Repr

/-- `cfg`, the configuration registers (10_state.md R27), written by a successful INIT only. -/
structure Cfg where
  clkDelay : BitVec 16
  settleDelay : BitVec 16
  dataResetOrder : DataResetOrder
  ioPull : Pull
  pins : PinAssignment
  deriving DecidableEq, Repr

/-- `x`, the data registers SR, BC, BI, BN, CMD (10_state.md R24). -/
structure DataRegs where
  sr : BitVec 8
  bc : BitVec 4
  bi : BitVec 5
  bn : BitVec 5
  cmd : BitVec 8
  deriving DecidableEq, Repr

/-- `CAL`, a CalendarValue (10_state.md R25). -/
structure Calendar where
  year : BitVec 12
  month : BitVec 4
  day : BitVec 5
  hour : BitVec 5
  minute : BitVec 6
  second : BitVec 6
  weekday : BitVec 3
  deriving DecidableEq, Repr

/-- `buf`, the payload buffers IMG, RAMBUF and CAL (10_state.md R25). -/
structure Buffers where
  img : Vector Byte 7
  ram : Vector Byte 31
  cal : Calendar
  deriving DecidableEq, Repr

/-- `status`, what the host reads of the last operation (10_state.md R28). -/
structure Status where
  busy : Bool
  err : BitVec 3
  info : BitVec 8
  deriving DecidableEq, Repr

/-- The host operations (30_encoding.md R110), as `seq.op` names them. -/
inductive HostOp where
  | init
  | readDatetime
  | writeDatetime
  | readRam
  | writeRam
  | close
  deriving DecidableEq, Repr

/-- The phases of an operation (10_state.md R26). -/
inductive Phase where
  | txOpen
  | cmdByte
  | dataByte
  | txClose
  | codec
  | release
  | pinSetup
  | maintWp
  | maintTcs
  deriving DecidableEq, Repr

/-- `seq`, the sequencer position (op, phase, BI, BC, sub) (10_state.md R26). BI and BC are the registers of
`x` and are stored there. -/
structure Seq where
  op : Option HostOp
  phase : Option Phase
  sub : Nat
  deriving DecidableEq, Repr

/-- The value a response carries on the result buses (30_encoding.md R111), or the result of a
micro-operation or pin event that was asked for by itself. -/
inductive Value where
  | none
  | calendar (c : Calendar)
  | ram (image : Vector Byte 31)
  | image (image : Vector Byte 7)
  | byte (b : Byte)
  | bytes (l : List Byte)
  | digits (tens units : BitVec 4)
  | weekday (w : BitVec 3)
  | level (l : Level)
  deriving DecidableEq, Repr

/-- One response: the error code, the information word and the value (60_exceptions.md R230). -/
structure Response where
  err : BitVec 3
  info : BitVec 8
  value : Value
  deriving DecidableEq, Repr

/-- One request of the host: the format of its code and its bytes (30_encoding.md R111; log entry 2). -/
structure Request where
  format : Format
  bytes : List Byte
  deriving DecidableEq, Repr

/-- The host port's inputs: the requests still to be presented, in order (log entry 4), and the reset input
(70_reset_and_hazards.md R260): `some k` when reset is asserted as soon as the next operation has emitted `k`
pin events, `some 0` when it is asserted at once (R261; log entry 17). `direct`: a test bench stands in the place of the
host and reaches the operations inside the engine, which no host can (30_encoding.md R112, 40_pin_primitives.md R130;
DESIGN CHOICE, log entry 9). -/
structure Port where
  requests : List Request
  resetIn : Option Nat
  direct : Bool
  deriving DecidableEq, Repr

/-- The phases of the reference peripheral (20_memory.md R82). -/
inductive PeriphPhase where
  | cmd
  | writeData
  | readData
  | ignore
  deriving DecidableEq, Repr

/-- The reference peripheral: its storage (20_memory.md R81) and its protocol state (R82). `out` is the level
it drives on IO, `none` for Z. -/
structure Periph where
  clkreg : Vector Byte 7
  ram : Vector Byte 31
  wp : Bool
  tcs : Byte
  ce : Level
  clk : Level
  active : Bool
  phase : PeriphPhase
  sr : Byte
  bc : BitVec 3
  cmd : Byte
  idx : BitVec 5
  out : Option Level
  deriving DecidableEq, Repr

/-- The environment: the trace it has seen, the levels it will answer (20_memory.md R75; log entry 6), the
platform's valid pins (00_scope.md R13; log entry 5) and the peripheral on the lines, if the reference
peripheral is assumed (20_memory.md R80; log entry 7). -/
structure Env where
  trace : List PinEvent
  answers : List Level
  drawn : Nat
  validPins : List PinId
  periph : Option Periph
  deriving DecidableEq, Repr

/-- The machine. The first eight fields are S of 10_state.md R20; the others are the boundary (R32). -/
structure State where
  drv : DrvState
  tx : TxState
  pin : PinRegs
  cfg : Cfg
  x : DataRegs
  buf : Buffers
  status : Status
  seq : Seq
  port : Port
  resp : Option Response
  env : Env
  deriving DecidableEq, Repr

/-- The reasons the machine stops with a fault: none. Every error of the engine is a response, after which it
is idle and accepts the next request (60_exceptions.md R230, R232). -/
inductive Fault where
  deriving DecidableEq, Repr

/-- The reasons the machine gives no meaning. -/
inductive Refusal where
  /-- Raised by `exec` for an instruction that has no meaning yet. Safe. -/
  | notModelled (mnemonic : String)
  /-- Raised by BCD_PACK with an operand above 99, where the spec does not define it (93 U15). Safe. -/
  | packOutsideDomain
  /-- Raised by DOW on a date that is not valid, where the spec does not define it (93 U15). Safe. -/
  | dateOutsideDomain
  /-- Raised by `step` for a request of format W, U or P from the host, which can ask for host operations only
  (30_encoding.md R100, R112; 40_pin_primitives.md R130, "never by the host directly"). Safe. -/
  | notForTheHost
  /-- Raised by `step` for a request that is no encoding of an operation (93 U6, U14), for its reason. Safe. -/
  | undecodable (e : DecodeError)
  deriving DecidableEq, Repr

/-- The pins after reset (10_state.md R50). -/
def PinRegs.reset : PinRegs :=
  { clkDir := .input, clkO := .low, ceDir := .input, ceO := .low, ioDir := .input, ioO := .low, ioPull := .none }

/-- The configuration after reset (10_state.md R50). DESIGN CHOICE for `pins`, "unspecified" (log entry 8). -/
def Cfg.reset : Cfg :=
  { clkDelay := Config.defaultClkDelay, settleDelay := Config.defaultSettleDelay, dataResetOrder := .none,
    ioPull := .none, pins := { clkId := 0, ioId := 0, ceId := 0 } }

/-- The data registers after reset. DESIGN CHOICE: R50 leaves them unspecified (log entry 8). -/
def DataRegs.reset : DataRegs := { sr := 0, bc := 0, bi := 0, bn := 0, cmd := 0 }

/-- The buffers after reset. DESIGN CHOICE: R50 leaves them unspecified (log entry 8). -/
def Buffers.reset : Buffers :=
  { img := Vector.replicate 7 0, ram := Vector.replicate 31 0,
    cal := { year := 0, month := 0, day := 0, hour := 0, minute := 0, second := 0, weekday := 0 } }

/-- The status registers after reset (10_state.md R50). -/
def Status.reset : Status := { busy := false, err := 0, info := 0 }

/-- The sequencer idle (10_state.md R26, R50). DESIGN CHOICE for `phase` and `sub` while idle (log entry 8). -/
def Seq.idle : Seq := { op := none, phase := none, sub := 0 }

/-- The environment of a reset machine: nothing seen, nothing assumed of the answers or the peripheral.
DESIGN CHOICE for the valid pins, those of the spec's own programs (95_test_vectors.md section 3; log entry 5). -/
def Env.reset : Env :=
  { trace := [], answers := [], drawn := 0, validPins := List.range 40, periph := none }

/-- The machine right after reset (10_state.md R50): idle, no request presented, the host at the port. -/
def State.reset : State :=
  { drv := .uninitialized, tx := .idle, pin := .reset, cfg := .reset, x := .reset, buf := .reset, status := .reset,
    seq := .idle, port := { requests := [], resetIn := none, direct := false }, resp := none, env := .reset }

end Sys2Proof.Machine
end

