-- ==== Sys2Proof/Machine/Flags.lean ====
section
/-! DEFINITION. The engine has no arithmetic flags, no condition codes and no predicates (10_state.md R29). What
stands in their place is the status word of an error: the four errors, their codes and their information words
(60_exceptions.md R220, R221). -/

namespace Sys2Proof.Machine

/-- The causes of GpioAcquisitionError (60_exceptions.md R222). -/
inductive GpioCause where
  | pinsNotDistinct
  | pinInvalid
  deriving DecidableEq, Repr

/-- The causes of UsageError (60_exceptions.md R224). -/
inductive UsageCause where
  | notReady
  | nestedOpen
  | transferWhileIdle
  | illegalOp
  | initNotAllowed
  deriving DecidableEq, Repr

/-- The errors the engine raises, "and nothing else" (60_exceptions.md R220). -/
inductive EngineError where
  | gpioAcquisition (c : GpioCause)
  | range (f : CalField)
  | usage (c : UsageCause)
  /-- MalformedRegisterError: a masked nibble of the field is no decimal digit (43_bcd_codec.md R166). -/
  | malformedDigit (f : ImgIndex)
  /-- MalformedRegisterError: the field's digits are valid and its value is out of range (R167). -/
  | malformedRange (f : ImgIndex)
  deriving DecidableEq, Repr

/-- `status.err` (60_exceptions.md R221). -/
def EngineError.code : EngineError → BitVec 3
  | .gpioAcquisition _ => 1
  | .range _ => 2
  | .usage _ => 3
  | .malformedDigit _ => 4
  | .malformedRange _ => 4

/-- `status.info` of a RangeError: the field (43_bcd_codec.md R165). -/
def CalField.info : CalField → BitVec 8
  | .year => 1
  | .month => 2
  | .day => 3
  | .hour => 4
  | .minute => 5
  | .second => 6

/-- The image index of a field as a byte. -/
def ImgIndex.info (f : ImgIndex) : BitVec 8 := BitVec.ofNat 8 f.idx.val

/-- `status.info` (60_exceptions.md R221). -/
def EngineError.info : EngineError → BitVec 8
  | .gpioAcquisition .pinsNotDistinct => 1
  | .gpioAcquisition .pinInvalid => 2
  | .range f => f.info
  | .usage .notReady => 1
  | .usage .nestedOpen => 2
  | .usage .transferWhileIdle => 3
  | .usage .illegalOp => 4
  | .usage .initNotAllowed => 5
  | .malformedDigit f => 0x00 ||| f.info
  | .malformedRange f => 0x10 ||| f.info

end Sys2Proof.Machine
end

