-- ==== Sys2Proof/Machine/Peripheral.lean ====
section
/-! DEFINITION. The environment of the engine: the draws (20_memory.md R75) and the reference peripheral (R80
to R92), "an environment for tests and simulations" that no engine rule depends on. -/

namespace Sys2Proof.Machine

/-- A draw: a level that no rule constrains (20_memory.md R75). The next level the environment has fixed, or
the free value Config.draw at the counter, which advances (log entry 6). -/
def Env.draw (e : Env) : Level × Env :=
  match e.answers with
  | l :: rest => (l, { e with answers := rest })
  | [] => (Config.draw e.drawn, { e with drawn := e.drawn + 1 })

/-- The event stands in the trace (00_scope.md R18). -/
def Env.record (ev : PinEvent) (e : Env) : Env := { e with trace := e.trace ++ [ev] }

/-- The reference peripheral before its first event (20_memory.md R82): CE and CLK seen Low, no frame, IO not driven;
its storage is what the caller gives, "parameters of a test". DESIGN CHOICE for `phase`, `sr`, `bc`, `cmd` and `idx`, to
which R82 gives no initial value (log entry 7): a frame's start writes all but `cmd`, and its first byte writes that. -/
def Periph.initial (clkreg : Vector Byte 7) (ram : Vector Byte 31) (wp : Bool) (tcs : Byte) : Periph :=
  { clkreg, ram, wp, tcs, ce := .low, clk := .low, active := false, phase := .cmd, sr := 0, bc := 0, cmd := 0,
    idx := 0, out := none }

/-- The reference peripheral, with the storage given, is put on the lines (20_memory.md R80, R82). -/
def Env.attach (clkreg : Vector Byte 7) (ram : Vector Byte 31) (wp : Bool) (tcs : Byte) (e : Env) : Env :=
  { e with periph := some (Periph.initial clkreg ram wp tcs) }

/-- `min(P.idx + 1, 31)` (20_memory.md R87, R88). -/
def Periph.nextIdx (p : Periph) : BitVec 5 := if p.idx = 31 then 31 else p.idx + 1

/-- `WR(CE, High)` while CE was Low: a frame starts (20_memory.md R83). -/
def Periph.start (p : Periph) : Periph :=
  { p with active := true, phase := .cmd, sr := 0, bc := 0, idx := 0, out := none }

/-- `WR(CE, l)` (20_memory.md R83, R84). The bits of an incomplete byte are discarded when CE falls. -/
def Periph.onCe (l : Level) (p : Periph) : Periph :=
  match l with
  | .high => { (if p.ce = .low then p.start else p) with ce := .high }
  | .low => { p with active := false, out := none, ce := .low, sr := 0, bc := 0 }

/-- Command decode of the first byte of a frame (20_memory.md R86). -/
def Periph.decodeCommand (v : Byte) (p : Periph) : Periph :=
  { p with
    cmd := v
    phase :=
      if v = Config.cmdClkRd ∨ v = Config.cmdRamRd then .readData
      else if v = Config.cmdWp ∨ v = Config.cmdTcs ∨ v = Config.cmdClkWr ∨ v = Config.cmdRamWr then .writeData
      else .ignore }

/-- What a data byte stores in the regions that write protect guards (20_memory.md R87). A byte past the end
of its region is stored nowhere. -/
def Periph.store (v : Byte) (p : Periph) : Periph :=
  if p.wp then p
  else if p.cmd = Config.cmdTcs then { p with tcs := v }
  else if p.cmd = Config.cmdClkWr then { p with clkreg := p.clkreg.setIfInBounds p.idx.toNat v }
  else if p.cmd = Config.cmdRamWr then { p with ram := p.ram.setIfInBounds p.idx.toNat v }
  else p

/-- Data byte commit (20_memory.md R87). -/
def Env.commit (v : Byte) (p : Periph) (e : Env) : Periph × Env :=
  if p.cmd = Config.cmdWp then
    if v = 0x00 then ({ p with wp := false, idx := p.nextIdx }, e)
    else ({ p with wp := bit e.draw.1, idx := p.nextIdx }, e.draw.2)
  else ({ p.store v with idx := p.nextIdx }, e)

/-- The bit `b` arrives in phase Cmd or WriteData (20_memory.md R85). -/
def Env.takeBit (b : Bool) (p : Periph) (e : Env) : Periph × Env :=
  let sr := p.sr ||| ((BitVec.ofBool b).setWidth 8 <<< p.bc.toNat)
  if p.bc = 7 then
    let p := { p with sr := 0, bc := 0 }
    if p.phase = .cmd then (p.decodeCommand sr, e) else e.commit sr p
  else ({ p with sr := sr, bc := p.bc + 1 }, e)

/-- The level of IO at a rising edge (20_memory.md R85): the engine's latch if it drives the line, otherwise
a draw. -/
def Env.ioAtRise (pin : PinRegs) (e : Env) : Level × Env :=
  if pin.ioDir = .output then (pin.ioO, e) else e.draw

/-- `WR(CLK, High)` (20_memory.md R85). -/
def Env.clkHigh (pin : PinRegs) (p : Periph) (e : Env) : Env :=
  if p.clk = .low ∧ p.active = true ∧ (p.phase = .cmd ∨ p.phase = .writeData) then
    let r := (e.ioAtRise pin).2.takeBit (bit (e.ioAtRise pin).1) p
    { r.2 with periph := some { r.1 with clk := .high } }
  else { e with periph := some { p with clk := .high } }

/-- The byte the peripheral presents (20_memory.md R88); none where the rule draws it. -/
def Periph.presented (p : Periph) : Option Byte :=
  if p.cmd = Config.cmdClkRd then p.clkreg[p.idx.toNat]?
  else if p.cmd = Config.cmdRamRd then p.ram[p.idx.toNat]?
  else none

/-- `WR(CLK, Low)` (20_memory.md R88). -/
def Env.clkLow (p : Periph) (e : Env) : Env :=
  if p.clk = .high ∧ p.active = true ∧ p.phase = .readData then
    let r := match p.presented with
      | some b => (lvl (b.getLsbD p.bc.toNat), e)
      | none => e.draw
    { r.2 with
      periph := some
        { p with out := some r.1, bc := p.bc + 1, idx := if p.bc = 7 then p.nextIdx else p.idx, clk := .low } }
  else { e with periph := some { p with clk := .low } }

/-- The peripheral reacts to a pin event, `pin` being the pins after it (20_memory.md R82): to `WR(CE, ·)` and
`WR(CLK, ·)` only. A `WR` to a pin that is no output "sets the latch only" (93 U9, 40_pin_primitives.md R132) and
reaches no peripheral (log entry 16). -/
def Env.react (pin : PinRegs) (ev : PinEvent) (e : Env) : Env :=
  match e.periph, ev with
  | some p, .wr .ce l => if pin.ceDir = .output then { e with periph := some (p.onCe l) } else e
  | some p, .wr .clk .high => if pin.clkDir = .output then e.clkHigh pin p else e
  | some p, .wr .clk .low => if pin.clkDir = .output then e.clkLow p else e
  | _, _ => e

/-- The environment sees an event, `pin` being the pins after it: it is in the trace, and the peripheral
reacts at once and completely (20_memory.md R82). -/
def Env.see (pin : PinRegs) (ev : PinEvent) (e : Env) : Env := (e.record ev).react pin ev

/-- The level answered to `RD(p)`: a draw (40_pin_primitives.md R133), or with the reference peripheral on the
lines the answer of 20_memory.md R89; after a command byte outside the six "any `RD(IO)` in that transaction is a draw"
(R86; log entry 16). -/
def Env.sample (pin : PinRegs) (p : Pin) (e : Env) : Level × Env :=
  match p, e.periph with
  | .io, some q =>
    match q.out with
    | some l => (l, e)
    | none =>
      if q.active = true ∧ q.phase = .ignore then e.draw
      else if pin.ioDir = .output then (pin.ioO, e)
      else if pin.ioPull = .pullUp then (.high, e)
      else e.draw
  | _, _ => e.draw

end Sys2Proof.Machine
end

