-- ==== Sys2Proof/Machine/Ops.lean ====
section
/-! DEFINITION. The named operations over the state: emitting pin events (40_pin_primitives.md), raising an
error and responding (60_exceptions.md R230, R232), the gates of the host operations (45_driver_operations.md
R206), reset (70_reset_and_hazards.md R260, R261) and taking a request from the port (30_encoding.md R111). -/

namespace Sys2Proof.Machine

/-! ## Pin events -/

/-- The effect of a pin event on `pin` (40_pin_primitives.md R131 to R135). -/
def PinRegs.apply (r : PinRegs) : PinEvent → PinRegs
  | .dir .clk m _ => { r with clkDir := m }
  | .dir .ce m _ => { r with ceDir := m }
  | .dir .io m u => { r with ioDir := m, ioPull := u }
  | .wr .clk l => { r with clkO := l }
  | .wr .ce l => { r with ceO := l }
  | .wr .io l => { r with ioO := l }
  | .rd _ _ => r
  | .dly _ => r
  | .rel .clk => { r with clkDir := .input }
  | .rel .ce => { r with ceDir := .input }
  | .rel .io => { r with ioDir := .input, ioPull := .none }

/-- One more pin event of the current bit or framing step (10_state.md R26, `sub`). -/
def Seq.advance (q : Seq) : Seq := { q with sub := q.sub + 1 }

/-- `emit e` for every event but `RD` (00_scope.md R18): it takes effect on `pin`, stands in the trace, and the
environment sees it, before the next event (40_pin_primitives.md R130). -/
def State.emit (ev : PinEvent) (s : State) : State :=
  { s with pin := s.pin.apply ev, env := s.env.see (s.pin.apply ev) ev, seq := s.seq.advance }

/-- A sequence of events, in order. -/
def State.emitAll (evs : List PinEvent) (s : State) : State := evs.foldl (fun s ev => s.emit ev) s

/-- `emit RD(p) -> l` (40_pin_primitives.md R133). -/
def State.emitRead (p : Pin) (s : State) : Level × State :=
  let r := s.env.sample s.pin p
  (r.1, { s with env := r.2.record (.rd p r.1), seq := s.seq.advance })

/-! ## Registers -/

/-- `x[SR] <- v`. -/
def State.setSR (v : BitVec 8) (s : State) : State := { s with x := { s.x with sr := v } }

/-- `x[BC] <- i`. -/
def State.setBC (i : Nat) (s : State) : State := { s with x := { s.x with bc := BitVec.ofNat 4 i } }

/-- `x[BI] <- i`. -/
def State.setBI (i : Nat) (s : State) : State := { s with x := { s.x with bi := BitVec.ofNat 5 i } }

/-- `x[BI] <- x[BI] + 1`. -/
def State.nextBI (s : State) : State := { s with x := { s.x with bi := s.x.bi + 1 } }

/-- `x[CMD] <- c ; x[BN] <- n ; x[BI] <- 0` (44_burst_transactions.md R181 to R183). -/
def State.beginTransaction (c : Byte) (n : Nat) (s : State) : State :=
  { s with x := { s.x with cmd := c, bn := BitVec.ofNat 5 n, bi := 0 } }

/-- `IMG <- image`. -/
def State.setImg (image : Vector Byte 7) (s : State) : State := { s with buf := { s.buf with img := image } }

/-- `RAMBUF[0..len-1] <- bytes`: the other entries keep their values (45_driver_operations.md R204). -/
def State.loadRam (bytes : List Byte) (s : State) : State :=
  { s with buf := { s.buf with ram := loadFront s.buf.ram bytes } }

/-- `CAL <- c`. -/
def State.setCal (c : Calendar) (s : State) : State := { s with buf := { s.buf with cal := c } }

/-- The sequencer enters a phase (10_state.md R26; log entry 21). -/
def State.atPhase (p : Phase) (s : State) : State := { s with seq := { s.seq with phase := some p, sub := 0 } }

/-- The sequencer begins a bit (10_state.md R26). -/
def State.beginBit (s : State) : State := { s with seq := { s.seq with sub := 0 } }

/-! ## Errors and responses -/

/-- Taking an error: `raise E(info)` (60_exceptions.md R230). The operation ends, the response and `status`
carry the code and the information word, and nothing else changes (R231): nothing is saved, control goes
nowhere. -/
def State.raise (e : EngineError) (s : State) : State :=
  { s with
    status := { busy := false, err := e.code, info := e.info }
    seq := .idle
    resp := some { err := e.code, info := e.info, value := .none } }

/-- A host operation ends with success (60_exceptions.md R232: "a successful operation sets status.err <- 0";
30_encoding.md R111). There is no return from an error: the next request is simply accepted. -/
def State.respond (v : Value) (s : State) : State :=
  { s with
    status := { busy := false, err := 0, info := 0 }
    seq := .idle
    resp := some { err := 0, info := 0, value := v } }

/-- A micro-operation, wire command or pin event that was asked for by itself ends: its result is answered,
`status` is not written (log entry 9). -/
def State.deliver (v : Value) (s : State) : State :=
  { s with seq := .idle, resp := some { err := 0, info := 0, value := v } }

/-- The engine accepts a host operation (10_state.md R28: busy "from the acceptance of a request until its
response"). -/
def State.accept (op : HostOp) (s : State) : State :=
  { s with status := { s.status with busy := true }, seq := { op := some op, phase := none, sub := 0 } }

/-- The end of a host operation launched in `s`: success with a value, or an error, which leaves `s`
unchanged but for `status` (60_exceptions.md R231). -/
def endHostOp (s : State) (r : Except EngineError (State × Value)) : Host.Outcome State Fault Refusal :=
  match r with
  | .ok (t, v) => .next (t.respond v)
  | .error e => .next (s.raise e)

/-- The end of an operation asked for by itself in `s`. -/
def endOperation (s : State) (r : Except EngineError (State × Value)) : Host.Outcome State Fault Refusal :=
  match r with
  | .ok (t, v) => .next (t.deliver v)
  | .error e => .next (s.raise e)

/-! ## Gates -/

/-- The checks of the four data operations (45_driver_operations.md R201 to R204, R206): the `drv` check, then
the `tx` check (60_exceptions.md R241). -/
def readyGate (s : State) : Except EngineError Unit :=
  if s.drv ≠ .ready then .error (.usage .notReady)
  else if s.tx = .opened then .error (.usage .nestedOpen)
  else .ok ()

/-- `PinValid` (00_scope.md R13; log entry 5). -/
def pinValid (s : State) (p : PinId) : Bool := s.env.validPins.contains p

/-- The checks of INIT, in order (45_driver_operations.md R200, 60_exceptions.md R241). -/
def initGate (clkId ioId ceId : PinId) (s : State) : Except EngineError Unit :=
  if s.drv ≠ .uninitialized then .error (.usage .initNotAllowed)
  else if s.tx = .opened then .error (.usage .nestedOpen)
  else if clkId = ioId ∨ clkId = ceId ∨ ioId = ceId then .error (.gpioAcquisition .pinsNotDistinct)
  else if ¬ (pinValid s clkId ∧ pinValid s ioId ∧ pinValid s ceId) then .error (.gpioAcquisition .pinInvalid)
  else .ok ()

/-! ## Reset -/

/-- Reset (70_reset_and_hazards.md R260): the engine is at the table of 10_state.md R50, nothing in it survives
(60_exceptions.md R250). The environment is not touched; the host keeps the requests it has not presented. -/
def State.engineReset (s : State) : State :=
  { State.reset with port := { s.port with resetIn := none }, env := s.env }

/-- The environment sees a sequence of events again, from the pins `pin` on; each `RD` takes its answer again. -/
def Env.replay (pin : PinRegs) : List PinEvent → Env → Env
  | [], e => e
  | .rd p l :: evs, e => Env.replay pin evs ((e.sample pin p).2.record (.rd p l))
  | ev :: evs, e => Env.replay (pin.apply ev) evs (e.see (pin.apply ev) ev)

/-- The events an operation launched in `s` has emitted by `t`. -/
def eventsBetween (s t : State) : List PinEvent := t.env.trace.drop s.env.trace.length

/-- Reset during the operation that leads from `s` to `t` (70_reset_and_hazards.md R261): "The operation is
abandoned at whatever pin event it had reached; no response is given". The environment has seen the first `k`
events only. An operation that emits no more than `k` events ends before the reset, which is then due at
once. -/
def State.abandonAfter (k : Nat) (s t : State) : State :=
  if k < (eventsBetween s t).length then
    { s with env := s.env.replay s.pin ((eventsBetween s t).take k) }.engineReset
  else { t with port := { t.port with resetIn := some 0 } }

/-- What a pending reset makes of the outcome of the operation launched in `s`. -/
def withReset (s : State) (o : Host.Outcome State Fault Refusal) : Host.Outcome State Fault Refusal :=
  match s.port.resetIn, o with
  | some k, .next t => .next (s.abandonAfter k t)
  | _, o => o

/-! ## Requests -/

/-- The engine is idle and can accept a request (30_encoding.md R111, 10_state.md R26). -/
def State.idle (s : State) : Bool := !s.status.busy && s.seq.op.isNone

/-- The request has been taken from the port; "operands are sampled at acceptance and not looked at again"
(30_encoding.md R111). -/
def State.takeRequest (s : State) : State := { s with port := { s.port with requests := s.port.requests.tail } }

/-- Whether the port takes a request of this format: the engine decodes host operations only (30_encoding.md R100,
R112), and pin events come "never by the host directly" (40_pin_primitives.md R130); the test bench asks for all. -/
def Port.takes (p : Port) (f : Format) : Bool := f = .h || p.direct

/-- The answer to a request that is no operation: an unassigned host code is answered with
UsageError(IllegalOp) (30_encoding.md R113(a), 60_exceptions.md R224(d)); anything else that decodes to nothing
cannot be presented (93 U6, U14) and is refused. -/
def rejectRequest (e : DecodeError) (s : State) : Host.Outcome State Fault Refusal :=
  match e with
  | .illegalHostCode => .next (s.raise (.usage .illegalOp))
  | e => .refused (.undecodable e)

/-- The request whose next step runs a word of the opcode table. -/
def tableRequest (nbits w : Nat) : Request := { format := tableFormat nbits w, bytes := tableBytes nbits w }

end Sys2Proof.Machine
end

