-- ==== Sys2Proof/Machine/BcdCodec.lean ====
section
/-! DEFINITION. The BCD register codec: BCD_PACK, BCD_UNPACK, DOW, BCD_ENCODE, BCD_DECODE (43_bcd_codec.md). No
operation of this file emits a pin event. -/

namespace Sys2Proof.Machine

/-- The weekday of a date as the field of CAL (43_bcd_codec.md R163). -/
def weekdayOf (year month day : Nat) : BitVec 3 := BitVec.ofNat 3 (dayOfWeek year month day)

/-- BCD_ENCODE (43_bcd_codec.md R164): the bounds check first, "nothing written before"; then IMG, and CAL with
the operands and the computed weekday (10_state.md R25; log entry 12). -/
def bcdEncode (year : BitVec 12) (month : BitVec 4) (day hour : BitVec 5) (minute second : BitVec 6) (s : State) :
    Except EngineError State :=
  match encodeBounds year.toNat month.toNat day.toNat hour.toNat minute.toNat second.toNat with
  | some f => .error (.range f)
  | none =>
    .ok (((s.atPhase .codec).setImg
        (encodeImage year.toNat month.toNat day.toNat hour.toNat minute.toNat second.toNat)).setCal
      { year, month, day, hour, minute, second, weekday := weekdayOf year.toNat month.toNat day.toNat })

/-- The CalendarValue an image decodes to once its digits and ranges are valid (43_bcd_codec.md R166). -/
def imageCalendar (image : Vector Byte 7) : Calendar :=
  let year := imageValue image .year + 2000
  let month := imageValue image .month
  let day := imageValue image .day
  { year := BitVec.ofNat 12 year
    month := BitVec.ofNat 4 month
    day := BitVec.ofNat 5 day
    hour := BitVec.ofNat 5 (imageValue image .hour)
    minute := BitVec.ofNat 6 (imageValue image .minute)
    second := BitVec.ofNat 6 (imageValue image .second)
    weekday := weekdayOf year month day }

/-- BCD_DECODE (43_bcd_codec.md R166): all digit checks, then the range checks (R167), then CAL. -/
def bcdDecode (image : Vector Byte 7) : Except EngineError Calendar :=
  match firstBadDigit image with
  | some f => .error (.malformedDigit f)
  | none =>
    match decodeBounds (imageValue image .year + 2000) (imageValue image .month) (imageValue image .day)
        (imageValue image .hour) (imageValue image .minute) (imageValue image .second) with
    | some f => .error (.malformedRange f)
    | none => .ok (imageCalendar image)

/-- BCD_PACK asked for by itself. The spec defines it on 0 to 99 only (43_bcd_codec.md R160, 93 U15). -/
def execBcdPack (v : BitVec 7) (s : State) : Host.Outcome State Fault Refusal :=
  if bcdPackDefined v.toNat then .next (s.deliver (.byte (bcdPackByte v.toNat))) else .refused .packOutsideDomain

/-- BCD_UNPACK asked for by itself (43_bcd_codec.md R161). -/
def execBcdUnpack (byte tensMask : Byte) (s : State) : Host.Outcome State Fault Refusal :=
  .next (s.deliver (.digits (tensDigit byte tensMask) (unitsDigit byte)))

/-- DOW asked for by itself. The spec defines it on valid dates only (43_bcd_codec.md R163, 93 U15). -/
def execDow (year : BitVec 12) (month : BitVec 4) (day : BitVec 5) (s : State) :
    Host.Outcome State Fault Refusal :=
  if dateValid year.toNat month.toNat day.toNat then
    .next (s.deliver (.weekday (weekdayOf year.toNat month.toNat day.toNat)))
  else .refused .dateOutsideDomain

/-- BCD_ENCODE asked for by itself: the result is IMG. -/
def execBcdEncode (year : BitVec 12) (month : BitVec 4) (day hour : BitVec 5) (minute second : BitVec 6)
    (s : State) : Host.Outcome State Fault Refusal :=
  endOperation s ((bcdEncode year month day hour minute second s).map fun t => (t, .image t.buf.img))

/-- BCD_DECODE asked for by itself: CAL is written "only when no error is raised", and is the result. -/
def execBcdDecode (image : Vector Byte 7) (s : State) : Host.Outcome State Fault Refusal :=
  endOperation s ((bcdDecode image).map fun c => (s.setCal c, .calendar c))

end Sys2Proof.Machine
end

