-- ==== Sys2Proof/Machine/ByteShift.lean ====
section
/-! DEFINITION. The byte shifter: WRITE_BYTE and READ_BYTE (42_byte_shift.md). -/

namespace Sys2Proof.Machine

/-- The events of one bit of WRITE_BYTE, for the level `l` and the half-period delay `d` (42_byte_shift.md
R150). -/
def writeBitEvents (d : BitVec 16) (l : Level) : List PinEvent :=
  [.wr .clk .low, .dly d, .wr .io l, .wr .clk .high, .dly d]

/-- Iteration `i` of WRITE_BYTE (42_byte_shift.md R150). -/
def writeBit (i : Nat) (s : State) : State :=
  let t := ((s.setBC i).beginBit).emitAll (writeBitEvents s.cfg.clkDelay (lvl (s.x.sr.getLsbD 0)))
  t.setSR (t.x.sr >>> 1)

/-- The eight iterations of a byte, "in that order" (00_scope.md R17). -/
def eightBits : List Nat := [0, 1, 2, 3, 4, 5, 6, 7]

/-- The body of WRITE_BYTE in an open transaction (42_byte_shift.md R150). -/
def shiftOut (v : Byte) (s : State) : State :=
  let t := ((s.beginBit).emit (.dir .io .output .none)).setSR v
  (eightBits.foldl (fun t i => writeBit i t) t).setBC 8

/-- WRITE_BYTE (42_byte_shift.md R150): byte transfers need an open transaction (R153). -/
def writeByte (v : Byte) (s : State) : Except EngineError State :=
  if s.tx = .idle then .error (.usage .transferWhileIdle) else .ok (shiftOut v s)

/-- The events of one bit of READ_BYTE before its sample (42_byte_shift.md R152). -/
def readPulseEvents (d : BitVec 16) : List PinEvent := [.wr .clk .high, .dly d, .wr .clk .low, .dly d]

/-- Iteration `i` of READ_BYTE (42_byte_shift.md R152). -/
def readBit (i : Nat) (s : State) : State :=
  let t := ((s.setBC i).beginBit).emitAll (readPulseEvents s.cfg.clkDelay)
  let r := t.emitRead .io
  r.2.setSR (r.2.x.sr ||| ((BitVec.ofBool (bit r.1)).setWidth 8 <<< r.2.x.bc.toNat))

/-- The body of READ_BYTE in an open transaction (42_byte_shift.md R152). -/
def shiftIn (s : State) : Byte × State :=
  let t := ((s.beginBit).emit (.dir .io .input s.cfg.ioPull)).setSR 0
  let t := (eightBits.foldl (fun t i => readBit i t) t).setBC 8
  (t.x.sr, t)

/-- READ_BYTE (42_byte_shift.md R152): byte transfers need an open transaction (R153). -/
def readByte (s : State) : Except EngineError (Byte × State) :=
  if s.tx = .idle then .error (.usage .transferWhileIdle) else .ok (shiftIn s)

/-- WRITE_BYTE asked for by itself. -/
def execWriteByte (v : Byte) (s : State) : Host.Outcome State Fault Refusal :=
  endOperation s ((writeByte v s).map fun t => (t, .none))

/-- READ_BYTE asked for by itself. -/
def execReadByte (s : State) : Host.Outcome State Fault Refusal :=
  endOperation s ((readByte s).map fun r => (r.2, .byte r.1))

end Sys2Proof.Machine
end

