-- ==== Sys2Proof/Machine/Framing.lean ====
section
/-! DEFINITION. Transaction framing: TX_OPEN and TX_CLOSE (41_framing.md). -/

namespace Sys2Proof.Machine

/-- The "data-line reset" of 41_framing.md R141(a), where the configured order is `o`. -/
def dataLineReset (o : DataResetOrder) (c : Cfg) : List PinEvent :=
  if c.dataResetOrder = o then [.dir .io .input c.ioPull] else []

/-- The events of TX_OPEN (41_framing.md R140, R141). -/
def txOpenEvents (c : Cfg) : List PinEvent :=
  [.wr .clk .low] ++ dataLineReset .beforeCe c ++ [.wr .ce .high] ++ dataLineReset .afterCe c
    ++ (if c.settleDelay = 0 then [] else [.dly c.settleDelay])

/-- TX_OPEN (41_framing.md R140). Nesting is forbidden (R142). -/
def txOpen (s : State) : Except EngineError State :=
  if s.tx = .opened then .error (.usage .nestedOpen)
  else .ok { (s.atPhase .txOpen).emitAll (txOpenEvents s.cfg) with tx := .opened }

/-- The events of TX_CLOSE (41_framing.md R143). -/
def txCloseEvents (c : Cfg) : List PinEvent := [.dir .io .input c.ioPull, .wr .clk .low, .wr .ce .low]

/-- TX_CLOSE (41_framing.md R143): unconditional, from any state (R144). -/
def txClose (s : State) : State := { (s.atPhase .txClose).emitAll (txCloseEvents s.cfg) with tx := .idle }

/-- TX_OPEN asked for by itself. -/
def execTxOpen (s : State) : Host.Outcome State Fault Refusal :=
  endOperation s ((txOpen s).map fun t => (t, .none))

/-- TX_CLOSE asked for by itself. -/
def execTxClose (s : State) : Host.Outcome State Fault Refusal := .next ((txClose s).deliver .none)

end Sys2Proof.Machine
end

