-- ==== Sys2Proof/Machine/Transactions.lean ====
section
/-! DEFINITION. Transactions: REG_WRITE, BURST_READ, BURST_WRITE, and the frames of the six wire commands
(44_burst_transactions.md). An error is raised before any event and the state before the transaction is kept
(60_exceptions.md R231; log entry 11). -/

namespace Sys2Proof.Machine

/-- REG_WRITE c, v (44_burst_transactions.md R181). The host operations send `c` 0x8E or 0x90 and `v` 0x00 only; that
it runs for every other `c` and `v` is a DESIGN CHOICE (log entry 25). -/
def regWrite (c v : Byte) (s : State) : Except EngineError State := do
  let s ← txOpen (s.beginTransaction c 1)
  let s ← writeByte c (s.atPhase .cmdByte)
  let s ← writeByte v (s.atPhase .dataByte)
  return txClose (s.setBI 1)

/-- The data bytes of a write frame, in order (44_burst_transactions.md R183). -/
def writeBytes : List Byte → State → Except EngineError State
  | [], s => .ok s
  | b :: bs, s => do
    let s ← writeByte b (s.atPhase .dataByte)
    writeBytes bs s.nextBI

/-- The data bytes of a read frame, in order (44_burst_transactions.md R182). -/
def readBytes : Nat → State → Except EngineError (List Byte × State)
  | 0, s => .ok ([], s)
  | n + 1, s => do
    let (b, s) ← readByte (s.atPhase .dataByte)
    let (bs, s) ← readBytes n s.nextBI
    return (b :: bs, s)

/-- BURST_WRITE c, bytes (44_burst_transactions.md R183). -/
def burstWrite (c : Byte) (bytes : List Byte) (s : State) : Except EngineError State := do
  let s ← txOpen (s.beginTransaction c bytes.length)
  let s ← writeByte c (s.atPhase .cmdByte)
  let s ← writeBytes bytes s
  return txClose s

/-- BURST_READ c, n (44_burst_transactions.md R182). -/
def burstRead (c : Byte) (n : Nat) (s : State) : Except EngineError (List Byte × State) := do
  let s ← txOpen (s.beginTransaction c n)
  let s ← writeByte c (s.atPhase .cmdByte)
  let (bytes, s) ← readBytes n s
  return (bytes, txClose s)

/-- Write clock burst: the frame `BURST_WRITE 0xBE, IMG[0..6]` (44_burst_transactions.md R186). -/
def clockWrite (s : State) : Except EngineError State := burstWrite Config.cmdClkWr s.buf.img.toList s

/-- Read clock burst: `IMG <- BURST_READ 0xBF, 7` (44_burst_transactions.md R187, 45_driver_operations.md R201). -/
def clockRead (s : State) : Except EngineError State := do
  let (bytes, s) ← burstRead Config.cmdClkRd Config.clkImgLen s
  return s.setImg (loadFront s.buf.img bytes)

/-- Write RAM burst: `BURST_WRITE 0xFE, RAMBUF[0..m-1]`, `m = min(n, 31)` (44_burst_transactions.md R188). -/
def ramWrite (len : BitVec 8) (s : State) : Except EngineError State :=
  burstWrite Config.cmdRamWr (s.buf.ram.toList.take (ramCount len)) s

/-- Read RAM burst: `RAMBUF[0..30] <- BURST_READ 0xFF, 31` (44_burst_transactions.md R189,
45_driver_operations.md R203). -/
def ramRead (s : State) : Except EngineError State := do
  let (bytes, s) ← burstRead Config.cmdRamRd Config.ramMax s
  return s.loadRam bytes

/-- REG_WRITE asked for by itself. DESIGN CHOICE: every command byte and every value (log entry 25; R180 has `c` one of
six, 93 U6 and U10 say the engine should refuse others). -/
def execRegWrite (c v : Byte) (s : State) : Host.Outcome State Fault Refusal :=
  endOperation s ((regWrite c v s).map fun t => (t, .none))

/-- BURST_READ asked for by itself: the result is the list of bytes. DESIGN CHOICE: every command byte (log entry 25;
R180, 93 U6). -/
def execBurstRead (c : Byte) (n : BitVec 5) (s : State) : Host.Outcome State Fault Refusal :=
  endOperation s ((burstRead c n.toNat s).map fun r => (r.2, .bytes r.1))

/-- BURST_WRITE asked for by itself: `data[0..n-1]` is sent (00_scope.md R19). DESIGN CHOICE: every command byte (log
entry 25; R180, 93 U6). -/
def execBurstWrite (c : Byte) (n : BitVec 5) (data : Vector Byte 31) (s : State) :
    Host.Outcome State Fault Refusal :=
  endOperation s ((burstWrite c (data.toList.take n.toNat) s).map fun t => (t, .none))

/-- Command 0x8E, clear write protect: the frame `REG_WRITE 0x8E, 0x00` (44_burst_transactions.md R184). -/
def execCmdWp (s : State) : Host.Outcome State Fault Refusal :=
  endOperation s ((regWrite Config.cmdWp Config.maintenanceValue s).map fun t => (t, .none))

/-- Command 0x90, disable trickle charge: the frame `REG_WRITE 0x90, 0x00` (44_burst_transactions.md R185). -/
def execCmdTcs (s : State) : Host.Outcome State Fault Refusal :=
  endOperation s ((regWrite Config.cmdTcs Config.maintenanceValue s).map fun t => (t, .none))

/-- Command 0xBE, write clock burst (44_burst_transactions.md R186). -/
def execCmdClkWr (s : State) : Host.Outcome State Fault Refusal :=
  endOperation s ((clockWrite s).map fun t => (t, .none))

/-- Command 0xBF, read clock burst (44_burst_transactions.md R187): the result is the image. -/
def execCmdClkRd (s : State) : Host.Outcome State Fault Refusal :=
  endOperation s ((clockRead s).map fun t => (t, .image t.buf.img))

/-- Command 0xFE, write RAM burst (44_burst_transactions.md R188). -/
def execCmdRamWr (len : BitVec 8) (s : State) : Host.Outcome State Fault Refusal :=
  endOperation s ((ramWrite len s).map fun t => (t, .none))

/-- Command 0xFF, read RAM burst (44_burst_transactions.md R189): the result is the 31 bytes. -/
def execCmdRamRd (s : State) : Host.Outcome State Fault Refusal :=
  endOperation s ((ramRead s).map fun t => (t, .ram t.buf.ram))

end Sys2Proof.Machine
end

