-- ==== Sys2Proof/Machine/HostOps.lean ====
section
/-! DEFINITION. The six host operations (45_driver_operations.md R200 to R205). -/

namespace Sys2Proof.Machine

/-- The set-up events of INIT: CLK and CE outputs at Low (45_driver_operations.md R200). -/
def pinSetupEvents : List PinEvent :=
  [.dir .clk .output .none, .wr .clk .low, .dir .ce .output .none, .wr .ce .low]

/-- The release events of CLOSE, in order (45_driver_operations.md R205). -/
def releaseEvents : List PinEvent := [.rel .clk, .rel .io, .rel .ce]

/-- INIT once its checks have passed: `cfg`, the pins, the two maintenance transactions, then Ready
(45_driver_operations.md R200). -/
def initBody (c : Cfg) (s : State) : Except EngineError State := do
  let s := ({ s with cfg := c }.atPhase .pinSetup).emitAll pinSetupEvents
  let s ← regWrite Config.cmdWp Config.maintenanceValue (s.atPhase .maintWp)
  let s ← regWrite Config.cmdTcs Config.maintenanceValue (s.atPhase .maintTcs)
  return { s with drv := .ready }

/-- INIT (45_driver_operations.md R200). -/
def execInit (clkId ioId ceId : PinId) (clkDelay settleDelay : BitVec 16) (order : DataResetOrder) (pull : Pull)
    (s : State) : Host.Outcome State Fault Refusal :=
  endHostOp s do
    initGate clkId ioId ceId s
    let t ← initBody
      { clkDelay, settleDelay, dataResetOrder := order, ioPull := pull, pins := { clkId, ioId, ceId } }
      (s.accept .init)
    return (t, .none)

/-- READ_DATETIME (45_driver_operations.md R201). MalformedRegisterError is raised "after the whole transaction
has been emitted and closed": the state is that of the completed transaction, CAL is not written
(60_exceptions.md R231). -/
def execReadDatetime (s : State) : Host.Outcome State Fault Refusal :=
  match (readyGate s).bind fun _ => clockRead (s.accept .readDatetime) with
  | .error e => .next (s.raise e)
  | .ok t => endHostOp t ((bcdDecode t.buf.img).map fun c => (t.setCal c, .calendar c))

/-- WRITE_DATETIME (45_driver_operations.md R202): the codec first, "no partial write attempted". -/
def execWriteDatetime (year : BitVec 12) (month : BitVec 4) (day hour : BitVec 5) (minute second : BitVec 6)
    (s : State) : Host.Outcome State Fault Refusal :=
  endHostOp s do
    readyGate s
    let t ← bcdEncode year month day hour minute second (s.accept .writeDatetime)
    let t ← clockWrite t
    return (t, .none)

/-- READ_RAM (45_driver_operations.md R203). -/
def execReadRam (s : State) : Host.Outcome State Fault Refusal :=
  endHostOp s do
    readyGate s
    let t ← ramRead (s.accept .readRam)
    return (t, .ram t.buf.ram)

/-- WRITE_RAM (45_driver_operations.md R204): `m = min(n, 31)` bytes; the rest is silently ignored. -/
def execWriteRam (len : BitVec 8) (image : Vector Byte 31) (s : State) : Host.Outcome State Fault Refusal :=
  endHostOp s do
    readyGate s
    let t ← ramWrite len ((s.accept .writeRam).loadRam (image.toList.take (ramCount len)))
    return (t, .none)

/-- CLOSE from Ready (45_driver_operations.md R205): TX_CLOSE first when a transaction is open. -/
def closeBody (s : State) : State :=
  let t := if s.tx = .opened then txClose s else s
  { (t.atPhase .release).emitAll releaseEvents with drv := .closed }

/-- CLOSE (45_driver_operations.md R205): idempotent from Closed, NotReady from Uninitialized. -/
def execClose (s : State) : Host.Outcome State Fault Refusal :=
  match s.drv with
  | .closed => .next (s.respond .none)
  | .uninitialized => .next (s.raise (.usage .notReady))
  | .ready => .next ((closeBody (s.accept .close)).respond .none)

end Sys2Proof.Machine
end

