-- ==== Sys2Proof/Machine/PinEvents.lean ====
section
/-! DEFINITION. The pin events asked for by themselves (40_pin_primitives.md R131 to R135). None raises an
error (R130). -/

namespace Sys2Proof.Machine

/-- DIR (40_pin_primitives.md R131). -/
def execDir (p : Pin) (m : PinMode) (u : Pull) (s : State) : Host.Outcome State Fault Refusal :=
  .next ((s.emit (.dir p m u)).deliver .none)

/-- WR (40_pin_primitives.md R132). -/
def execWr (p : Pin) (l : Level) (s : State) : Host.Outcome State Fault Refusal :=
  .next ((s.emit (.wr p l)).deliver .none)

/-- RD (40_pin_primitives.md R133): the level read is the result. -/
def execRd (p : Pin) (s : State) : Host.Outcome State Fault Refusal :=
  .next ((s.emitRead p).2.deliver (.level (s.emitRead p).1))

/-- DLY (40_pin_primitives.md R134): no effect on any state but the trace. -/
def execDly (t : BitVec 16) (s : State) : Host.Outcome State Fault Refusal :=
  .next ((s.emit (.dly t)).deliver .none)

/-- REL (40_pin_primitives.md R135). -/
def execRel (p : Pin) (s : State) : Host.Outcome State Fault Refusal :=
  .next ((s.emit (.rel p)).deliver .none)

end Sys2Proof.Machine
end

