-- ==== Sys2Proof/Machine/Dispatch.lean ====
section
/-! DEFINITION. One arm per instruction. -/

namespace Sys2Proof.Machine

/-- The meaning of an instruction. -/
def exec (i : Instr) (s : State) : Host.Outcome State Fault Refusal :=
  match i with
  -- format H: host operations (30_encoding.md R110)
  | .init clkId ioId ceId clkDelay settleDelay order pull => Sys2Proof.Machine.execInit clkId ioId ceId clkDelay settleDelay order pull s
  | .readDatetime => Sys2Proof.Machine.execReadDatetime s
  | .writeDatetime year month day hour minute second => Sys2Proof.Machine.execWriteDatetime year month day hour minute second s
  | .readRam => Sys2Proof.Machine.execReadRam s
  | .writeRam len image => Sys2Proof.Machine.execWriteRam len image s
  | .close => Sys2Proof.Machine.execClose s
  -- format W: wire commands (30_encoding.md R101)
  | .cmdWp => Sys2Proof.Machine.execCmdWp s
  | .cmdTcs => Sys2Proof.Machine.execCmdTcs s
  | .cmdClkWr => Sys2Proof.Machine.execCmdClkWr s
  | .cmdClkRd => Sys2Proof.Machine.execCmdClkRd s
  | .cmdRamWr len => Sys2Proof.Machine.execCmdRamWr len s
  | .cmdRamRd => Sys2Proof.Machine.execCmdRamRd s
  -- format U: micro-operations (30_encoding.md R112)
  | .txOpen => Sys2Proof.Machine.execTxOpen s
  | .txClose => Sys2Proof.Machine.execTxClose s
  | .writeByte v => Sys2Proof.Machine.execWriteByte v s
  | .readByte => Sys2Proof.Machine.execReadByte s
  | .bcdPack v => Sys2Proof.Machine.execBcdPack v s
  | .bcdUnpack byte tensMask => Sys2Proof.Machine.execBcdUnpack byte tensMask s
  | .dow year month day => Sys2Proof.Machine.execDow year month day s
  | .bcdEncode year month day hour minute second => Sys2Proof.Machine.execBcdEncode year month day hour minute second s
  | .bcdDecode image => Sys2Proof.Machine.execBcdDecode image s
  | .regWrite c v => Sys2Proof.Machine.execRegWrite c v s
  | .burstRead c n => Sys2Proof.Machine.execBurstRead c n s
  | .burstWrite c n data => Sys2Proof.Machine.execBurstWrite c n data s
  -- format P: pin events (30_encoding.md R112)
  | .dir p m u => Sys2Proof.Machine.execDir p m u s
  | .wr p l => Sys2Proof.Machine.execWr p l s
  | .rd p => Sys2Proof.Machine.execRd p s
  | .dly t => Sys2Proof.Machine.execDly t s
  | .rel p => Sys2Proof.Machine.execRel p s

end Sys2Proof.Machine
end

