-- ==== Sys2Proof/Machine/Step.lean ====
section
/-! DEFINITION. One step: a reset that is due, or the next request of the host run to its response
(45_driver_operations.md R209). -/

namespace Sys2Proof.Machine

/-- One step (log entries 1, 4, 9, 17, 20). A reset that is due puts the engine at 10_state.md R50. Otherwise an
idle engine accepts the next request and runs it whole; with no request it waits; a busy engine accepts none. A
request of format W, U or P is the test bench's only (`Port.takes`). -/
def step (s : State) : Host.Outcome State Fault Refusal :=
  if s.port.resetIn = some 0 then .next s.engineReset
  else if s.idle then
    match s.port.requests with
    | [] => .next s
    | r :: _ =>
      if s.port.takes r.format then
        match decode r.format r.bytes with
        | .ok (i, _) => withReset s.takeRequest (exec i s.takeRequest)
        | .error e => withReset s.takeRequest (rejectRequest e s.takeRequest)
      else .refused .notForTheHost
  else .next s

/-- `s` with the request of a table word presented next by the test bench, the engine idle and no reset asserted, so
that the very next step runs it. -/
def State.withFetchWord (s : State) (nbits w : Nat) : State :=
  { s with
    port := { requests := tableRequest nbits w :: s.port.requests, resetIn := none, direct := true }
    status := { s.status with busy := false }
    seq := .idle }

end Sys2Proof.Machine
end

