-- ==== Sys2Proof/Machine/Observe.lean ====
section
/-! DEFINITION. What an observer of the lines sees (20_memory.md R74, R76): the levels of the lines, the edges of
CLK, the event sequences of bytes and frames, and the bits a frame carries. Nothing here runs in a step. -/

namespace Sys2Proof.Machine

/-- The level the engine puts on a line, if it drives it (20_memory.md R76). -/
def PinRegs.drives (r : PinRegs) : Pin → Option Level
  | .clk => if r.clkDir = .output then some r.clkO else none
  | .io => if r.ioDir = .output then some r.ioO else none
  | .ce => if r.ceDir = .output then some r.ceO else none

/-- The pins after a sequence of events. -/
def PinRegs.applyAll (r : PinRegs) (evs : List PinEvent) : PinRegs := evs.foldl PinRegs.apply r

/-- The environment after a sequence of events without `RD`, from the pins `r` on. -/
def Env.seeAll (r : PinRegs) : List PinEvent → Env → Env
  | [], e => e
  | ev :: evs, e => Env.seeAll (r.apply ev) evs (e.see (r.apply ev) ev)

/-- The levels of a byte's bits, bit 0 first (20_memory.md R64). -/
def byteLevels (v : Byte) : List Level := eightBits.map fun i => lvl (v.getLsbD i)

/-- The levels of a list of bytes, in order (20_memory.md R64, R65). -/
def bytesLevels (l : List Byte) : List Level := l.flatMap byteLevels

/-- The 41 events of WRITE_BYTE (42_byte_shift.md R150). -/
def writeByteEvents (d : BitVec 16) (v : Byte) : List PinEvent :=
  .dir .io .output .none :: (byteLevels v).flatMap (writeBitEvents d)

/-- The 41 events of a READ_BYTE that returns `v` (42_byte_shift.md R152). -/
def readByteEvents (d : BitVec 16) (u : Pull) (v : Byte) : List PinEvent :=
  .dir .io .input u :: (byteLevels v).flatMap fun l => readPulseEvents d ++ [.rd .io l]

/-- The events of a write frame: the command byte and `bytes` (44_burst_transactions.md R180, R183). -/
def writeFrame (cfg : Cfg) (c : Byte) (bytes : List Byte) : List PinEvent :=
  txOpenEvents cfg ++ (c :: bytes).flatMap (writeByteEvents cfg.clkDelay) ++ txCloseEvents cfg

/-- The events of a read frame in which the peripheral sends `bytes` (44_burst_transactions.md R180, R182). -/
def readFrame (cfg : Cfg) (c : Byte) (bytes : List Byte) : List PinEvent :=
  txOpenEvents cfg ++ writeByteEvents cfg.clkDelay c ++ bytes.flatMap (readByteEvents cfg.clkDelay cfg.ioPull)
    ++ txCloseEvents cfg

/-- The pins as TX_CLOSE leaves them (41_framing.md R143), with the data latch `l`. -/
def PinRegs.closed (r : PinRegs) (u : Pull) (l : Level) : PinRegs :=
  { r with ioDir := .input, ioPull := u, clkO := .low, ceO := .low, ioO := l }

/-- The state after a write frame (44_burst_transactions.md R183): the lines as TX_CLOSE leaves them, the data latch
at bit 7 of the last byte written, the data registers as the shifter and the burst leave them. -/
def State.afterWriteFrame (c : Byte) (bytes : List Byte) (s : State) : State :=
  { s with
    pin := s.pin.closed s.cfg.ioPull (lvl ((bytes.getLastD c).getLsbD 7))
    env := s.env.seeAll s.pin (writeFrame s.cfg c bytes)
    x :=
      { sr := 0, bc := 8, bi := BitVec.ofNat 5 bytes.length, bn := BitVec.ofNat 5 bytes.length, cmd := c } }

/-- The state after a read frame that returned `bytes` and left the environment `e` (44_burst_transactions.md
R182). -/
def State.afterReadFrame (c : Byte) (bytes : List Byte) (e : Env) (s : State) : State :=
  { s with
    pin := s.pin.closed s.cfg.ioPull (lvl (c.getLsbD 7))
    env := e
    x :=
      { sr := bytes.getLastD 0, bc := 8, bi := BitVec.ofNat 5 bytes.length, bn := BitVec.ofNat 5 bytes.length,
        cmd := c } }

/-- The level of the IO latch at each `WR(CLK, High)` event: the "independent bit-level reconstruction" of
42_byte_shift.md R155 (91 N18). -/
def ioAtClkHigh (r : PinRegs) : List PinEvent → List Level
  | [] => []
  | ev :: evs => (if ev = .wr .clk .high then [(r.apply ev).ioO] else []) ++ ioAtClkHigh (r.apply ev) evs

/-- The event is a `DLY`. -/
def isDly : PinEvent → Bool
  | .dly _ => true
  | _ => false

/-- The event is a `WR` of the pin. -/
def isWr (p : Pin) : PinEvent → Bool
  | .wr q _ => q = p
  | _ => false

/-- The event is a `DIR` of the pin. -/
def isDir (p : Pin) : PinEvent → Bool
  | .dir q _ _ => q = p
  | _ => false

/-- The event is a `RD`. -/
def isRd : PinEvent → Bool
  | .rd _ _ => true
  | _ => false

/-- A rising edge of CLK (20_memory.md R76). -/
def PinRegs.risingEdge (r : PinRegs) (ev : PinEvent) : Bool :=
  ev = .wr .clk .high && r.clkDir = .output && r.clkO = .low

/-- A falling edge of CLK (20_memory.md R76). -/
def PinRegs.fallingEdge (r : PinRegs) (ev : PinEvent) : Bool := ev = .wr .clk .low && r.clkO = .high

/-- How many events of a sequence satisfy `f` of the pins before them while CE is High
(44_burst_transactions.md R190). -/
def countInFrame (f : PinRegs → PinEvent → Bool) (r : PinRegs) : List PinEvent → Nat
  | [] => 0
  | ev :: evs => (if r.ceO = .high && f r ev then 1 else 0) + countInFrame f (r.apply ev) evs

/-- The events of TX_OPEN beyond the two of the literal contract (41_framing.md R140, 44_burst_transactions.md
R190): one for a data-line reset, one for a settle delay. -/
def openExtra (cfg : Cfg) : Nat :=
  (if cfg.dataResetOrder = .none then 0 else 1) + (if cfg.settleDelay = 0 then 0 else 1)

end Sys2Proof.Machine
end

