-- ==== Sys2Proof/Safety.lean ====
section
/-! DEFINITION. What claims call a safe state: the invariant between operations of 10_state.md R33, an idle
engine (10_state.md R26, R28), a host that asks for host operations only (30_encoding.md R100), and the three ways
an operation ends. -/

namespace Sys2Proof.Machine

/-- The table of 10_state.md R33: the state of the lines for each driver state, between operations. -/
def linesAtRest (s : State) : Prop :=
  s.tx = .idle ∧
  match s.drv with
  | .uninitialized =>
    s.pin.clkDir = .input ∧ s.pin.clkO = .low ∧ s.pin.ceDir = .input ∧ s.pin.ceO = .low ∧ s.pin.ioDir = .input ∧
      s.pin.ioPull = .none
  | .ready =>
    s.pin.clkDir = .output ∧ s.pin.clkO = .low ∧ s.pin.ceDir = .output ∧ s.pin.ceO = .low ∧ s.pin.ioDir = .input ∧
      s.pin.ioPull = s.cfg.ioPull
  | .closed => s.pin.clkDir = .input ∧ s.pin.ceDir = .input ∧ s.pin.ioDir = .input ∧ s.pin.ioPull = .none

/-- No operation is in progress (10_state.md R26, R28). -/
def engineIdle (s : State) : Prop := s.status.busy = false ∧ s.seq = .idle

/-- Nothing but host operations can run: no test bench is at the port, so that requests of the other formats are
refused, or there are none (30_encoding.md R100, R112; 40_pin_primitives.md R130). -/
def hostOnly (s : State) : Prop := s.port.direct = false ∨ ∀ r ∈ s.port.requests, r.format = .h

/-- An error response with the code and the information word given: `status`, the response and the idle sequencer,
nothing else (60_exceptions.md R230, R231). -/
def failedWith (err : BitVec 3) (info : BitVec 8) (s : State) : State :=
  { s with
    status := { busy := false, err := err, info := info }
    seq := .idle
    resp := some { err := err, info := info, value := .none } }

/-- The error response of an error of the engine, by its numbers (60_exceptions.md R221). -/
abbrev refusedWith (e : EngineError) (s : State) : State := failedWith e.code e.info s

/-- The response of a host operation that succeeded (60_exceptions.md R232). -/
def finishedWith (v : Value) (s : State) : State :=
  { s with
    status := { busy := false, err := 0, info := 0 }
    seq := .idle
    resp := some { err := 0, info := 0, value := v } }

/-- The result of an operation of format W, U or P asked for by itself (log entry 9). -/
def answeredWith (v : Value) (s : State) : State :=
  { s with seq := .idle, resp := some { err := 0, info := 0, value := v } }

/-- The engine part of the state, S of 10_state.md R20, without the registers R50 leaves unspecified, is at the
values of R50. -/
def atReset (s : State) : Prop :=
  s.drv = .uninitialized ∧ s.tx = .idle ∧
  s.pin = { clkDir := .input, clkO := .low, ceDir := .input, ceO := .low, ioDir := .input, ioO := .low,
            ioPull := .none } ∧
  s.cfg.clkDelay = 10 ∧ s.cfg.settleDelay = 0 ∧ s.cfg.dataResetOrder = .none ∧ s.cfg.ioPull = .none ∧
  s.status = { busy := false, err := 0, info := 0 } ∧ s.seq.op = none

/-- The reference peripheral waiting for a frame: CE and CLK seen Low, nothing active (20_memory.md R82). -/
def Periph.waiting (p : Periph) : Prop := p.ce = .low ∧ p.clk = .low ∧ p.active = false

end Sys2Proof.Machine
end

