-- ==== Sys2Proof/Certificates/Slice0/Obligations.lean ====
section
/-! DEFINITION. The statements for the provers. Each says which rule of spec/ it formalises. -/

open Sys2Proof Sys2Proof.Machine

/-! ## Reset and the step -/

/-- The reset values of 10_state.md R50, every row the spec gives a value. -/
def Obligations.ResetState : Prop :=
  atReset State.reset ∧ State.reset.port.requests = []

/-- 70_reset_and_hazards.md R260: the reset input puts any state at the table of R50; the environment is not
touched, no response is given, and without a request the engine then stays there. The port's own form (`resetIn`) is
the model's (log entry 17). -/
def Obligations.ResetInput : Prop :=
  ∀ s : State, s.port.resetIn = some 0 →
    ∃ t, step s = .next t ∧ atReset t ∧ t.resp = none ∧ t.env = s.env ∧
      t.port = { s.port with resetIn := none } ∧ (t.port.requests = [] → step t = .next t)

/-- 70_reset_and_hazards.md R261: an operation that emits more than `k` events, with reset asserted after `k` of
them, is abandoned: no response, the engine at the table of R50, and in the trace the first `k` events of the operation
and no more. The form of the port is the model's (log entries 9, 17). -/
def Obligations.ResetDuringOperation : Prop :=
  ∀ (s t : State) (r : Request) (rest : List Request) (i : Instr) (extra : List Byte) (k : Nat),
    s.port.resetIn = some (k + 1) → s.idle = true → s.port.requests = r :: rest →
    r.format = .h ∨ s.port.direct = true → decode r.format r.bytes = .ok (i, extra) →
    exec i { s with port := { s.port with requests := rest } } = .next t →
    s.env.trace.length + (k + 1) < t.env.trace.length →
    ∃ u, step s = .next u ∧ atReset u ∧ u.resp = none ∧ u.port = { s.port with requests := rest, resetIn := none } ∧
      u.env.trace = s.env.trace ++ (eventsBetween s t).take (k + 1) ∧
      u.env.trace.length = s.env.trace.length + (k + 1)

/-- 30_encoding.md R111, 45_driver_operations.md R209: an idle engine with no reset pending accepts the next
request, and the step is the operation its bytes decode to, run to its response. From the host that is a request of
format H; the other formats are the test bench's (R112; log entry 9). -/
def Obligations.StepRunsRequest : Prop :=
  ∀ (s : State) (r : Request) (rest : List Request) (i : Instr) (extra : List Byte),
    s.port.resetIn = none → s.status.busy = false → s.seq.op = none → s.port.requests = r :: rest →
    r.format = .h ∨ s.port.direct = true → decode r.format r.bytes = .ok (i, extra) →
    step s = exec i { s with port := { s.port with requests := rest } }

/-- 30_encoding.md R113(a), 60_exceptions.md R221, R224(d): host codes 0 and 7 are answered with UsageError(IllegalOp),
error 3, information word 4, no event, no state change. A request of another format than H from the host is refused
(R112, 40_pin_primitives.md R130; log entry 9), and every other code that names no operation is refused by its reason
(93 U6, U14). -/
def Obligations.StepRejectsUnassigned : Prop :=
  ∀ (s : State) (f : Format) (c : Byte) (l : List Byte) (rest : List Request),
    s.port.resetIn = none → s.status.busy = false → s.seq.op = none →
    s.port.requests = { format := f, bytes := c :: l } :: rest →
    (f = .h → c = 0 ∨ c = 7 →
      step s = .next (failedWith 3 4 { s with port := { s.port with requests := rest } })) ∧
    (f = .h → 7 < c.toNat → step s = .refused (.undecodable .hostCodeTooWide)) ∧
    (f ≠ .h → s.port.direct = false → step s = .refused .notForTheHost) ∧
    (s.port.direct = true →
      (f = .w → c ∉ [0x8E, 0x90, 0xBE, 0xBF, 0xFE, 0xFF] → step s = .refused (.undecodable .unknownCommandByte)) ∧
      (f = .u → 12 ≤ c.toNat → step s = .refused (.undecodable .unassignedMicroOperation)) ∧
      (f = .p → 5 ≤ c.toNat → step s = .refused (.undecodable .unassignedPinEvent)))

/-- 45_driver_operations.md R209, 30_encoding.md R111: a request presented while an operation runs is not accepted
and has no effect; an engine without a request waits. That a state with an operation in progress stays as it is is
the model's reading (log entry 20). -/
def Obligations.StepWaits : Prop :=
  ∀ s : State, s.port.resetIn ≠ some 0 →
    (s.status.busy = true ∨ s.seq.op ≠ none → step s = .next s) ∧ (s.port.requests = [] → step s = .next s)

/-! ## Encoding -/

/-- Words of each format, written out from 30_encoding.md R101, R110, R111, R112, decode to their operations. The
byte layout is the model's (log entry 2); a pin identifier above 127 takes a second byte (log entry 5). -/
def Obligations.WordsDecode : Prop :=
  decode .h [1, 11, 13, 15, 10, 0, 0, 1, 2, 1] = .ok (.init 11 13 15 10 256 .afterCe .pullUp, []) ∧
  decode .h [1, 0xAC, 2, 13, 15, 0, 0, 0, 0, 0, 0] = .ok (.init 300 13 15 0 0 .none .none, []) ∧
  decode .h [3, 0xE8, 0x07, 3, 15, 10, 30, 0] = .ok (.writeDatetime 2024 3 15 10 30 0, []) ∧
  decode .h [6] = .ok (.close, []) ∧
  decode .w [0xBF] = .ok (.cmdClkRd, []) ∧
  decode .u [0] = .ok (.txOpen, []) ∧
  decode .u [1] = .ok (.txClose, []) ∧
  decode .u [9, 0x8E, 0x00] = .ok (.regWrite 0x8E 0x00, []) ∧
  decode .p [0, 1, 0, 1] = .ok (.dir .io .input .pullUp, []) ∧
  decode .p [3, 0xFF, 0xFF] = .ok (.dly 65535, [])

/-- Decoding inverts encoding for every well-formed operation, whatever follows it: no bit of an operand is
dropped (30_encoding.md R109 to R112 give the ports; the layout is the model's, log entry 2). -/
def Obligations.DecodeEncode : Prop :=
  ∀ (i : Instr) (rest : List Byte), i.wellFormed = true → decode i.format (encode i ++ rest) = .ok (i, rest)

/-- What decodes is a well-formed operation of the format asked for, and its bytes are its encoding; the one other
spelling is `data_reset_order` 3, "unassigned and treated as NONE" (30_encoding.md R111). -/
def Obligations.DecodeSound : Prop :=
  ∀ (f : Format) (bytes : List Byte) (i : Instr) (rest : List Byte), decode f bytes = .ok (i, rest) →
    i.format = f ∧ i.wellFormed = true ∧
    (bytes = encode i ++ rest ∨
      ∃ clkId ioId ceId clkDelay settleDelay pull, i = .init clkId ioId ceId clkDelay settleDelay .none pull ∧
        bytes = [1] ++ Encode.ident clkId ++ Encode.ident ioId ++ Encode.ident ceId ++ Encode.word clkDelay ++
          Encode.word settleDelay ++ [3] ++ Encode.pull pull ++ rest)

/-! ## Pin events -/

/-- 40_pin_primitives.md R131, R135: DIR sets the direction of its pin and, for IO, the pull; REL makes the pin an
input and takes IO's pull away. The latches and everything else stand; one event enters the trace. -/
def Obligations.PinDirectionEvents : Prop :=
  ∀ (m : PinMode) (u : Pull) (s : State),
    exec (.dir .clk m u) s = .next (answeredWith .none { s with
      pin := { s.pin with clkDir := m }, env := { s.env with trace := s.env.trace ++ [.dir .clk m u] } }) ∧
    exec (.dir .ce m u) s = .next (answeredWith .none { s with
      pin := { s.pin with ceDir := m }, env := { s.env with trace := s.env.trace ++ [.dir .ce m u] } }) ∧
    exec (.dir .io m u) s = .next (answeredWith .none { s with
      pin := { s.pin with ioDir := m, ioPull := u }
      env := { s.env with trace := s.env.trace ++ [.dir .io m u] } }) ∧
    exec (.rel .clk) s = .next (answeredWith .none { s with
      pin := { s.pin with clkDir := .input }, env := { s.env with trace := s.env.trace ++ [.rel .clk] } }) ∧
    exec (.rel .ce) s = .next (answeredWith .none { s with
      pin := { s.pin with ceDir := .input }, env := { s.env with trace := s.env.trace ++ [.rel .ce] } }) ∧
    exec (.rel .io) s = .next (answeredWith .none { s with
      pin := { s.pin with ioDir := .input, ioPull := .none }
      env := { s.env with trace := s.env.trace ++ [.rel .io] } })

/-- 40_pin_primitives.md R132: WR sets the latch of its pin and nothing else of the engine; the environment is the one
that has seen the event with the latch set, and with no peripheral the trace is all it keeps. -/
def Obligations.PinWriteEvents : Prop :=
  ∀ (p : Pin) (l : Level) (s : State),
    let pin : PinRegs := match p with
      | .clk => { s.pin with clkO := l }
      | .io => { s.pin with ioO := l }
      | .ce => { s.pin with ceO := l }
    exec (.wr p l) s = .next (answeredWith .none { s with pin := pin, env := s.env.see pin (.wr p l) }) ∧
    (s.env.see pin (.wr p l)).trace = s.env.trace ++ [.wr p l] ∧
    (s.env.see pin (.wr p l)).validPins = s.env.validPins ∧
    (s.env.periph = none ∨ p = .io → s.env.see pin (.wr p l) = { s.env with trace := s.env.trace ++ [.wr p l] })

/-- 40_pin_primitives.md R133, 20_memory.md R75, R89: RD changes no pin; the level is whatever the environment
answers, and is the result. With no peripheral it is the next level the environment has fixed, where it has fixed
one; with the reference peripheral driving IO it is that level. -/
def Obligations.PinReadEvents : Prop :=
  ∀ (p : Pin) (s : State),
    ∃ (l : Level) (e : Env), e.trace = s.env.trace ++ [.rd p l] ∧ e.validPins = s.env.validPins ∧
      e.periph = s.env.periph ∧
      (∀ a rest, s.env.periph = none → s.env.answers = a :: rest →
        l = a ∧ e = { s.env with trace := s.env.trace ++ [.rd p a], answers := rest }) ∧
      (∀ q a, p = .io → s.env.periph = some q → q.out = some a →
        l = a ∧ e = { s.env with trace := s.env.trace ++ [.rd p a] }) ∧
      exec (.rd p) s = .next (answeredWith (.level l) { s with env := e })

/-- 40_pin_primitives.md R134: DLY has no effect on any state; it stands in the trace. -/
def Obligations.PinDelayEvent : Prop :=
  ∀ (d : BitVec 16) (s : State),
    exec (.dly d) s =
      .next (answeredWith .none { s with env := { s.env with trace := s.env.trace ++ [.dly d] } })

/-! ## Framing -/

/-- 41_framing.md R140: TX_OPEN from Idle emits its events, in the rule's order, and opens the window; the driver state,
the configuration, the data registers and the buffers stand (`status` and the answer: OperationsAskedForByThemselves).
From Open it raises UsageError(NestedOpen), error 3, information word 2 (60_exceptions.md R221), with no event. -/
def Obligations.TxOpen : Prop :=
  ∀ s : State,
    (s.tx = .idle →
      ∃ t, exec .txOpen s = .next t ∧ t.tx = .opened ∧
        t.pin =
          { s.pin with
            clkO := .low
            ceO := .high
            ioDir := if s.cfg.dataResetOrder = .none then s.pin.ioDir else .input
            ioPull := if s.cfg.dataResetOrder = .none then s.pin.ioPull else s.cfg.ioPull } ∧
        t.env = s.env.seeAll s.pin
          ([.wr .clk .low] ++ (if s.cfg.dataResetOrder = .beforeCe then [.dir .io .input s.cfg.ioPull] else []) ++
            [.wr .ce .high] ++ (if s.cfg.dataResetOrder = .afterCe then [.dir .io .input s.cfg.ioPull] else []) ++
            (if s.cfg.settleDelay = 0 then [] else [.dly s.cfg.settleDelay])) ∧
        t.drv = s.drv ∧ t.cfg = s.cfg ∧ t.x = s.x ∧ t.buf = s.buf) ∧
    (s.tx = .opened → exec .txOpen s = .next (failedWith 3 2 s))

/-- 41_framing.md R143: TX_CLOSE from any state emits its three events in order and leaves the lines idle; the driver
state, the configuration, the data registers and the buffers stand (`status` and the answer:
OperationsAskedForByThemselves). -/
def Obligations.TxClose : Prop :=
  ∀ s : State,
    ∃ t, exec .txClose s = .next t ∧ t.tx = .idle ∧
      t.pin = { s.pin with ioDir := .input, ioPull := s.cfg.ioPull, clkO := .low, ceO := .low } ∧
      t.env = s.env.seeAll s.pin [.dir .io .input s.cfg.ioPull, .wr .clk .low, .wr .ce .low] ∧
      t.drv = s.drv ∧ t.cfg = s.cfg ∧ t.x = s.x ∧ t.buf = s.buf

/-! ## The byte shifter -/

/-- 42_byte_shift.md R150: WRITE_BYTE in an open transaction emits the 41 events of its byte, bit 0 first, and leaves
the pins and x[SR], x[BC] as the rule says; in Idle it raises UsageError(TransferWhileIdle), error 3, information word 3
(60_exceptions.md R221), with no event. -/
def Obligations.WriteByte : Prop :=
  ∀ (v : Byte) (s : State),
    (s.tx = .opened →
      exec (.writeByte v) s = .next (answeredWith .none { s with
        pin := { s.pin with ioDir := .output, ioPull := .none, clkO := .high, ioO := lvl (v.getLsbD 7) }
        env := s.env.seeAll s.pin
          (.dir .io .output .none ::
            ([0, 1, 2, 3, 4, 5, 6, 7].flatMap fun i =>
              [.wr .clk .low, .dly s.cfg.clkDelay, .wr .io (lvl (v.getLsbD i)), .wr .clk .high,
                .dly s.cfg.clkDelay]))
        x := { s.x with sr := 0, bc := 8 } })) ∧
    (s.tx = .idle → exec (.writeByte v) s = .next (failedWith 3 3 s))

/-- 42_byte_shift.md R155: the levels of IO at the eight `WR(CLK, High)` events of WRITE_BYTE are the bits of the
byte, least significant first. -/
def Obligations.WriteByteRoundTrip : Prop :=
  ∀ (v : Byte) (s t : State), s.tx = .opened → exec (.writeByte v) s = .next t →
    ∃ l0 l1 l2 l3 l4 l5 l6 l7 : Level,
      ioAtClkHigh s.pin (eventsBetween s t) = [l0, l1, l2, l3, l4, l5, l6, l7] ∧
      v.toNat =
        (bit l0).toNat * 1 + (bit l1).toNat * 2 + (bit l2).toNat * 4 + (bit l3).toNat * 8 + (bit l4).toNat * 16 +
          (bit l5).toNat * 32 + (bit l6).toNat * 64 + (bit l7).toNat * 128

/-- 42_byte_shift.md R152: READ_BYTE in an open transaction emits the 41 events of the byte it returns, whose bits
are the levels it sampled; the byte is the environment's to choose, and is the one it has fixed where it has fixed
one (R155). In Idle it raises UsageError(TransferWhileIdle) with no event. -/
def Obligations.ReadByte : Prop :=
  ∀ s : State,
    (s.tx = .opened →
      ∃ (v : Byte) (e : Env),
        e.trace = s.env.trace ++
          (.dir .io .input s.cfg.ioPull ::
            ([0, 1, 2, 3, 4, 5, 6, 7].flatMap fun i =>
              [.wr .clk .high, .dly s.cfg.clkDelay, .wr .clk .low, .dly s.cfg.clkDelay,
                .rd .io (lvl (v.getLsbD i))])) ∧
        e.validPins = s.env.validPins ∧
        (∀ w rest, s.env.periph = none → s.env.answers = byteLevels w ++ rest →
          v = w ∧ e.answers = rest ∧ e.drawn = s.env.drawn) ∧
        exec .readByte s = .next (answeredWith (.byte v) { s with
          pin := { s.pin with ioDir := .input, ioPull := s.cfg.ioPull, clkO := .low }
          env := e
          x := { s.x with sr := v, bc := 8 } })) ∧
    (s.tx = .idle → exec .readByte s = .next (failedWith 3 3 s))

/-! ## The BCD register codec -/

/-- 43_bcd_codec.md R160: BCD_PACK, format U code 4, of 0 to 99 puts the quotient by 10 in the tens nibble and the
remainder in the units nibble, and writes no state. The layout of the request, the answer, and the refusal above 99,
where the rule does not define it, are the model's (log entries 2, 9, 13). -/
def Obligations.BcdPack : Prop :=
  ∀ (v : BitVec 7) (s : State),
    (v.toNat ≤ 99 → ∀ rest, decode .u (4 :: v.setWidth 8 :: rest) = .ok (.bcdPack v, rest)) ∧
    (v.toNat ≤ 99 →
      ∃ (t : State) (b : Byte), exec (.bcdPack v) s = .next t ∧
        t.resp = some { err := 0, info := 0, value := .byte b } ∧
        (b >>> 4).toNat = v.toNat / 10 ∧ (b &&& 0x0f).toNat = v.toNat % 10 ∧
        t.drv = s.drv ∧ t.tx = s.tx ∧ t.pin = s.pin ∧ t.cfg = s.cfg ∧ t.x = s.x ∧ t.buf = s.buf ∧ t.env = s.env) ∧
    (99 < v.toNat → exec (.bcdPack v) s = .refused .packOutsideDomain)

/-- 43_bcd_codec.md R161: BCD_UNPACK, format U code 5, gives the two masked nibbles and writes no state, and bits
outside `tens_mask | 0x0f` do not affect the result. The rule has four masks; that every mask byte is taken, the layout
of the request and the answer are the model's (log entries 2, 9, 14). -/
def Obligations.BcdUnpack : Prop :=
  ∀ (b m : Byte) (s : State),
    (∀ rest, decode .u (5 :: b :: m :: rest) = .ok (.bcdUnpack b m, rest)) ∧
    (∃ (t : State) (tens units : BitVec 4), exec (.bcdUnpack b m) s = .next t ∧
      t.resp = some { err := 0, info := 0, value := .digits tens units } ∧
      tens.toNat = ((b &&& m) >>> 4).toNat ∧ units.toNat = (b &&& 0x0f).toNat ∧
      t.drv = s.drv ∧ t.tx = s.tx ∧ t.pin = s.pin ∧ t.cfg = s.cfg ∧ t.x = s.x ∧ t.buf = s.buf ∧ t.env = s.env) ∧
    ∀ b' : Byte, b' &&& (m ||| 0x0f) = b &&& (m ||| 0x0f) → exec (.bcdUnpack b' m) s = exec (.bcdUnpack b m) s

/-- 43_bcd_codec.md R162, R163: DOW of a valid date, by the rule's own formula, with the month lengths and the leap rule
of R162 written out; on a date that is not valid it is not defined (93 U15) and the model refuses (log entry 13). -/
def Obligations.DowFormula : Prop :=
  ∀ (y : BitVec 12) (m : BitVec 4) (d : BitVec 5) (s : State),
    let days :=
      if m = 2 then (if (y.toNat - 2000) % 4 = 0 then 29 else 28)
      else if m = 4 ∨ m = 6 ∨ m = 9 ∨ m = 11 then 30 else 31
    let valid :=
      2000 ≤ y.toNat ∧ y.toNat ≤ 2099 ∧ 1 ≤ m.toNat ∧ m.toNat ≤ 12 ∧ 1 ≤ d.toNat ∧ d.toNat ≤ days
    (valid →
      ∃ w : BitVec 3, exec (.dow y m d) s = .next (answeredWith (.weekday w) s) ∧
        w.toNat =
          (5 + (365 * (y.toNat - 2000) + (y.toNat - 2000 + 3) / 4 +
            ([0, 31, 59, 90, 120, 151, 181, 212, 243, 273, 304, 334].getD (m.toNat - 1) 0 +
              if (y.toNat - 2000) % 4 = 0 ∧ 3 ≤ m.toNat then 1 else 0) + (d.toNat - 1))) % 7) ∧
    (¬ valid → exec (.dow y m d) s = .refused .dateOutsideDomain)

/-- 43_bcd_codec.md R162, R163: the months have the lengths of the table of R162, and the weekdays run on through the
days, the months and the years, from Saturday 2000-01-01 (Monday = 0). -/
def Obligations.DowRunsOn : Prop :=
  (∀ y m : Nat, 2000 ≤ y → y ≤ 2099 → 1 ≤ m → m ≤ 12 →
    daysInMonth y m =
      if m = 2 then (if (y - 2000) % 4 = 0 then 29 else 28)
      else if m = 4 ∨ m = 6 ∨ m = 9 ∨ m = 11 then 30 else 31) ∧
  dayOfWeek 2000 1 1 = 5 ∧
  ∀ y m d : Nat, dateValid y m d = true →
    (d < daysInMonth y m → dayOfWeek y m (d + 1) = (dayOfWeek y m d + 1) % 7) ∧
    (d = daysInMonth y m → m < 12 → dayOfWeek y (m + 1) 1 = (dayOfWeek y m d + 1) % 7) ∧
    (d = daysInMonth y m → m = 12 → y < 2099 → dayOfWeek (y + 1) 1 1 = (dayOfWeek y m d + 1) % 7)

/-- 43_bcd_codec.md R164: BCD_ENCODE of fields within the bounds of R165 writes the seven bytes of IMG and CAL,
changes nothing else and emits nothing. That all of CAL is written is the model's reading (log entry 12). -/
def Obligations.BcdEncode : Prop :=
  ∀ (y : BitVec 12) (mo : BitVec 4) (d h : BitVec 5) (mi sec : BitVec 6) (s : State),
    2000 ≤ y.toNat → y.toNat ≤ 2099 → 1 ≤ mo.toNat → mo.toNat ≤ 12 → 1 ≤ d.toNat →
    d.toNat ≤ daysInMonth y.toNat mo.toNat → h.toNat ≤ 23 → mi.toNat ≤ 59 → sec.toNat ≤ 59 →
    ∃ (img : Vector Byte 7) (w : BitVec 3),
      img.toList.map (fun b : Byte => b.toNat) =
        [sec.toNat / 10 * 16 + sec.toNat % 10, mi.toNat / 10 * 16 + mi.toNat % 10,
          h.toNat / 10 * 16 + h.toNat % 10, d.toNat / 10 * 16 + d.toNat % 10,
          mo.toNat / 10 * 16 + mo.toNat % 10, dayOfWeek y.toNat mo.toNat d.toNat,
          (y.toNat - 2000) / 10 * 16 + (y.toNat - 2000) % 10] ∧
      w.toNat = dayOfWeek y.toNat mo.toNat d.toNat ∧
      exec (.bcdEncode y mo d h mi sec) s = .next (answeredWith (.image img) { s with
        buf :=
          { s.buf with
            img := img
            cal := { year := y, month := mo, day := d, hour := h, minute := mi, second := sec, weekday := w } } })

/-- 43_bcd_codec.md R165, 60_exceptions.md R221: the first bound that fails, in the rule's order, is the RangeError
raised, error 2 with the field's information word, before anything is written. -/
def Obligations.BcdEncodeRangeError : Prop :=
  ∀ (y : BitVec 12) (mo : BitVec 4) (d h : BitVec 5) (mi sec : BitVec 6) (s : State),
    let yearOk := 2000 ≤ y.toNat ∧ y.toNat ≤ 2099
    let monthOk := 1 ≤ mo.toNat ∧ mo.toNat ≤ 12
    let dayOk := 1 ≤ d.toNat ∧ d.toNat ≤ daysInMonth y.toNat mo.toNat
    let raises := fun info : BitVec 8 => exec (.bcdEncode y mo d h mi sec) s = .next (failedWith 2 info s)
    (¬ yearOk → raises 1) ∧
    (yearOk → ¬ monthOk → raises 2) ∧
    (yearOk → monthOk → ¬ dayOk → raises 3) ∧
    (yearOk → monthOk → dayOk → 23 < h.toNat → raises 4) ∧
    (yearOk → monthOk → dayOk → h.toNat ≤ 23 → 59 < mi.toNat → raises 5) ∧
    (yearOk → monthOk → dayOk → h.toNat ≤ 23 → mi.toNat ≤ 59 → 59 < sec.toNat → raises 6)

/-- 43_bcd_codec.md R166: BCD_DECODE of an image whose masked nibbles are digits and whose fields are in range writes
CAL with the decoded fields and the weekday computed from the date, and nothing else. -/
def Obligations.BcdDecode : Prop :=
  ∀ (img : Vector Byte 7) (s : State),
    let value := fun (k : Fin 7) (mask : Byte) => ((img[k] &&& mask) >>> 4).toNat * 10 + (img[k] &&& 0x0f).toNat
    let digits := fun (k : Fin 7) (mask : Byte) => ((img[k] &&& mask) >>> 4).toNat ≤ 9 ∧ (img[k] &&& 0x0f).toNat ≤ 9
    digits 0 0x70 → digits 1 0x70 → digits 2 0x30 → digits 3 0x30 → digits 4 0x10 → digits 6 0xf0 →
    value 0 0x70 ≤ 59 → value 1 0x70 ≤ 59 → value 2 0x30 ≤ 23 → 1 ≤ value 4 0x10 → value 4 0x10 ≤ 12 →
    1 ≤ value 3 0x30 → value 3 0x30 ≤ daysInMonth (value 6 0xf0 + 2000) (value 4 0x10) →
    ∃ c : Calendar,
      exec (.bcdDecode img) s = .next (answeredWith (.calendar c) { s with buf := { s.buf with cal := c } }) ∧
      c.second.toNat = value 0 0x70 ∧ c.minute.toNat = value 1 0x70 ∧ c.hour.toNat = value 2 0x30 ∧
      c.day.toNat = value 3 0x30 ∧ c.month.toNat = value 4 0x10 ∧ c.year.toNat = value 6 0xf0 + 2000 ∧
      c.weekday.toNat = dayOfWeek (value 6 0xf0 + 2000) (value 4 0x10) (value 3 0x30)

/-- 43_bcd_codec.md R166: the lowest decoded index, in the order 0, 1, 2, 3, 4, 6, whose masked nibbles are not both
digits is reported by MalformedRegisterError(0x00 | idx), before any range check; nothing is written. -/
def Obligations.BcdDecodeDigitError : Prop :=
  ∀ (img : Vector Byte 7) (s : State),
    let digits := fun (k : Fin 7) (mask : Byte) => ((img[k] &&& mask) >>> 4).toNat ≤ 9 ∧ (img[k] &&& 0x0f).toNat ≤ 9
    let raises := fun info : BitVec 8 =>
      exec (.bcdDecode img) s = .next { s with
        status := { busy := false, err := 4, info := info }, seq := .idle
        resp := some { err := 4, info := info, value := .none } }
    (¬ digits 0 0x70 → raises 0x00) ∧
    (digits 0 0x70 → ¬ digits 1 0x70 → raises 0x01) ∧
    (digits 0 0x70 → digits 1 0x70 → ¬ digits 2 0x30 → raises 0x02) ∧
    (digits 0 0x70 → digits 1 0x70 → digits 2 0x30 → ¬ digits 3 0x30 → raises 0x03) ∧
    (digits 0 0x70 → digits 1 0x70 → digits 2 0x30 → digits 3 0x30 → ¬ digits 4 0x10 → raises 0x04) ∧
    (digits 0 0x70 → digits 1 0x70 → digits 2 0x30 → digits 3 0x30 → digits 4 0x10 → ¬ digits 6 0xf0 →
      raises 0x06)

/-- 43_bcd_codec.md R167: with all digits valid, the first range that fails, in the order second, minute, hour,
month, day, is reported by MalformedRegisterError(0x10 | idx); nothing is written. -/
def Obligations.BcdDecodeRangeError : Prop :=
  ∀ (img : Vector Byte 7) (s : State),
    let value := fun (k : Fin 7) (mask : Byte) => ((img[k] &&& mask) >>> 4).toNat * 10 + (img[k] &&& 0x0f).toNat
    let digits := fun (k : Fin 7) (mask : Byte) => ((img[k] &&& mask) >>> 4).toNat ≤ 9 ∧ (img[k] &&& 0x0f).toNat ≤ 9
    let monthOk := 1 ≤ value 4 0x10 ∧ value 4 0x10 ≤ 12
    let raises := fun info : BitVec 8 =>
      exec (.bcdDecode img) s = .next { s with
        status := { busy := false, err := 4, info := info }, seq := .idle
        resp := some { err := 4, info := info, value := .none } }
    digits 0 0x70 → digits 1 0x70 → digits 2 0x30 → digits 3 0x30 → digits 4 0x10 → digits 6 0xf0 →
    (59 < value 0 0x70 → raises 0x10) ∧
    (value 0 0x70 ≤ 59 → 59 < value 1 0x70 → raises 0x11) ∧
    (value 0 0x70 ≤ 59 → value 1 0x70 ≤ 59 → 23 < value 2 0x30 → raises 0x12) ∧
    (value 0 0x70 ≤ 59 → value 1 0x70 ≤ 59 → value 2 0x30 ≤ 23 → ¬ monthOk → raises 0x14) ∧
    (value 0 0x70 ≤ 59 → value 1 0x70 ≤ 59 → value 2 0x30 ≤ 23 → monthOk →
      ¬ (1 ≤ value 3 0x30 ∧ value 3 0x30 ≤ daysInMonth (value 6 0xf0 + 2000) (value 4 0x10)) → raises 0x13)

/-- 43_bcd_codec.md R168: BCD_DECODE of the image BCD_ENCODE has built gives the six fields back, and the weekday of
their date. That the decoded calendar is the answer (log entry 9), and that CAL holds it already after BCD_ENCODE (log
entry 12), are the model's. -/
def Obligations.CodecRoundTrip : Prop :=
  ∀ (y : BitVec 12) (mo : BitVec 4) (d h : BitVec 5) (mi sec : BitVec 6) (s : State),
    2000 ≤ y.toNat → y.toNat ≤ 2099 → 1 ≤ mo.toNat → mo.toNat ≤ 12 → 1 ≤ d.toNat →
    d.toNat ≤ daysInMonth y.toNat mo.toNat → h.toNat ≤ 23 → mi.toNat ≤ 59 → sec.toNat ≤ 59 →
    ∃ (t : State) (w : BitVec 3), exec (.bcdEncode y mo d h mi sec) s = .next t ∧
      w.toNat = dayOfWeek y.toNat mo.toNat d.toNat ∧
      exec (.bcdDecode t.buf.img) t = .next (answeredWith
        (.calendar { year := y, month := mo, day := d, hour := h, minute := mi, second := sec, weekday := w }) t)

/-- 30_encoding.md R105, R107: the image BCD_ENCODE leaves in IMG when it succeeds lies inside the masks of its fields.
That this image is the answer too is the model's (log entry 9). -/
def Obligations.EncodedBytesInsideMasks : Prop :=
  ∀ (y : BitVec 12) (mo : BitVec 4) (d h : BitVec 5) (mi sec : BitVec 6) (s t : State) (r : Response),
    exec (.bcdEncode y mo d h mi sec) s = .next t → t.resp = some r → r.err = 0 →
    r.value = .image t.buf.img ∧
      t.buf.img[0] &&& 0x80 = 0 ∧ t.buf.img[1] &&& 0x80 = 0 ∧ t.buf.img[2] &&& 0xC0 = 0 ∧
      t.buf.img[3] &&& 0xC0 = 0 ∧ t.buf.img[4] &&& 0xE0 = 0 ∧ t.buf.img[5].toNat ≤ 6 ∧ t.buf.img[6].toNat ≤ 0x99

/-- 30_encoding.md R105, 43_bcd_codec.md R166: images that agree inside the masks decode alike; in particular byte 5
is "ignored on decode". -/
def Obligations.DecodeIgnoresOutsideMasks : Prop :=
  ∀ (a b : Vector Byte 7) (s : State),
    a[0] &&& 0x7F = b[0] &&& 0x7F → a[1] &&& 0x7F = b[1] &&& 0x7F → a[2] &&& 0x3F = b[2] &&& 0x3F →
    a[3] &&& 0x3F = b[3] &&& 0x3F → a[4] &&& 0x1F = b[4] &&& 0x1F → a[6] = b[6] →
    exec (.bcdDecode a) s = exec (.bcdDecode b) s

/-! ## Transactions -/

/-- 44_burst_transactions.md R181: REG_WRITE is one write frame of one data byte; from Open it raises
UsageError(NestedOpen) and emits nothing. Every command byte and value: the model's choice (log entry 25). -/
def Obligations.RegWrite : Prop :=
  ∀ (c v : Byte) (s : State),
    (s.tx = .idle → exec (.regWrite c v) s = .next (answeredWith .none (s.afterWriteFrame c [v]))) ∧
    (s.tx = .opened → exec (.regWrite c v) s = .next (failedWith 3 2 s))

/-- 44_burst_transactions.md R183: BURST_WRITE is one write frame of `n` data bytes, 0 to 31; from Open it raises
UsageError(NestedOpen) and emits nothing. Every command byte: the model's choice (log entry 25). -/
def Obligations.BurstWrite : Prop :=
  ∀ (c : Byte) (n : BitVec 5) (data : Vector Byte 31) (s : State),
    (s.tx = .idle →
      exec (.burstWrite c n data) s =
        .next (answeredWith .none (s.afterWriteFrame c (data.toList.take n.toNat)))) ∧
    (s.tx = .opened → exec (.burstWrite c n data) s = .next (failedWith 3 2 s))

/-- 44_burst_transactions.md R182: BURST_READ is one read frame; it returns the `n` bytes whose levels it sampled,
which are those the environment has fixed where it has fixed them (20_memory.md R75). From Open it raises
UsageError(NestedOpen) and emits nothing. Every command byte: the model's choice (log entry 25). -/
def Obligations.BurstRead : Prop :=
  ∀ (c : Byte) (n : BitVec 5) (s : State),
    (s.tx = .idle →
      ∃ (bytes : List Byte) (e : Env), bytes.length = n.toNat ∧
        e.trace = s.env.trace ++ readFrame s.cfg c bytes ∧ e.validPins = s.env.validPins ∧
        (∀ data rest, s.env.periph = none → data.length = n.toNat → s.env.answers = bytesLevels data ++ rest →
          bytes = data ∧ e.answers = rest ∧ e.drawn = s.env.drawn) ∧
        exec (.burstRead c n) s = .next (answeredWith (.bytes bytes) (s.afterReadFrame c bytes e))) ∧
    (s.tx = .opened → exec (.burstRead c n) s = .next (failedWith 3 2 s))

/-- 44_burst_transactions.md R184, R185: the two maintenance commands, and the bits they put on IO at the sixteen
`WR(CLK, High)` events. -/
def Obligations.MaintenanceCommands : Prop :=
  ∀ s : State,
    (s.tx = .idle →
      exec .cmdWp s = .next (answeredWith .none (s.afterWriteFrame 0x8E [0x00])) ∧
      exec .cmdTcs s = .next (answeredWith .none (s.afterWriteFrame 0x90 [0x00])) ∧
      ioAtClkHigh s.pin (writeFrame s.cfg 0x8E [0x00]) =
        [Level.low, Level.high, Level.high, Level.high, Level.low, Level.low, Level.low, Level.high] ++
          List.replicate 8 Level.low ∧
      ioAtClkHigh s.pin (writeFrame s.cfg 0x90 [0x00]) =
        [Level.low, Level.low, Level.low, Level.low, Level.high, Level.low, Level.low, Level.high] ++
          List.replicate 8 Level.low) ∧
    (s.tx = .opened →
      exec .cmdWp s = .next (failedWith 3 2 s) ∧
      exec .cmdTcs s = .next (failedWith 3 2 s))

/-- 44_burst_transactions.md R186, R188: the clock burst sends the seven bytes of IMG, the RAM burst the first
`min(n, 31)` bytes of RAMBUF. That the buffers are those of the engine when a command is asked for by itself is the
model's reading (log entry 10). -/
def Obligations.WriteCommands : Prop :=
  ∀ (len : BitVec 8) (s : State),
    (s.tx = .idle →
      exec .cmdClkWr s = .next (answeredWith .none (s.afterWriteFrame 0xBE s.buf.img.toList)) ∧
      exec (.cmdRamWr len) s =
        .next (answeredWith .none (s.afterWriteFrame 0xFE (s.buf.ram.toList.take (min len.toNat 31))))) ∧
    (s.tx = .opened →
      exec .cmdClkWr s = .next (failedWith 3 2 s) ∧
      exec (.cmdRamWr len) s = .next (failedWith 3 2 s))

/-- 44_burst_transactions.md R187, R189: the read clock burst returns 7 bytes into IMG, the read RAM burst 31 into
RAMBUF, the bytes whose levels they sampled, which are those the environment has fixed where it has fixed them
(20_memory.md R75). A command asked for by itself: log entry 10. -/
def Obligations.ReadCommands : Prop :=
  ∀ s : State,
    (s.tx = .idle →
      ∃ (img : Vector Byte 7) (ram : Vector Byte 31) (e f : Env),
        e.trace = s.env.trace ++ readFrame s.cfg 0xBF img.toList ∧ e.validPins = s.env.validPins ∧
        f.trace = s.env.trace ++ readFrame s.cfg 0xFF ram.toList ∧ f.validPins = s.env.validPins ∧
        (∀ (data : Vector Byte 7) rest, s.env.periph = none → s.env.answers = bytesLevels data.toList ++ rest →
          img = data ∧ e.answers = rest ∧ e.drawn = s.env.drawn) ∧
        (∀ (data : Vector Byte 31) rest, s.env.periph = none → s.env.answers = bytesLevels data.toList ++ rest →
          ram = data ∧ f.answers = rest ∧ f.drawn = s.env.drawn) ∧
        exec .cmdClkRd s = .next (answeredWith (.image img) { s.afterReadFrame 0xBF img.toList e with
          buf := { s.buf with img := img } }) ∧
        exec .cmdRamRd s = .next (answeredWith (.ram ram) { s.afterReadFrame 0xFF ram.toList f with
          buf := { s.buf with ram := ram } })) ∧
    (s.tx = .opened →
      exec .cmdClkRd s = .next (failedWith 3 2 s) ∧
      exec .cmdRamRd s = .next (failedWith 3 2 s))

/-- 20_memory.md R64, R65, 30_encoding.md R102: a write frame puts on IO, at the `WR(CLK, High)` events, the bits of
the command byte and then of the data bytes in ascending index, least significant bit first, and nothing else. -/
def Obligations.FrameBits : Prop :=
  ∀ (r : PinRegs) (cfg : Cfg) (c : Byte) (bytes : List Byte),
    ioAtClkHigh r (writeFrame cfg c bytes) =
      (c :: bytes).flatMap fun v =>
        [lvl (v.getLsbD 0), lvl (v.getLsbD 1), lvl (v.getLsbD 2), lvl (v.getLsbD 3), lvl (v.getLsbD 4),
          lvl (v.getLsbD 5), lvl (v.getLsbD 6), lvl (v.getLsbD 7)]

/-- 44_burst_transactions.md R190: the counts of a frame of `n` data bytes, from lines that idle with CLK driven Low
and CE Low. -/
def Obligations.FrameCounts : Prop :=
  ∀ (r : PinRegs) (cfg : Cfg) (c : Byte) (bytes : List Byte),
    r.clkDir = .output → r.clkO = .low → r.ceO = .low →
    let n := bytes.length
    let w := writeFrame cfg c bytes
    let d := readFrame cfg c bytes
    w.length = 46 + 41 * n + openExtra cfg ∧ d.length = 46 + 41 * n + openExtra cfg ∧
    w.count (.wr .clk .high) = 8 * (1 + n) ∧ d.count (.wr .clk .high) = 8 * (1 + n) ∧
    w.count (.wr .clk .low) = 8 * (1 + n) + 2 ∧ d.count (.wr .clk .low) = 8 * (1 + n) + 2 ∧
    countInFrame PinRegs.risingEdge r w = 8 * (1 + n) ∧
    countInFrame PinRegs.risingEdge r d = 8 * (1 + n) - (if n = 0 then 0 else 1) ∧
    countInFrame PinRegs.fallingEdge r w = 8 * (1 + n) ∧
    countInFrame PinRegs.fallingEdge r d = 8 * (1 + n) - (if n = 0 then 0 else 1) ∧
    (cfg.settleDelay = 0 → w.count (.dly cfg.clkDelay) = 16 * (1 + n) ∧ d.count (.dly cfg.clkDelay) = 16 * (1 + n)) ∧
    w.countP isDly = 16 * (1 + n) + (if cfg.settleDelay = 0 then 0 else 1) ∧
    d.countP isDly = 16 * (1 + n) + (if cfg.settleDelay = 0 then 0 else 1) ∧
    w.countP (isWr .io) = 8 * (1 + n) ∧
    d.countP (isWr .io) = 8 ∧
    w.countP isRd = 0 ∧ d.countP isRd = 8 * n ∧
    w.countP (isDir .io) = n + 2 + (if cfg.dataResetOrder = .none then 0 else 1) ∧
    d.countP (isDir .io) = n + 2 + (if cfg.dataResetOrder = .none then 0 else 1) ∧
    w.countP (isWr .ce) = 2 ∧ d.countP (isWr .ce) = 2

/-- What a wire command, micro-operation or pin event that was asked for by itself leaves alone when it succeeds:
`status`, the driver state, the configuration and the requests. No rule says how such an operation answers: this is
the model's choice (log entry 9). -/
def Obligations.OperationsAskedForByThemselves : Prop :=
  ∀ (i : Instr) (s t : State) (r : Response), i.format ≠ .h → exec i s = .next t → t.resp = some r → r.err = 0 →
    r.info = 0 ∧ t.status = s.status ∧ t.seq = .idle ∧ t.drv = s.drv ∧ t.cfg = s.cfg ∧ t.port = s.port

/-! ## Host operations -/

/-- 45_driver_operations.md R200: INIT of a fresh engine on three distinct valid pins latches the configuration,
drives CLK and CE Low, sends the two maintenance frames and makes the driver Ready. -/
def Obligations.InitCompletes : Prop :=
  ∀ (clkId ioId ceId : PinId) (clkDelay settleDelay : BitVec 16) (order : DataResetOrder) (pull : Pull) (s : State),
    s.drv = .uninitialized → s.tx = .idle → clkId ≠ ioId → clkId ≠ ceId → ioId ≠ ceId →
    clkId ∈ s.env.validPins → ioId ∈ s.env.validPins → ceId ∈ s.env.validPins →
    let cfg : Cfg :=
      { clkDelay, settleDelay, dataResetOrder := order, ioPull := pull, pins := { clkId, ioId, ceId } }
    exec (.init clkId ioId ceId clkDelay settleDelay order pull) s = .next (finishedWith .none { s with
      drv := .ready
      cfg := cfg
      pin :=
        { clkDir := .output, clkO := .low, ceDir := .output, ceO := .low, ioDir := .input, ioO := .low,
          ioPull := pull }
      env := s.env.seeAll s.pin
        ([.dir .clk .output .none, .wr .clk .low, .dir .ce .output .none, .wr .ce .low] ++
          writeFrame cfg 0x8E [0x00] ++ writeFrame cfg 0x90 [0x00])
      x := { sr := 0, bc := 8, bi := 1, bn := 1, cmd := 0x90 } })

/-- 60_exceptions.md R222: GpioAcquisitionError is raised by INIT when the pins are not pairwise distinct (info 1),
else when one is not valid (info 2), before any event; the driver stays Uninitialized. No other operation raises
it. -/
def Obligations.InitPinErrors : Prop :=
  (∀ (i : Instr) (s t : State) (r : Response), exec i s = .next t → t.resp = some r → r.err = 1 →
    s.drv = .uninitialized ∧ ∃ clkId ioId ceId clkDelay settleDelay order pull,
      i = .init clkId ioId ceId clkDelay settleDelay order pull) ∧
  ∀ (clkId ioId ceId : PinId) (clkDelay settleDelay : BitVec 16) (order : DataResetOrder) (pull : Pull) (s : State),
    s.drv = .uninitialized → s.tx = .idle →
    let distinct := clkId ≠ ioId ∧ clkId ≠ ceId ∧ ioId ≠ ceId
    let valid := clkId ∈ s.env.validPins ∧ ioId ∈ s.env.validPins ∧ ceId ∈ s.env.validPins
    let raises := fun info : BitVec 8 =>
      exec (.init clkId ioId ceId clkDelay settleDelay order pull) s = .next { s with
        status := { busy := false, err := 1, info := info }, seq := .idle
        resp := some { err := 1, info := info, value := .none } }
    (¬ distinct → raises 1) ∧ (distinct → ¬ valid → raises 2)

/-- 45_driver_operations.md R201, 60_exceptions.md R225, R231: READ_DATETIME runs one read clock burst into IMG, and
only then decodes: it answers the calendar and writes CAL, or, with the transaction complete, raises the
MalformedRegisterError that BCD_DECODE of that image raises, CAL unchanged. -/
def Obligations.ReadDatetime : Prop :=
  ∀ s : State, s.drv = .ready → s.tx = .idle →
    ∃ (img : Vector Byte 7) (e : Env),
      e.trace = s.env.trace ++ readFrame s.cfg 0xBF img.toList ∧ e.validPins = s.env.validPins ∧
      let t := { s.afterReadFrame 0xBF img.toList e with buf := { s.buf with img := img } }
      (∀ c, bcdDecode img = .ok c →
        exec .readDatetime s = .next (finishedWith (.calendar c) { t with buf := { t.buf with cal := c } })) ∧
      (∀ err, bcdDecode img = .error err → err.code = 4 ∧ exec .readDatetime s = .next (refusedWith err t))

/-- 45_driver_operations.md R201, 43_bcd_codec.md R168: with the levels of the image of an encodable date on the line
(20_memory.md R75), READ_DATETIME completes and answers that date with its weekday. -/
def Obligations.ReadDatetimeAnswersDate : Prop :=
  ∀ (y : BitVec 12) (mo : BitVec 4) (d h : BitVec 5) (mi sec : BitVec 6) (rest : List Level) (s : State),
    2000 ≤ y.toNat → y.toNat ≤ 2099 → 1 ≤ mo.toNat → mo.toNat ≤ 12 → 1 ≤ d.toNat →
    d.toNat ≤ daysInMonth y.toNat mo.toNat → h.toNat ≤ 23 → mi.toNat ≤ 59 → sec.toNat ≤ 59 →
    s.drv = .ready → s.tx = .idle → s.env.periph = none →
    let img := encodeImage y.toNat mo.toNat d.toNat h.toNat mi.toNat sec.toNat
    s.env.answers = bytesLevels img.toList ++ rest →
    ∃ w : BitVec 3, w.toNat = dayOfWeek y.toNat mo.toNat d.toNat ∧
      let c : Calendar := { year := y, month := mo, day := d, hour := h, minute := mi, second := sec, weekday := w }
      exec .readDatetime s = .next (finishedWith (.calendar c)
        { s.afterReadFrame 0xBF img.toList { s.env with
            trace := s.env.trace ++ readFrame s.cfg 0xBF img.toList, answers := rest } with
          buf := { s.buf with img := img, cal := c } })

/-- 45_driver_operations.md R202: WRITE_DATETIME of fields within the bounds of 43_bcd_codec.md R165 sends the image
BCD_ENCODE builds, in one write clock burst. That all of CAL is written is the model's reading (log entry 12). -/
def Obligations.WriteDatetime : Prop :=
  ∀ (y : BitVec 12) (mo : BitVec 4) (d h : BitVec 5) (mi sec : BitVec 6) (s : State),
    s.drv = .ready → s.tx = .idle → 2000 ≤ y.toNat → y.toNat ≤ 2099 → 1 ≤ mo.toNat → mo.toNat ≤ 12 →
    1 ≤ d.toNat → d.toNat ≤ daysInMonth y.toNat mo.toNat → h.toNat ≤ 23 → mi.toNat ≤ 59 → sec.toNat ≤ 59 →
    ∃ (img : Vector Byte 7) (w : BitVec 3),
      img.toList.map (fun b : Byte => b.toNat) =
        [sec.toNat / 10 * 16 + sec.toNat % 10, mi.toNat / 10 * 16 + mi.toNat % 10,
          h.toNat / 10 * 16 + h.toNat % 10, d.toNat / 10 * 16 + d.toNat % 10,
          mo.toNat / 10 * 16 + mo.toNat % 10, dayOfWeek y.toNat mo.toNat d.toNat,
          (y.toNat - 2000) / 10 * 16 + (y.toNat - 2000) % 10] ∧
      w.toNat = dayOfWeek y.toNat mo.toNat d.toNat ∧
      exec (.writeDatetime y mo d h mi sec) s = .next (finishedWith .none
        { s.afterWriteFrame 0xBE img.toList with
          buf :=
            { s.buf with
              img := img
              cal := { year := y, month := mo, day := d, hour := h, minute := mi, second := sec, weekday := w } } })

/-- 60_exceptions.md R223, 45_driver_operations.md R202: outside the bounds WRITE_DATETIME raises the RangeError of
the first field that fails, with no pin event and no state change. -/
def Obligations.WriteDatetimeRangeError : Prop :=
  ∀ (y : BitVec 12) (mo : BitVec 4) (d h : BitVec 5) (mi sec : BitVec 6) (s : State),
    s.drv = .ready → s.tx = .idle →
    let yearOk := 2000 ≤ y.toNat ∧ y.toNat ≤ 2099
    let monthOk := 1 ≤ mo.toNat ∧ mo.toNat ≤ 12
    let dayOk := 1 ≤ d.toNat ∧ d.toNat ≤ daysInMonth y.toNat mo.toNat
    let raises := fun info : BitVec 8 =>
      exec (.writeDatetime y mo d h mi sec) s = .next { s with
        status := { busy := false, err := 2, info := info }, seq := .idle
        resp := some { err := 2, info := info, value := .none } }
    (¬ yearOk → raises 1) ∧
    (yearOk → ¬ monthOk → raises 2) ∧
    (yearOk → monthOk → ¬ dayOk → raises 3) ∧
    (yearOk → monthOk → dayOk → 23 < h.toNat → raises 4) ∧
    (yearOk → monthOk → dayOk → h.toNat ≤ 23 → 59 < mi.toNat → raises 5) ∧
    (yearOk → monthOk → dayOk → h.toNat ≤ 23 → mi.toNat ≤ 59 → 59 < sec.toNat → raises 6)

/-- 45_driver_operations.md R203: READ_RAM answers the 31 bytes of one read RAM burst, which are those the
environment has fixed where it has fixed them. -/
def Obligations.ReadRam : Prop :=
  ∀ s : State, s.drv = .ready → s.tx = .idle →
    ∃ (ram : Vector Byte 31) (e : Env),
      e.trace = s.env.trace ++ readFrame s.cfg 0xFF ram.toList ∧ e.validPins = s.env.validPins ∧
      (∀ (data : Vector Byte 31) rest, s.env.periph = none → s.env.answers = bytesLevels data.toList ++ rest →
        ram = data ∧ e.answers = rest) ∧
      exec .readRam s = .next (finishedWith (.ram ram)
        { s.afterReadFrame 0xFF ram.toList e with buf := { s.buf with ram := ram } })

/-- 45_driver_operations.md R204: WRITE_RAM sends the first `min(n, 31)` bytes in one write RAM burst and loads them
into the front of RAMBUF; a longer operand acts as its prefix of 31 bytes (20_memory.md R91(d)). -/
def Obligations.WriteRam : Prop :=
  ∀ (len : BitVec 8) (image : Vector Byte 31) (s : State),
    (s.drv = .ready → s.tx = .idle →
      ∃ ram : Vector Byte 31,
        (∀ (k : Nat) (h : k < 31), ram[k] = if k < min len.toNat 31 then image[k] else s.buf.ram[k]) ∧
        exec (.writeRam len image) s = .next (finishedWith .none
          { s.afterWriteFrame 0xFE (image.toList.take (min len.toNat 31)) with
            buf := { s.buf with ram := ram } })) ∧
    (31 ≤ len.toNat → exec (.writeRam len image) s = exec (.writeRam 31 image) s)

/-- 45_driver_operations.md R205: CLOSE releases CLK, IO and CE in that order, after TX_CLOSE's events when a
transaction is open; from Closed it succeeds with no effect; from Uninitialized it raises UsageError(NotReady), error 3,
information word 1 (60_exceptions.md R221). -/
def Obligations.Close : Prop :=
  ∀ s : State,
    (s.drv = .ready → s.tx = .idle →
      exec .close s = .next (finishedWith .none { s with
        drv := .closed
        pin := { s.pin with clkDir := .input, ioDir := .input, ceDir := .input, ioPull := .none }
        env := { s.env with trace := s.env.trace ++ [.rel .clk, .rel .io, .rel .ce] } })) ∧
    (s.drv = .ready → s.tx = .opened →
      exec .close s = .next (finishedWith .none { s with
        drv := .closed
        tx := .idle
        pin :=
          { s.pin with
            clkO := .low, ceO := .low, clkDir := .input, ioDir := .input, ceDir := .input, ioPull := .none }
        env := s.env.seeAll s.pin
          [.dir .io .input s.cfg.ioPull, .wr .clk .low, .wr .ce .low, .rel .clk, .rel .io, .rel .ce] })) ∧
    (s.drv = .closed → exec .close s = .next (finishedWith .none s)) ∧
    (s.drv = .uninitialized → exec .close s = .next (failedWith 3 1 s))

/-- 45_driver_operations.md R206, 60_exceptions.md R221, R224: outside the driver state that admits it, INIT raises
InitNotAllowed (error 3, information word 5) and each data operation NotReady (error 3, information word 1), whatever
the operands and whether or not a transaction is open, with no event and no state change. -/
def Obligations.DriverStateGates : Prop :=
  ∀ s : State,
    (s.drv ≠ .uninitialized → ∀ clkId ioId ceId clkDelay settleDelay order pull,
      exec (.init clkId ioId ceId clkDelay settleDelay order pull) s =
        .next (failedWith 3 5 s)) ∧
    (s.drv ≠ .ready →
      exec .readDatetime s = .next (failedWith 3 1 s) ∧
      exec .readRam s = .next (failedWith 3 1 s) ∧
      (∀ y mo d h mi sec, exec (.writeDatetime y mo d h mi sec) s = .next (failedWith 3 1 s)) ∧
      ∀ len image, exec (.writeRam len image) s = .next (failedWith 3 1 s))

/-- 45_driver_operations.md R207: launched with a transaction open, INIT and the data operations raise
UsageError(NestedOpen), error 3, information word 2 (60_exceptions.md R221), as their second check, before any event. -/
def Obligations.OpenLaunchGates : Prop :=
  ∀ s : State, s.tx = .opened →
    (s.drv = .uninitialized → ∀ clkId ioId ceId clkDelay settleDelay order pull,
      exec (.init clkId ioId ceId clkDelay settleDelay order pull) s = .next (failedWith 3 2 s)) ∧
    (s.drv = .ready →
      exec .readDatetime s = .next (failedWith 3 2 s) ∧
      exec .readRam s = .next (failedWith 3 2 s) ∧
      (∀ y mo d h mi sec, exec (.writeDatetime y mo d h mi sec) s = .next (failedWith 3 2 s)) ∧
      ∀ len image, exec (.writeRam len image) s = .next (failedWith 3 2 s))

/-! ## The whole machine -/

/-- 10_state.md R21: the driver state changes only by a successful INIT, by CLOSE, and by reset. -/
def Obligations.DriverTransitions : Prop :=
  ∀ s t : State, step s = .next t → t.drv ≠ s.drv →
    (s.drv = .uninitialized ∧ t.drv = .ready ∧
      ∃ r rest extra clkId ioId ceId clkDelay settleDelay order pull, s.port.requests = r :: rest ∧
        decode r.format r.bytes = .ok (.init clkId ioId ceId clkDelay settleDelay order pull, extra) ∧
        t.resp = some { err := 0, info := 0, value := .none }) ∨
    (s.drv = .ready ∧ t.drv = .closed ∧
      ∃ r rest extra, s.port.requests = r :: rest ∧ decode r.format r.bytes = .ok (.close, extra)) ∨
    (t.drv = .uninitialized ∧ s.port.resetIn ≠ none ∧ atReset t)

/-- 10_state.md R27: the configuration changes only by a successful INIT, to INIT's operands, and by reset. -/
def Obligations.ConfigWrittenByInitOnly : Prop :=
  ∀ s t : State, step s = .next t → t.cfg ≠ s.cfg →
    (s.drv = .uninitialized ∧ t.drv = .ready ∧
      ∃ r rest extra clkId ioId ceId clkDelay settleDelay order pull, s.port.requests = r :: rest ∧
        decode r.format r.bytes = .ok (.init clkId ioId ceId clkDelay settleDelay order pull, extra) ∧
        t.cfg = { clkDelay, settleDelay, dataResetOrder := order, ioPull := pull, pins := { clkId, ioId, ceId } }) ∨
    (s.port.resetIn ≠ none ∧ atReset t)

/-- The invariant of 10_state.md R33 holds at reset. -/
def Obligations.RestAtReset : Prop :=
  hostOnly State.reset ∧ engineIdle State.reset ∧ linesAtRest State.reset

/-- 10_state.md R33, R22, 40_pin_primitives.md R130: where host operations only can run, every step from a state at rest
ends in a state at rest (the lines as the driver state says, no transaction open, no operation in progress), and a pin
event is emitted only while the engine owns the pins: in Ready, or by INIT. -/
def Obligations.RestKeptByStep : Prop :=
  ∀ s t : State, hostOnly s → engineIdle s → linesAtRest s → step s = .next t →
    hostOnly t ∧ engineIdle t ∧ linesAtRest t ∧
    (t.env.trace ≠ s.env.trace → s.drv = .ready ∨
      (s.drv = .uninitialized ∧ ∃ r rest extra clkId ioId ceId clkDelay settleDelay order pull,
        s.port.requests = r :: rest ∧
        decode r.format r.bytes = .ok (.init clkId ioId ceId clkDelay settleDelay order pull, extra)))

/-- 60_exceptions.md R230, R231: an error answers with its code and information word in the response and in `status`
and no value. Every error but MalformedRegisterError leaves the whole state as it was but for these; that one is
raised by READ_DATETIME and BCD_DECODE only and leaves `drv`, `cfg`, `tx` and CAL as they were. -/
def Obligations.ErrorsLeaveState : Prop :=
  ∀ (i : Instr) (s t : State) (r : Response), exec i s = .next t → t.resp = some r → r.err ≠ 0 →
    r.value = .none ∧ t.status = { busy := false, err := r.err, info := r.info } ∧ t.seq = .idle ∧
    (r.err ≠ 4 → t = { s with status := t.status, seq := .idle, resp := some r }) ∧
    (r.err = 4 → (i = .readDatetime ∨ ∃ img, i = .bcdDecode img) ∧
      t.drv = s.drv ∧ t.cfg = s.cfg ∧ t.tx = s.tx ∧ t.buf.cal = s.buf.cal)

/-- 41_framing.md R141, 00_scope.md R8: with no peripheral on the lines, no result of an operation depends on the
delays, the data-line reset order or the pull: two engines that differ in the configuration alone answer alike and
agree in everything but the configuration, the pull of IO, the trace and, after TX_OPEN, the direction of IO, which the
data-line reset sets (R140). -/
def Obligations.ResultsIndependentOfConfig : Prop :=
  ∀ (i : Instr) (s t : State) (c : Cfg), s.env.periph = none → exec i s = .next t →
    ∃ t', exec i { s with cfg := c } = .next t' ∧ t'.resp = t.resp ∧ t'.status = t.status ∧ t'.drv = t.drv ∧
      t'.tx = t.tx ∧ t'.x = t.x ∧ t'.buf = t.buf ∧ t'.seq = t.seq ∧ t'.port = t.port ∧
      t'.pin.clkDir = t.pin.clkDir ∧ t'.pin.clkO = t.pin.clkO ∧ t'.pin.ceDir = t.pin.ceDir ∧
      t'.pin.ceO = t.pin.ceO ∧ t'.pin.ioO = t.pin.ioO ∧ (i ≠ .txOpen → t'.pin.ioDir = t.pin.ioDir) ∧
      t'.env.answers = t.env.answers ∧ t'.env.drawn = t.env.drawn ∧ t'.env.validPins = t.env.validPins ∧
      t'.env.periph = t.env.periph

/-! ## With the reference peripheral -/

/-- 20_memory.md R91(a): after a successful INIT the reference peripheral is unprotected and its trickle charger
register is 0; its clock and RAM bytes are as they were. -/
def Obligations.PeripheralAfterInit : Prop :=
  ∀ (clkId ioId ceId : PinId) (clkDelay settleDelay : BitVec 16) (order : DataResetOrder) (pull : Pull) (s : State)
    (p : Periph),
    linesAtRest s → s.drv = .uninitialized → s.env.periph = some p → p.waiting →
    clkId ≠ ioId → clkId ≠ ceId → ioId ≠ ceId →
    clkId ∈ s.env.validPins → ioId ∈ s.env.validPins → ceId ∈ s.env.validPins →
    ∃ (t : State) (q : Periph), exec (.init clkId ioId ceId clkDelay settleDelay order pull) s = .next t ∧
      t.drv = .ready ∧ t.env.periph = some q ∧ q.waiting ∧ q.wp = false ∧ q.tcs = 0x00 ∧ q.clkreg = p.clkreg ∧
      q.ram = p.ram

/-- 20_memory.md R91(b): with the unprotected reference peripheral, the date WRITE_DATETIME wrote is the date
READ_DATETIME answers, with its weekday. -/
def Obligations.PeripheralDatetime : Prop :=
  ∀ (y : BitVec 12) (mo : BitVec 4) (d h : BitVec 5) (mi sec : BitVec 6) (s : State) (p : Periph),
    linesAtRest s → s.drv = .ready → s.env.periph = some p → p.waiting → p.wp = false →
    2000 ≤ y.toNat → y.toNat ≤ 2099 → 1 ≤ mo.toNat → mo.toNat ≤ 12 →
    1 ≤ d.toNat → d.toNat ≤ daysInMonth y.toNat mo.toNat → h.toNat ≤ 23 → mi.toNat ≤ 59 → sec.toNat ≤ 59 →
    ∃ (t u : State) (w : BitVec 3), exec (.writeDatetime y mo d h mi sec) s = .next t ∧
      exec .readDatetime t = .next u ∧ w.toNat = dayOfWeek y.toNat mo.toNat d.toNat ∧
      u.resp = some ⟨0, 0, .calendar
        { year := y, month := mo, day := d, hour := h, minute := mi, second := sec, weekday := w }⟩

/-- 20_memory.md R91(c), R63: with the unprotected reference peripheral, READ_RAM after WRITE_RAM answers the bytes
written and, from index `min(n, 31)` on, what was stored before. -/
def Obligations.PeripheralRam : Prop :=
  ∀ (len : BitVec 8) (image : Vector Byte 31) (s : State) (p : Periph),
    linesAtRest s → s.drv = .ready → s.env.periph = some p → p.waiting → p.wp = false →
    ∃ (t u : State) (ram : Vector Byte 31), exec (.writeRam len image) s = .next t ∧
      exec .readRam t = .next u ∧ u.resp = some { err := 0, info := 0, value := .ram ram } ∧
      ∀ (k : Nat) (h : k < 31), ram[k] = if k < min len.toNat 31 then image[k] else p.ram[k]

/-- 20_memory.md R92, 70_reset_and_hazards.md R273: with write protect set, WRITE_DATETIME and WRITE_RAM report
success and the reference peripheral's storage is unchanged: READ_RAM answers what was stored before. -/
def Obligations.PeripheralProtected : Prop :=
  ∀ (y : BitVec 12) (mo : BitVec 4) (d h : BitVec 5) (mi sec : BitVec 6) (len : BitVec 8) (image : Vector Byte 31)
    (s : State) (p : Periph),
    linesAtRest s → s.drv = .ready → s.env.periph = some p → p.waiting → p.wp = true →
    2000 ≤ y.toNat → y.toNat ≤ 2099 → 1 ≤ mo.toNat → mo.toNat ≤ 12 →
    1 ≤ d.toNat → d.toNat ≤ daysInMonth y.toNat mo.toNat → h.toNat ≤ 23 → mi.toNat ≤ 59 → sec.toNat ≤ 59 →
    ∃ (a b c : State) (q : Periph), exec (.writeDatetime y mo d h mi sec) s = .next a ∧
      exec (.writeRam len image) a = .next b ∧ exec .readRam b = .next c ∧
      a.resp = some { err := 0, info := 0, value := .none } ∧ b.resp = some { err := 0, info := 0, value := .none } ∧
      c.resp = some { err := 0, info := 0, value := .ram p.ram } ∧
      c.env.periph = some q ∧ q.clkreg = p.clkreg ∧ q.ram = p.ram ∧ q.wp = true ∧ q.tcs = p.tcs
end

