-- ==== Sys2Proof/Laws/State.lean ====
section
/-! SUPPORT. One lemma per field per update of the state, so that no proof unfolds a record update. -/

namespace Sys2Proof.Machine

/-! ### emit -/

@[simp] theorem State.emit_drv (ev : PinEvent) (s : State) : (s.emit ev).drv = s.drv := rfl
@[simp] theorem State.emit_tx (ev : PinEvent) (s : State) : (s.emit ev).tx = s.tx := rfl
@[simp] theorem State.emit_pin (ev : PinEvent) (s : State) : (s.emit ev).pin = s.pin.apply ev := rfl
@[simp] theorem State.emit_cfg (ev : PinEvent) (s : State) : (s.emit ev).cfg = s.cfg := rfl
@[simp] theorem State.emit_x (ev : PinEvent) (s : State) : (s.emit ev).x = s.x := rfl
@[simp] theorem State.emit_buf (ev : PinEvent) (s : State) : (s.emit ev).buf = s.buf := rfl
@[simp] theorem State.emit_status (ev : PinEvent) (s : State) : (s.emit ev).status = s.status := rfl
@[simp] theorem State.emit_seq (ev : PinEvent) (s : State) : (s.emit ev).seq = s.seq.advance := rfl
@[simp] theorem State.emit_port (ev : PinEvent) (s : State) : (s.emit ev).port = s.port := rfl
@[simp] theorem State.emit_resp (ev : PinEvent) (s : State) : (s.emit ev).resp = s.resp := rfl
@[simp] theorem State.emit_env (ev : PinEvent) (s : State) : (s.emit ev).env = s.env.see (s.pin.apply ev) ev := rfl

/-! ### emitRead -/

@[simp] theorem State.emitRead_drv (p : Pin) (s : State) : (s.emitRead p).2.drv = s.drv := rfl
@[simp] theorem State.emitRead_tx (p : Pin) (s : State) : (s.emitRead p).2.tx = s.tx := rfl
@[simp] theorem State.emitRead_pin (p : Pin) (s : State) : (s.emitRead p).2.pin = s.pin := rfl
@[simp] theorem State.emitRead_cfg (p : Pin) (s : State) : (s.emitRead p).2.cfg = s.cfg := rfl
@[simp] theorem State.emitRead_x (p : Pin) (s : State) : (s.emitRead p).2.x = s.x := rfl
@[simp] theorem State.emitRead_buf (p : Pin) (s : State) : (s.emitRead p).2.buf = s.buf := rfl
@[simp] theorem State.emitRead_status (p : Pin) (s : State) : (s.emitRead p).2.status = s.status := rfl
@[simp] theorem State.emitRead_seq (p : Pin) (s : State) : (s.emitRead p).2.seq = s.seq.advance := rfl
@[simp] theorem State.emitRead_port (p : Pin) (s : State) : (s.emitRead p).2.port = s.port := rfl
@[simp] theorem State.emitRead_resp (p : Pin) (s : State) : (s.emitRead p).2.resp = s.resp := rfl
@[simp] theorem State.emitRead_env (p : Pin) (s : State) : (s.emitRead p).2.env = (s.env.sample s.pin p).2.record (.rd p (s.env.sample s.pin p).1) := rfl

/-! ### setSR -/

@[simp] theorem State.setSR_drv (v : BitVec 8) (s : State) : (s.setSR v).drv = s.drv := rfl
@[simp] theorem State.setSR_tx (v : BitVec 8) (s : State) : (s.setSR v).tx = s.tx := rfl
@[simp] theorem State.setSR_pin (v : BitVec 8) (s : State) : (s.setSR v).pin = s.pin := rfl
@[simp] theorem State.setSR_cfg (v : BitVec 8) (s : State) : (s.setSR v).cfg = s.cfg := rfl
@[simp] theorem State.setSR_x (v : BitVec 8) (s : State) : (s.setSR v).x = { s.x with sr := v } := rfl
@[simp] theorem State.setSR_buf (v : BitVec 8) (s : State) : (s.setSR v).buf = s.buf := rfl
@[simp] theorem State.setSR_status (v : BitVec 8) (s : State) : (s.setSR v).status = s.status := rfl
@[simp] theorem State.setSR_seq (v : BitVec 8) (s : State) : (s.setSR v).seq = s.seq := rfl
@[simp] theorem State.setSR_port (v : BitVec 8) (s : State) : (s.setSR v).port = s.port := rfl
@[simp] theorem State.setSR_resp (v : BitVec 8) (s : State) : (s.setSR v).resp = s.resp := rfl
@[simp] theorem State.setSR_env (v : BitVec 8) (s : State) : (s.setSR v).env = s.env := rfl

/-! ### setBC -/

@[simp] theorem State.setBC_drv (i : Nat) (s : State) : (s.setBC i).drv = s.drv := rfl
@[simp] theorem State.setBC_tx (i : Nat) (s : State) : (s.setBC i).tx = s.tx := rfl
@[simp] theorem State.setBC_pin (i : Nat) (s : State) : (s.setBC i).pin = s.pin := rfl
@[simp] theorem State.setBC_cfg (i : Nat) (s : State) : (s.setBC i).cfg = s.cfg := rfl
@[simp] theorem State.setBC_x (i : Nat) (s : State) : (s.setBC i).x = { s.x with bc := BitVec.ofNat 4 i } := rfl
@[simp] theorem State.setBC_buf (i : Nat) (s : State) : (s.setBC i).buf = s.buf := rfl
@[simp] theorem State.setBC_status (i : Nat) (s : State) : (s.setBC i).status = s.status := rfl
@[simp] theorem State.setBC_seq (i : Nat) (s : State) : (s.setBC i).seq = s.seq := rfl
@[simp] theorem State.setBC_port (i : Nat) (s : State) : (s.setBC i).port = s.port := rfl
@[simp] theorem State.setBC_resp (i : Nat) (s : State) : (s.setBC i).resp = s.resp := rfl
@[simp] theorem State.setBC_env (i : Nat) (s : State) : (s.setBC i).env = s.env := rfl

/-! ### setBI -/

@[simp] theorem State.setBI_drv (i : Nat) (s : State) : (s.setBI i).drv = s.drv := rfl
@[simp] theorem State.setBI_tx (i : Nat) (s : State) : (s.setBI i).tx = s.tx := rfl
@[simp] theorem State.setBI_pin (i : Nat) (s : State) : (s.setBI i).pin = s.pin := rfl
@[simp] theorem State.setBI_cfg (i : Nat) (s : State) : (s.setBI i).cfg = s.cfg := rfl
@[simp] theorem State.setBI_x (i : Nat) (s : State) : (s.setBI i).x = { s.x with bi := BitVec.ofNat 5 i } := rfl
@[simp] theorem State.setBI_buf (i : Nat) (s : State) : (s.setBI i).buf = s.buf := rfl
@[simp] theorem State.setBI_status (i : Nat) (s : State) : (s.setBI i).status = s.status := rfl
@[simp] theorem State.setBI_seq (i : Nat) (s : State) : (s.setBI i).seq = s.seq := rfl
@[simp] theorem State.setBI_port (i : Nat) (s : State) : (s.setBI i).port = s.port := rfl
@[simp] theorem State.setBI_resp (i : Nat) (s : State) : (s.setBI i).resp = s.resp := rfl
@[simp] theorem State.setBI_env (i : Nat) (s : State) : (s.setBI i).env = s.env := rfl

/-! ### nextBI -/

@[simp] theorem State.nextBI_drv (s : State) : (s.nextBI).drv = s.drv := rfl
@[simp] theorem State.nextBI_tx (s : State) : (s.nextBI).tx = s.tx := rfl
@[simp] theorem State.nextBI_pin (s : State) : (s.nextBI).pin = s.pin := rfl
@[simp] theorem State.nextBI_cfg (s : State) : (s.nextBI).cfg = s.cfg := rfl
@[simp] theorem State.nextBI_x (s : State) : (s.nextBI).x = { s.x with bi := s.x.bi + 1 } := rfl
@[simp] theorem State.nextBI_buf (s : State) : (s.nextBI).buf = s.buf := rfl
@[simp] theorem State.nextBI_status (s : State) : (s.nextBI).status = s.status := rfl
@[simp] theorem State.nextBI_seq (s : State) : (s.nextBI).seq = s.seq := rfl
@[simp] theorem State.nextBI_port (s : State) : (s.nextBI).port = s.port := rfl
@[simp] theorem State.nextBI_resp (s : State) : (s.nextBI).resp = s.resp := rfl
@[simp] theorem State.nextBI_env (s : State) : (s.nextBI).env = s.env := rfl

/-! ### beginTransaction -/

@[simp] theorem State.beginTransaction_drv (c : Byte) (n : Nat) (s : State) : (s.beginTransaction c n).drv = s.drv := rfl
@[simp] theorem State.beginTransaction_tx (c : Byte) (n : Nat) (s : State) : (s.beginTransaction c n).tx = s.tx := rfl
@[simp] theorem State.beginTransaction_pin (c : Byte) (n : Nat) (s : State) : (s.beginTransaction c n).pin = s.pin := rfl
@[simp] theorem State.beginTransaction_cfg (c : Byte) (n : Nat) (s : State) : (s.beginTransaction c n).cfg = s.cfg := rfl
@[simp] theorem State.beginTransaction_x (c : Byte) (n : Nat) (s : State) : (s.beginTransaction c n).x = { s.x with cmd := c, bn := BitVec.ofNat 5 n, bi := 0 } := rfl
@[simp] theorem State.beginTransaction_buf (c : Byte) (n : Nat) (s : State) : (s.beginTransaction c n).buf = s.buf := rfl
@[simp] theorem State.beginTransaction_status (c : Byte) (n : Nat) (s : State) : (s.beginTransaction c n).status = s.status := rfl
@[simp] theorem State.beginTransaction_seq (c : Byte) (n : Nat) (s : State) : (s.beginTransaction c n).seq = s.seq := rfl
@[simp] theorem State.beginTransaction_port (c : Byte) (n : Nat) (s : State) : (s.beginTransaction c n).port = s.port := rfl
@[simp] theorem State.beginTransaction_resp (c : Byte) (n : Nat) (s : State) : (s.beginTransaction c n).resp = s.resp := rfl
@[simp] theorem State.beginTransaction_env (c : Byte) (n : Nat) (s : State) : (s.beginTransaction c n).env = s.env := rfl

/-! ### setImg -/

@[simp] theorem State.setImg_drv (image : Vector Byte 7) (s : State) : (s.setImg image).drv = s.drv := rfl
@[simp] theorem State.setImg_tx (image : Vector Byte 7) (s : State) : (s.setImg image).tx = s.tx := rfl
@[simp] theorem State.setImg_pin (image : Vector Byte 7) (s : State) : (s.setImg image).pin = s.pin := rfl
@[simp] theorem State.setImg_cfg (image : Vector Byte 7) (s : State) : (s.setImg image).cfg = s.cfg := rfl
@[simp] theorem State.setImg_x (image : Vector Byte 7) (s : State) : (s.setImg image).x = s.x := rfl
@[simp] theorem State.setImg_buf (image : Vector Byte 7) (s : State) : (s.setImg image).buf = { s.buf with img := image } := rfl
@[simp] theorem State.setImg_status (image : Vector Byte 7) (s : State) : (s.setImg image).status = s.status := rfl
@[simp] theorem State.setImg_seq (image : Vector Byte 7) (s : State) : (s.setImg image).seq = s.seq := rfl
@[simp] theorem State.setImg_port (image : Vector Byte 7) (s : State) : (s.setImg image).port = s.port := rfl
@[simp] theorem State.setImg_resp (image : Vector Byte 7) (s : State) : (s.setImg image).resp = s.resp := rfl
@[simp] theorem State.setImg_env (image : Vector Byte 7) (s : State) : (s.setImg image).env = s.env := rfl

/-! ### loadRam -/

@[simp] theorem State.loadRam_drv (bytes : List Byte) (s : State) : (s.loadRam bytes).drv = s.drv := rfl
@[simp] theorem State.loadRam_tx (bytes : List Byte) (s : State) : (s.loadRam bytes).tx = s.tx := rfl
@[simp] theorem State.loadRam_pin (bytes : List Byte) (s : State) : (s.loadRam bytes).pin = s.pin := rfl
@[simp] theorem State.loadRam_cfg (bytes : List Byte) (s : State) : (s.loadRam bytes).cfg = s.cfg := rfl
@[simp] theorem State.loadRam_x (bytes : List Byte) (s : State) : (s.loadRam bytes).x = s.x := rfl
@[simp] theorem State.loadRam_buf (bytes : List Byte) (s : State) : (s.loadRam bytes).buf = { s.buf with ram := loadFront s.buf.ram bytes } := rfl
@[simp] theorem State.loadRam_status (bytes : List Byte) (s : State) : (s.loadRam bytes).status = s.status := rfl
@[simp] theorem State.loadRam_seq (bytes : List Byte) (s : State) : (s.loadRam bytes).seq = s.seq := rfl
@[simp] theorem State.loadRam_port (bytes : List Byte) (s : State) : (s.loadRam bytes).port = s.port := rfl
@[simp] theorem State.loadRam_resp (bytes : List Byte) (s : State) : (s.loadRam bytes).resp = s.resp := rfl
@[simp] theorem State.loadRam_env (bytes : List Byte) (s : State) : (s.loadRam bytes).env = s.env := rfl

/-! ### setCal -/

@[simp] theorem State.setCal_drv (c : Calendar) (s : State) : (s.setCal c).drv = s.drv := rfl
@[simp] theorem State.setCal_tx (c : Calendar) (s : State) : (s.setCal c).tx = s.tx := rfl
@[simp] theorem State.setCal_pin (c : Calendar) (s : State) : (s.setCal c).pin = s.pin := rfl
@[simp] theorem State.setCal_cfg (c : Calendar) (s : State) : (s.setCal c).cfg = s.cfg := rfl
@[simp] theorem State.setCal_x (c : Calendar) (s : State) : (s.setCal c).x = s.x := rfl
@[simp] theorem State.setCal_buf (c : Calendar) (s : State) : (s.setCal c).buf = { s.buf with cal := c } := rfl
@[simp] theorem State.setCal_status (c : Calendar) (s : State) : (s.setCal c).status = s.status := rfl
@[simp] theorem State.setCal_seq (c : Calendar) (s : State) : (s.setCal c).seq = s.seq := rfl
@[simp] theorem State.setCal_port (c : Calendar) (s : State) : (s.setCal c).port = s.port := rfl
@[simp] theorem State.setCal_resp (c : Calendar) (s : State) : (s.setCal c).resp = s.resp := rfl
@[simp] theorem State.setCal_env (c : Calendar) (s : State) : (s.setCal c).env = s.env := rfl

/-! ### atPhase -/

@[simp] theorem State.atPhase_drv (p : Phase) (s : State) : (s.atPhase p).drv = s.drv := rfl
@[simp] theorem State.atPhase_tx (p : Phase) (s : State) : (s.atPhase p).tx = s.tx := rfl
@[simp] theorem State.atPhase_pin (p : Phase) (s : State) : (s.atPhase p).pin = s.pin := rfl
@[simp] theorem State.atPhase_cfg (p : Phase) (s : State) : (s.atPhase p).cfg = s.cfg := rfl
@[simp] theorem State.atPhase_x (p : Phase) (s : State) : (s.atPhase p).x = s.x := rfl
@[simp] theorem State.atPhase_buf (p : Phase) (s : State) : (s.atPhase p).buf = s.buf := rfl
@[simp] theorem State.atPhase_status (p : Phase) (s : State) : (s.atPhase p).status = s.status := rfl
@[simp] theorem State.atPhase_seq (p : Phase) (s : State) : (s.atPhase p).seq = { s.seq with phase := some p, sub := 0 } := rfl
@[simp] theorem State.atPhase_port (p : Phase) (s : State) : (s.atPhase p).port = s.port := rfl
@[simp] theorem State.atPhase_resp (p : Phase) (s : State) : (s.atPhase p).resp = s.resp := rfl
@[simp] theorem State.atPhase_env (p : Phase) (s : State) : (s.atPhase p).env = s.env := rfl

/-! ### beginBit -/

@[simp] theorem State.beginBit_drv (s : State) : (s.beginBit).drv = s.drv := rfl
@[simp] theorem State.beginBit_tx (s : State) : (s.beginBit).tx = s.tx := rfl
@[simp] theorem State.beginBit_pin (s : State) : (s.beginBit).pin = s.pin := rfl
@[simp] theorem State.beginBit_cfg (s : State) : (s.beginBit).cfg = s.cfg := rfl
@[simp] theorem State.beginBit_x (s : State) : (s.beginBit).x = s.x := rfl
@[simp] theorem State.beginBit_buf (s : State) : (s.beginBit).buf = s.buf := rfl
@[simp] theorem State.beginBit_status (s : State) : (s.beginBit).status = s.status := rfl
@[simp] theorem State.beginBit_seq (s : State) : (s.beginBit).seq = { s.seq with sub := 0 } := rfl
@[simp] theorem State.beginBit_port (s : State) : (s.beginBit).port = s.port := rfl
@[simp] theorem State.beginBit_resp (s : State) : (s.beginBit).resp = s.resp := rfl
@[simp] theorem State.beginBit_env (s : State) : (s.beginBit).env = s.env := rfl

/-! ### raise -/

@[simp] theorem State.raise_drv (e : EngineError) (s : State) : (s.raise e).drv = s.drv := rfl
@[simp] theorem State.raise_tx (e : EngineError) (s : State) : (s.raise e).tx = s.tx := rfl
@[simp] theorem State.raise_pin (e : EngineError) (s : State) : (s.raise e).pin = s.pin := rfl
@[simp] theorem State.raise_cfg (e : EngineError) (s : State) : (s.raise e).cfg = s.cfg := rfl
@[simp] theorem State.raise_x (e : EngineError) (s : State) : (s.raise e).x = s.x := rfl
@[simp] theorem State.raise_buf (e : EngineError) (s : State) : (s.raise e).buf = s.buf := rfl
@[simp] theorem State.raise_status (e : EngineError) (s : State) : (s.raise e).status = { busy := false, err := e.code, info := e.info } := rfl
@[simp] theorem State.raise_seq (e : EngineError) (s : State) : (s.raise e).seq = .idle := rfl
@[simp] theorem State.raise_port (e : EngineError) (s : State) : (s.raise e).port = s.port := rfl
@[simp] theorem State.raise_resp (e : EngineError) (s : State) : (s.raise e).resp = some { err := e.code, info := e.info, value := .none } := rfl
@[simp] theorem State.raise_env (e : EngineError) (s : State) : (s.raise e).env = s.env := rfl

/-! ### respond -/

@[simp] theorem State.respond_drv (v : Value) (s : State) : (s.respond v).drv = s.drv := rfl
@[simp] theorem State.respond_tx (v : Value) (s : State) : (s.respond v).tx = s.tx := rfl
@[simp] theorem State.respond_pin (v : Value) (s : State) : (s.respond v).pin = s.pin := rfl
@[simp] theorem State.respond_cfg (v : Value) (s : State) : (s.respond v).cfg = s.cfg := rfl
@[simp] theorem State.respond_x (v : Value) (s : State) : (s.respond v).x = s.x := rfl
@[simp] theorem State.respond_buf (v : Value) (s : State) : (s.respond v).buf = s.buf := rfl
@[simp] theorem State.respond_status (v : Value) (s : State) : (s.respond v).status = { busy := false, err := 0, info := 0 } := rfl
@[simp] theorem State.respond_seq (v : Value) (s : State) : (s.respond v).seq = .idle := rfl
@[simp] theorem State.respond_port (v : Value) (s : State) : (s.respond v).port = s.port := rfl
@[simp] theorem State.respond_resp (v : Value) (s : State) : (s.respond v).resp = some { err := 0, info := 0, value := v } := rfl
@[simp] theorem State.respond_env (v : Value) (s : State) : (s.respond v).env = s.env := rfl

/-! ### deliver -/

@[simp] theorem State.deliver_drv (v : Value) (s : State) : (s.deliver v).drv = s.drv := rfl
@[simp] theorem State.deliver_tx (v : Value) (s : State) : (s.deliver v).tx = s.tx := rfl
@[simp] theorem State.deliver_pin (v : Value) (s : State) : (s.deliver v).pin = s.pin := rfl
@[simp] theorem State.deliver_cfg (v : Value) (s : State) : (s.deliver v).cfg = s.cfg := rfl
@[simp] theorem State.deliver_x (v : Value) (s : State) : (s.deliver v).x = s.x := rfl
@[simp] theorem State.deliver_buf (v : Value) (s : State) : (s.deliver v).buf = s.buf := rfl
@[simp] theorem State.deliver_status (v : Value) (s : State) : (s.deliver v).status = s.status := rfl
@[simp] theorem State.deliver_seq (v : Value) (s : State) : (s.deliver v).seq = .idle := rfl
@[simp] theorem State.deliver_port (v : Value) (s : State) : (s.deliver v).port = s.port := rfl
@[simp] theorem State.deliver_resp (v : Value) (s : State) : (s.deliver v).resp = some { err := 0, info := 0, value := v } := rfl
@[simp] theorem State.deliver_env (v : Value) (s : State) : (s.deliver v).env = s.env := rfl

/-! ### accept -/

@[simp] theorem State.accept_drv (op : HostOp) (s : State) : (s.accept op).drv = s.drv := rfl
@[simp] theorem State.accept_tx (op : HostOp) (s : State) : (s.accept op).tx = s.tx := rfl
@[simp] theorem State.accept_pin (op : HostOp) (s : State) : (s.accept op).pin = s.pin := rfl
@[simp] theorem State.accept_cfg (op : HostOp) (s : State) : (s.accept op).cfg = s.cfg := rfl
@[simp] theorem State.accept_x (op : HostOp) (s : State) : (s.accept op).x = s.x := rfl
@[simp] theorem State.accept_buf (op : HostOp) (s : State) : (s.accept op).buf = s.buf := rfl
@[simp] theorem State.accept_status (op : HostOp) (s : State) : (s.accept op).status = { s.status with busy := true } := rfl
@[simp] theorem State.accept_seq (op : HostOp) (s : State) : (s.accept op).seq = { op := some op, phase := none, sub := 0 } := rfl
@[simp] theorem State.accept_port (op : HostOp) (s : State) : (s.accept op).port = s.port := rfl
@[simp] theorem State.accept_resp (op : HostOp) (s : State) : (s.accept op).resp = s.resp := rfl
@[simp] theorem State.accept_env (op : HostOp) (s : State) : (s.accept op).env = s.env := rfl

/-! ### takeRequest -/

@[simp] theorem State.takeRequest_drv (s : State) : (s.takeRequest).drv = s.drv := rfl
@[simp] theorem State.takeRequest_tx (s : State) : (s.takeRequest).tx = s.tx := rfl
@[simp] theorem State.takeRequest_pin (s : State) : (s.takeRequest).pin = s.pin := rfl
@[simp] theorem State.takeRequest_cfg (s : State) : (s.takeRequest).cfg = s.cfg := rfl
@[simp] theorem State.takeRequest_x (s : State) : (s.takeRequest).x = s.x := rfl
@[simp] theorem State.takeRequest_buf (s : State) : (s.takeRequest).buf = s.buf := rfl
@[simp] theorem State.takeRequest_status (s : State) : (s.takeRequest).status = s.status := rfl
@[simp] theorem State.takeRequest_seq (s : State) : (s.takeRequest).seq = s.seq := rfl
@[simp] theorem State.takeRequest_port (s : State) : (s.takeRequest).port = { s.port with requests := s.port.requests.tail } := rfl
@[simp] theorem State.takeRequest_resp (s : State) : (s.takeRequest).resp = s.resp := rfl
@[simp] theorem State.takeRequest_env (s : State) : (s.takeRequest).env = s.env := rfl

/-! ### engineReset -/

@[simp] theorem State.engineReset_drv (s : State) : (s.engineReset).drv = .uninitialized := rfl
@[simp] theorem State.engineReset_tx (s : State) : (s.engineReset).tx = .idle := rfl
@[simp] theorem State.engineReset_pin (s : State) : (s.engineReset).pin = .reset := rfl
@[simp] theorem State.engineReset_cfg (s : State) : (s.engineReset).cfg = .reset := rfl
@[simp] theorem State.engineReset_x (s : State) : (s.engineReset).x = .reset := rfl
@[simp] theorem State.engineReset_buf (s : State) : (s.engineReset).buf = .reset := rfl
@[simp] theorem State.engineReset_status (s : State) : (s.engineReset).status = .reset := rfl
@[simp] theorem State.engineReset_seq (s : State) : (s.engineReset).seq = .idle := rfl
@[simp] theorem State.engineReset_port (s : State) : (s.engineReset).port = { s.port with resetIn := none } := rfl
@[simp] theorem State.engineReset_resp (s : State) : (s.engineReset).resp = none := rfl
@[simp] theorem State.engineReset_env (s : State) : (s.engineReset).env = s.env := rfl

end Sys2Proof.Machine
end

