-- ==== Sys2Proof/Laws/Events.lean ====
section
/-! SUPPORT. What emitting events does: the pins and the environment are folded over the events, the trace grows
by them, everything else stands. -/

namespace Sys2Proof.Machine

/-! ### The environment -/

@[simp] theorem Env.record_trace (ev : PinEvent) (e : Env) : (e.record ev).trace = e.trace ++ [ev] := rfl
@[simp] theorem Env.record_answers (ev : PinEvent) (e : Env) : (e.record ev).answers = e.answers := rfl
@[simp] theorem Env.record_drawn (ev : PinEvent) (e : Env) : (e.record ev).drawn = e.drawn := rfl
@[simp] theorem Env.record_validPins (ev : PinEvent) (e : Env) : (e.record ev).validPins = e.validPins := rfl
@[simp] theorem Env.record_periph (ev : PinEvent) (e : Env) : (e.record ev).periph = e.periph := rfl

@[simp] theorem Env.draw_trace (e : Env) : e.draw.2.trace = e.trace := by unfold Env.draw; split <;> rfl
@[simp] theorem Env.draw_validPins (e : Env) : e.draw.2.validPins = e.validPins := by
  unfold Env.draw; split <;> rfl
@[simp] theorem Env.draw_periph (e : Env) : e.draw.2.periph = e.periph := by unfold Env.draw; split <;> rfl

@[simp] theorem Env.commit_trace (v : Byte) (p : Periph) (e : Env) : (e.commit v p).2.trace = e.trace := by
  unfold Env.commit; repeat' split
  all_goals simp
@[simp] theorem Env.commit_validPins (v : Byte) (p : Periph) (e : Env) :
    (e.commit v p).2.validPins = e.validPins := by
  unfold Env.commit; repeat' split
  all_goals simp

@[simp] theorem Env.takeBit_trace (b : Bool) (p : Periph) (e : Env) : (e.takeBit b p).2.trace = e.trace := by
  unfold Env.takeBit; dsimp only; repeat' split
  all_goals simp
@[simp] theorem Env.takeBit_validPins (b : Bool) (p : Periph) (e : Env) :
    (e.takeBit b p).2.validPins = e.validPins := by
  unfold Env.takeBit; dsimp only; repeat' split
  all_goals simp

@[simp] theorem Env.ioAtRise_trace (r : PinRegs) (e : Env) : (e.ioAtRise r).2.trace = e.trace := by
  unfold Env.ioAtRise; split <;> simp
@[simp] theorem Env.ioAtRise_validPins (r : PinRegs) (e : Env) : (e.ioAtRise r).2.validPins = e.validPins := by
  unfold Env.ioAtRise; split <;> simp

@[simp] theorem Env.clkHigh_trace (r : PinRegs) (p : Periph) (e : Env) : (e.clkHigh r p).trace = e.trace := by
  unfold Env.clkHigh; split <;> simp
@[simp] theorem Env.clkHigh_validPins (r : PinRegs) (p : Periph) (e : Env) :
    (e.clkHigh r p).validPins = e.validPins := by
  unfold Env.clkHigh; split <;> simp

@[simp] theorem Env.clkLow_trace (p : Periph) (e : Env) : (e.clkLow p).trace = e.trace := by
  unfold Env.clkLow; dsimp only; repeat' split
  all_goals simp
@[simp] theorem Env.clkLow_validPins (p : Periph) (e : Env) : (e.clkLow p).validPins = e.validPins := by
  unfold Env.clkLow; dsimp only; repeat' split
  all_goals simp

@[simp] theorem Env.react_trace (r : PinRegs) (ev : PinEvent) (e : Env) : (e.react r ev).trace = e.trace := by
  unfold Env.react; repeat' split
  all_goals simp
@[simp] theorem Env.react_validPins (r : PinRegs) (ev : PinEvent) (e : Env) :
    (e.react r ev).validPins = e.validPins := by
  unfold Env.react; repeat' split
  all_goals simp

/-- With no peripheral assumed, nothing reacts. -/
theorem Env.react_none {e : Env} (h : e.periph = none) (r : PinRegs) (ev : PinEvent) : e.react r ev = e := by
  unfold Env.react; split <;> simp_all

@[simp] theorem Env.see_trace (r : PinRegs) (ev : PinEvent) (e : Env) : (e.see r ev).trace = e.trace ++ [ev] := by
  simp [Env.see]
@[simp] theorem Env.see_validPins (r : PinRegs) (ev : PinEvent) (e : Env) :
    (e.see r ev).validPins = e.validPins := by
  simp [Env.see]
theorem Env.see_none {e : Env} (h : e.periph = none) (r : PinRegs) (ev : PinEvent) : e.see r ev = e.record ev := by
  simp [Env.see, Env.react_none, h]

@[simp] theorem Env.sample_trace (r : PinRegs) (p : Pin) (e : Env) : (e.sample r p).2.trace = e.trace := by
  unfold Env.sample; repeat' split
  all_goals simp
@[simp] theorem Env.sample_validPins (r : PinRegs) (p : Pin) (e : Env) :
    (e.sample r p).2.validPins = e.validPins := by
  unfold Env.sample; repeat' split
  all_goals simp
@[simp] theorem Env.sample_periph (r : PinRegs) (p : Pin) (e : Env) : (e.sample r p).2.periph = e.periph := by
  unfold Env.sample; repeat' split
  all_goals simp
/-- With no peripheral assumed, every sample is a draw (20_memory.md R75). -/
theorem Env.sample_none {e : Env} (h : e.periph = none) (r : PinRegs) (p : Pin) : e.sample r p = e.draw := by
  unfold Env.sample; repeat' split
  all_goals simp_all

/-! ### Sequences of events -/

@[simp] theorem PinRegs.applyAll_nil (r : PinRegs) : r.applyAll [] = r := rfl
@[simp] theorem PinRegs.applyAll_cons (r : PinRegs) (ev : PinEvent) (evs : List PinEvent) :
    r.applyAll (ev :: evs) = (r.apply ev).applyAll evs := rfl
@[simp] theorem PinRegs.applyAll_append (r : PinRegs) (a b : List PinEvent) :
    r.applyAll (a ++ b) = (r.applyAll a).applyAll b := by
  simp [PinRegs.applyAll]

@[simp] theorem Env.seeAll_nil (r : PinRegs) (e : Env) : e.seeAll r [] = e := rfl
@[simp] theorem Env.seeAll_cons (r : PinRegs) (ev : PinEvent) (evs : List PinEvent) (e : Env) :
    e.seeAll r (ev :: evs) = (e.see (r.apply ev) ev).seeAll (r.apply ev) evs := rfl
theorem Env.seeAll_append (r : PinRegs) (a b : List PinEvent) (e : Env) :
    e.seeAll r (a ++ b) = (e.seeAll r a).seeAll (r.applyAll a) b := by
  induction a generalizing r e with
  | nil => rfl
  | cons ev a ih => simp [ih]

@[simp] theorem Env.seeAll_trace (r : PinRegs) (evs : List PinEvent) (e : Env) :
    (e.seeAll r evs).trace = e.trace ++ evs := by
  induction evs generalizing r e with
  | nil => simp
  | cons ev evs ih => simp [ih]
@[simp] theorem Env.seeAll_validPins (r : PinRegs) (evs : List PinEvent) (e : Env) :
    (e.seeAll r evs).validPins = e.validPins := by
  induction evs generalizing r e with
  | nil => simp
  | cons ev evs ih => simp [ih]
/-- The replay of a sequence of events records that sequence. -/
@[simp] theorem Env.replay_trace (r : PinRegs) (evs : List PinEvent) (e : Env) :
    (e.replay r evs).trace = e.trace ++ evs := by
  induction evs generalizing r e with
  | nil => simp [Env.replay]
  | cons ev evs ih => cases ev <;> simp [Env.replay, ih]
/-- With no peripheral assumed, the environment only records. -/
theorem Env.seeAll_none {e : Env} (h : e.periph = none) (r : PinRegs) (evs : List PinEvent) :
    e.seeAll r evs = { e with trace := e.trace ++ evs } := by
  induction evs generalizing r e with
  | nil => simp
  | cons ev evs ih => rw [Env.seeAll_cons, Env.see_none h, ih (by simpa using h)]; simp [Env.record]

@[simp] theorem Seq.advance_op (q : Seq) : q.advance.op = q.op := rfl
@[simp] theorem Seq.advance_phase (q : Seq) : q.advance.phase = q.phase := rfl
@[simp] theorem Seq.advance_sub (q : Seq) : q.advance.sub = q.sub + 1 := rfl

@[simp] theorem State.emitAll_nil (s : State) : s.emitAll [] = s := rfl
@[simp] theorem State.emitAll_cons (ev : PinEvent) (evs : List PinEvent) (s : State) :
    s.emitAll (ev :: evs) = (s.emit ev).emitAll evs := rfl
theorem State.emitAll_append (a b : List PinEvent) (s : State) :
    s.emitAll (a ++ b) = (s.emitAll a).emitAll b := by
  simp [State.emitAll]

/-- What emitting a sequence of events does, said once. -/
theorem State.emitAll_eq (evs : List PinEvent) (s : State) :
    s.emitAll evs =
      { s with
        pin := s.pin.applyAll evs
        env := s.env.seeAll s.pin evs
        seq := { s.seq with sub := s.seq.sub + evs.length } } := by
  induction evs generalizing s with
  | nil => rfl
  | cons ev evs ih =>
    rw [State.emitAll_cons, ih]
    simp [State.emit, Seq.advance, Nat.add_assoc, Nat.add_comm 1]

/-! ### Sequencing -/

@[simp] theorem ok_bind {α β : Type} (a : α) (f : α → Except EngineError β) :
    ((Except.ok a : Except EngineError α) >>= f) = f a := rfl
@[simp] theorem error_bind {α β : Type} (e : EngineError) (f : α → Except EngineError β) :
    ((Except.error e : Except EngineError α) >>= f) = .error e := rfl
@[simp] theorem pure_eq_ok {α : Type} (a : α) : (pure a : Except EngineError α) = .ok a := rfl
@[simp] theorem map_ok {α β : Type} (a : α) (f : α → β) :
    (Except.ok a : Except EngineError α).map f = .ok (f a) := rfl
@[simp] theorem map_error {α β : Type} (e : EngineError) (f : α → β) :
    (Except.error e : Except EngineError α).map f = .error e := rfl

/-! ### Gates -/

/-- When the data operations may run (45_driver_operations.md R206). -/
theorem readyGate_ok {s : State} (hd : s.drv = .ready) (ht : s.tx = .idle) : readyGate s = .ok () := by
  simp [readyGate, hd, ht]

theorem readyGate_cases (s : State) :
    (s.drv ≠ .ready ∧ readyGate s = .error (.usage .notReady)) ∨
    (s.drv = .ready ∧ s.tx = .opened ∧ readyGate s = .error (.usage .nestedOpen)) ∨
    (s.drv = .ready ∧ s.tx = .idle ∧ readyGate s = .ok ()) := by
  unfold readyGate
  cases hd : s.drv <;> cases ht : s.tx <;> simp

end Sys2Proof.Machine
end

