-- ==== Sys2Proof/Laws/Bytes.lean ====
section
/-! SUPPORT. What TX_OPEN, TX_CLOSE, WRITE_BYTE and READ_BYTE do, said once. -/

namespace Sys2Proof.Machine

@[simp] theorem bit_lvl (b : Bool) : bit (lvl b) = b := by cases b <;> rfl
@[simp] theorem lvl_bit (l : Level) : lvl (bit l) = l := by cases l <;> rfl

/-- TX_OPEN from Idle (41_framing.md R140). -/
theorem txOpen_ok {s : State} (h : s.tx = .idle) :
    txOpen s = .ok
      { s with
        tx := .opened
        pin := s.pin.applyAll (txOpenEvents s.cfg)
        env := s.env.seeAll s.pin (txOpenEvents s.cfg)
        seq := { op := s.seq.op, phase := some .txOpen, sub := (txOpenEvents s.cfg).length } } := by
  simp [txOpen, h, State.emitAll_eq, State.atPhase]

/-- TX_OPEN from Open (41_framing.md R142). -/
theorem txOpen_nested {s : State} (h : s.tx = .opened) : txOpen s = .error (.usage .nestedOpen) := by
  simp [txOpen, h]

/-- TX_CLOSE (41_framing.md R143). -/
theorem txClose_eq (s : State) :
    txClose s =
      { s with
        tx := .idle
        pin := s.pin.applyAll (txCloseEvents s.cfg)
        env := s.env.seeAll s.pin (txCloseEvents s.cfg)
        seq := { op := s.seq.op, phase := some .txClose, sub := 3 } } := by
  simp [txClose, State.emitAll_eq, State.atPhase, txCloseEvents]

/-- The pins after WRITE_BYTE (42_byte_shift.md R150). -/
theorem applyAll_writeByteEvents (r : PinRegs) (d : BitVec 16) (v : Byte) :
    r.applyAll (writeByteEvents d v) =
      { r with ioDir := .output, ioPull := .none, clkO := .high, ioO := lvl (v.getLsbD 7) } := by
  simp [writeByteEvents, byteLevels, eightBits, writeBitEvents, PinRegs.apply]

/-- One bit of WRITE_BYTE. -/
theorem writeBit_eq (i : Nat) (s : State) :
    writeBit i s =
      { s with
        pin := s.pin.applyAll (writeBitEvents s.cfg.clkDelay (lvl (s.x.sr.getLsbD 0)))
        env := s.env.seeAll s.pin (writeBitEvents s.cfg.clkDelay (lvl (s.x.sr.getLsbD 0)))
        x := { s.x with sr := s.x.sr >>> 1, bc := BitVec.ofNat 4 i }
        seq := { s.seq with sub := 5 } } := by
  simp [writeBit, State.emitAll_eq, State.setBC, State.beginBit, State.setSR, writeBitEvents]

/-- WRITE_BYTE in an open transaction (42_byte_shift.md R150), said once. -/
theorem shiftOut_eq (v : Byte) (s : State) :
    shiftOut v s =
      { s with
        pin := { s.pin with ioDir := .output, ioPull := .none, clkO := .high, ioO := lvl (v.getLsbD 7) }
        env := s.env.seeAll s.pin (writeByteEvents s.cfg.clkDelay v)
        x := { s.x with sr := 0, bc := 8 }
        seq := { s.seq with sub := 5 } } := by
  have h8 : v >>> 8 = 0#8 := by
    ext i hi; simp
  rw [← applyAll_writeByteEvents s.pin s.cfg.clkDelay v]
  simp [shiftOut, eightBits, writeBit_eq, State.emit, State.beginBit, State.setSR, State.setBC, writeByteEvents,
    byteLevels, h8, Env.seeAll_append, Seq.advance]

theorem writeByte_ok {s : State} (v : Byte) (h : s.tx = .opened) : writeByte v s = .ok (shiftOut v s) := by
  simp [writeByte, h]

theorem writeByte_idle {s : State} (v : Byte) (h : s.tx = .idle) :
    writeByte v s = .error (.usage .transferWhileIdle) := by
  simp [writeByte, h]

theorem readByte_ok {s : State} (h : s.tx = .opened) : readByte s = .ok (shiftIn s) := by simp [readByte, h]

theorem readByte_idle {s : State} (h : s.tx = .idle) : readByte s = .error (.usage .transferWhileIdle) := by
  simp [readByte, h]

/-! ### READ_BYTE -/

/-- The environment over one bit of READ_BYTE: the pulse, then the sample. -/
def Env.readBit (r : PinRegs) (d : BitVec 16) (e : Env) : Level × Env :=
  let q := (e.seeAll r (readPulseEvents d)).sample (r.applyAll (readPulseEvents d)) .io
  (q.1, q.2.record (.rd .io q.1))

/-- The environment over `n` bits of READ_BYTE, and the levels it answered. -/
def Env.readBits (d : BitVec 16) : Nat → PinRegs → Env → List Level × Env
  | 0, _, e => ([], e)
  | n + 1, r, e =>
    let q := e.readBit r d
    let t := Env.readBits d n { r with clkO := .low } q.2
    (q.1 :: t.1, t.2)

/-- The levels as bits of a byte, the first at position `k`. -/
def levelsAt (k : Nat) : List Level → Byte
  | [] => 0
  | l :: ls => ((BitVec.ofBool (bit l)).setWidth 8 <<< k) ||| levelsAt (k + 1) ls

@[simp] theorem Env.readBits_length (d : BitVec 16) (n : Nat) (r : PinRegs) (e : Env) :
    (e.readBits d n r).1.length = n := by
  induction n generalizing r e with
  | zero => rfl
  | succ n ih => simp [Env.readBits, ih]

theorem Env.readBit_trace (r : PinRegs) (d : BitVec 16) (e : Env) :
    (e.readBit r d).2.trace = e.trace ++ (readPulseEvents d ++ [.rd .io (e.readBit r d).1]) := by
  simp [Env.readBit]

theorem Env.readBits_trace (d : BitVec 16) (n : Nat) (r : PinRegs) (e : Env) :
    (e.readBits d n r).2.trace =
      e.trace ++ (e.readBits d n r).1.flatMap fun l => readPulseEvents d ++ [.rd .io l] := by
  induction n generalizing r e with
  | zero => simp [Env.readBits]
  | succ n ih => simp [Env.readBits, ih, Env.readBit_trace]

@[simp] theorem Env.readBits_validPins (d : BitVec 16) (n : Nat) (r : PinRegs) (e : Env) :
    (e.readBits d n r).2.validPins = e.validPins := by
  induction n generalizing r e with
  | zero => rfl
  | succ n ih => simp [Env.readBits, ih, Env.readBit]

/-- One bit of READ_BYTE. -/
theorem readBit_eq (i : Nat) (h : i < 16) (s : State) :
    readBit i s =
      { s with
        pin := { s.pin with clkO := .low }
        env := (s.env.readBit s.pin s.cfg.clkDelay).2
        x :=
          { s.x with
            sr := s.x.sr ||| ((BitVec.ofBool (bit (s.env.readBit s.pin s.cfg.clkDelay).1)).setWidth 8 <<< i)
            bc := BitVec.ofNat 4 i }
        seq := { s.seq with sub := 5 } } := by
  simp [readBit, State.emitAll_eq, State.setBC, State.beginBit, State.setSR, readPulseEvents, State.emitRead,
    Env.readBit, PinRegs.apply, Seq.advance, Nat.mod_eq_of_lt h]

/-- The bits `k` to `k + n` of READ_BYTE. -/
theorem foldl_readBit (n k : Nat) (h : k + n < 15) (s : State) :
    (List.range' k (n + 1)).foldl (fun t i => readBit i t) s =
      { s with
        pin := { s.pin with clkO := .low }
        env := (s.env.readBits s.cfg.clkDelay (n + 1) s.pin).2
        x :=
          { s.x with
            sr := s.x.sr ||| levelsAt k (s.env.readBits s.cfg.clkDelay (n + 1) s.pin).1
            bc := BitVec.ofNat 4 (k + n) }
        seq := { s.seq with sub := 5 } } := by
  induction n generalizing k s with
  | zero => simp [List.range', readBit_eq k (by omega), Env.readBits, levelsAt]
  | succ n ih =>
    rw [List.range'_succ, List.foldl_cons, ih (k + 1) (by omega), readBit_eq k (by omega)]
    simp [Env.readBits, levelsAt, BitVec.or_assoc, Nat.add_assoc, Nat.add_comm 1]

/-- Eight levels and the byte they make. -/
theorem byteLevels_levelsAt {ls : List Level} (h : ls.length = 8) : byteLevels (levelsAt 0 ls) = ls := by
  match ls, h with
  | [a, b, c, d, e, f, g, i], _ =>
    cases a <;> cases b <;> cases c <;> cases d <;> cases e <;> cases f <;> cases g <;> cases i <;> decide

/-- The environment over one READ_BYTE, and the byte its answers make. -/
def Env.readByte (d : BitVec 16) (u : Pull) (r : PinRegs) (e : Env) : Byte × Env :=
  let r := { r with ioDir := .input, ioPull := u }
  let q := (e.see r (.dir .io .input u)).readBits d 8 r
  (levelsAt 0 q.1, q.2)

theorem Env.readByte_trace (d : BitVec 16) (u : Pull) (r : PinRegs) (e : Env) :
    (e.readByte d u r).2.trace = e.trace ++ readByteEvents d u (e.readByte d u r).1 := by
  simp [Env.readByte, Env.readBits_trace, readByteEvents, byteLevels_levelsAt]

@[simp] theorem Env.readByte_validPins (d : BitVec 16) (u : Pull) (r : PinRegs) (e : Env) :
    (e.readByte d u r).2.validPins = e.validPins := by
  simp [Env.readByte]

/-- READ_BYTE in an open transaction (42_byte_shift.md R152), said once: the byte's bits are the eight levels
the environment answered. -/
theorem shiftIn_eq (s : State) :
    shiftIn s =
      ((s.env.readByte s.cfg.clkDelay s.cfg.ioPull s.pin).1,
        { s with
          pin := { s.pin with ioDir := .input, ioPull := s.cfg.ioPull, clkO := .low }
          env := (s.env.readByte s.cfg.clkDelay s.cfg.ioPull s.pin).2
          x := { s.x with sr := (s.env.readByte s.cfg.clkDelay s.cfg.ioPull s.pin).1, bc := 8 }
          seq := { s.seq with sub := 5 } }) := by
  have h : eightBits = List.range' 0 8 := rfl
  simp only [shiftIn, h]
  rw [foldl_readBit 7 0 (by omega)]
  simp [State.emit, State.beginBit, State.setSR, State.setBC, PinRegs.apply, Seq.advance, Env.readByte]

end Sys2Proof.Machine
end

