-- ==== Sys2Proof/Laws/Frames.lean ====
section
/-! SUPPORT. What the transactions do, said once: a write frame emits the events of its bytes, a read frame the
events of the bytes the environment answered; both leave the pins as TX_CLOSE does. -/

namespace Sys2Proof.Machine

/-! ### Pins -/

theorem applyAll_txOpenEvents (r : PinRegs) (cfg : Cfg) :
    r.applyAll (txOpenEvents cfg) =
      { r with
        clkO := .low
        ceO := .high
        ioDir := if cfg.dataResetOrder = .none then r.ioDir else .input
        ioPull := if cfg.dataResetOrder = .none then r.ioPull else cfg.ioPull } := by
  unfold txOpenEvents dataLineReset
  cases cfg.dataResetOrder <;> simp [PinRegs.apply] <;> split <;> simp [PinRegs.apply]

theorem applyAll_txCloseEvents (r : PinRegs) (cfg : Cfg) :
    r.applyAll (txCloseEvents cfg) = r.closed cfg.ioPull r.ioO := by
  simp [txCloseEvents, PinRegs.apply, PinRegs.closed]

theorem applyAll_writeBytes (d : BitVec 16) (bytes : List Byte) (r : PinRegs) (b : Byte)
    (hr : r.ioDir = .output ∧ r.ioPull = .none ∧ r.clkO = .high ∧ r.ioO = lvl (b.getLsbD 7)) :
    r.applyAll (bytes.flatMap (writeByteEvents d)) = { r with ioO := lvl ((bytes.getLastD b).getLsbD 7) } := by
  induction bytes generalizing r b with
  | nil => obtain ⟨h1, h2, h3, h4⟩ := hr; cases r; simp_all
  | cons c bytes ih =>
    rw [List.flatMap_cons, PinRegs.applyAll_append, applyAll_writeByteEvents, ih _ c ⟨rfl, rfl, rfl, rfl⟩,
      List.getLastD_cons]
    obtain ⟨h1, h2, h3, -⟩ := hr
    cases r
    simp only at h1 h2 h3
    subst h1 h2 h3
    rfl

/-- The pins after a write frame (44_burst_transactions.md R183). -/
theorem applyAll_writeFrame (r : PinRegs) (cfg : Cfg) (c : Byte) (bytes : List Byte) :
    r.applyAll (writeFrame cfg c bytes) = r.closed cfg.ioPull (lvl ((bytes.getLastD c).getLsbD 7)) := by
  rw [writeFrame, PinRegs.applyAll_append, PinRegs.applyAll_append, List.flatMap_cons, PinRegs.applyAll_append,
    applyAll_txCloseEvents, applyAll_writeByteEvents, applyAll_writeBytes _ _ _ c (by simp), applyAll_txOpenEvents]
  simp [PinRegs.closed]

/-! ### Write frames -/

/-- The data bytes of a write frame in an open transaction. -/
theorem writeBytes_ok (bytes : List Byte) {s : State} (h : s.tx = .opened) :
    writeBytes bytes s = .ok
      { s with
        pin := s.pin.applyAll (bytes.flatMap (writeByteEvents s.cfg.clkDelay))
        env := s.env.seeAll s.pin (bytes.flatMap (writeByteEvents s.cfg.clkDelay))
        x :=
          { s.x with
            sr := if bytes = [] then s.x.sr else 0
            bc := if bytes = [] then s.x.bc else 8
            bi := s.x.bi + BitVec.ofNat 5 bytes.length }
        seq := if bytes = [] then s.seq else { op := s.seq.op, phase := some .dataByte, sub := 5 } } := by
  induction bytes generalizing s with
  | nil => simp [writeBytes]
  | cons b bytes ih =>
    simp only [writeBytes]
    rw [writeByte_ok b (by simpa using h), ok_bind, ih (by simp [shiftOut_eq, h]), shiftOut_eq]
    cases bytes <;>
      simp [State.atPhase, State.nextBI, Env.seeAll_append, applyAll_writeByteEvents, BitVec.add_assoc,
        ← BitVec.ofNat_add, Nat.add_comm 1]

/-- BURST_WRITE from Idle (44_burst_transactions.md R183), said once. -/
theorem burstWrite_ok (c : Byte) (bytes : List Byte) {s : State} (h : s.tx = .idle) :
    burstWrite c bytes s = .ok
      { s with
        pin := s.pin.closed s.cfg.ioPull (lvl ((bytes.getLastD c).getLsbD 7))
        env := s.env.seeAll s.pin (writeFrame s.cfg c bytes)
        x :=
          { sr := 0, bc := 8, bi := BitVec.ofNat 5 bytes.length, bn := BitVec.ofNat 5 bytes.length, cmd := c }
        seq := { op := s.seq.op, phase := some .txClose, sub := 3 } } := by
  simp only [burstWrite]
  rw [txOpen_ok (by simpa using h), ← applyAll_writeFrame, ok_bind, writeByte_ok c (by simp), ok_bind,
    writeBytes_ok bytes (by simp [shiftOut_eq]), ok_bind, pure_eq_ok, txClose_eq, shiftOut_eq]
  have ht : s.tx = TxState.idle := h
  cases bytes <;>
    simp [State.beginTransaction, State.atPhase, writeFrame, Env.seeAll_append, applyAll_writeByteEvents, ht]

/-- BURST_WRITE from Open (44_burst_transactions.md R183). -/
theorem burstWrite_nested (c : Byte) (bytes : List Byte) {s : State} (h : s.tx = .opened) :
    burstWrite c bytes s = .error (.usage .nestedOpen) := by
  simp only [burstWrite]
  rw [txOpen_nested (by simpa using h)]
  rfl

/-- REG_WRITE is a write frame of one data byte (44_burst_transactions.md R181). -/
theorem regWrite_eq (c v : Byte) (s : State) : regWrite c v s = burstWrite c [v] s := by
  cases h : s.tx with
  | opened =>
    rw [burstWrite_nested c [v] h]
    simp only [regWrite]
    rw [txOpen_nested (by simpa using h)]
    rfl
  | idle =>
    rw [burstWrite_ok c [v] h, ← applyAll_writeFrame]
    simp only [regWrite]
    rw [txOpen_ok (by simpa using h), ok_bind, writeByte_ok c (by simp), ok_bind,
      writeByte_ok v (by simp [shiftOut_eq]), ok_bind, pure_eq_ok, txClose_eq, shiftOut_eq, shiftOut_eq]
    simp [State.beginTransaction, State.atPhase, State.setBI, writeFrame, Env.seeAll_append,
      applyAll_writeByteEvents, h]

/-! ### Read frames -/

/-- The environment over `n` bytes of READ_BYTE, and the bytes its answers make. -/
def Env.readBytes (d : BitVec 16) (u : Pull) : Nat → PinRegs → Env → List Byte × Env
  | 0, _, e => ([], e)
  | n + 1, r, e =>
    let q := e.readByte d u r
    let t := Env.readBytes d u n { r with ioDir := .input, ioPull := u, clkO := .low } q.2
    (q.1 :: t.1, t.2)

@[simp] theorem Env.readBytes_length (d : BitVec 16) (u : Pull) (n : Nat) (r : PinRegs) (e : Env) :
    (e.readBytes d u n r).1.length = n := by
  induction n generalizing r e with
  | zero => rfl
  | succ n ih => simp [Env.readBytes, ih]

theorem Env.readBytes_trace (d : BitVec 16) (u : Pull) (n : Nat) (r : PinRegs) (e : Env) :
    (e.readBytes d u n r).2.trace = e.trace ++ (e.readBytes d u n r).1.flatMap (readByteEvents d u) := by
  induction n generalizing r e with
  | zero => simp [Env.readBytes]
  | succ n ih =>
    simp [Env.readBytes, ih, Env.readByte_trace]

@[simp] theorem Env.readBytes_validPins (d : BitVec 16) (u : Pull) (n : Nat) (r : PinRegs) (e : Env) :
    (e.readBytes d u n r).2.validPins = e.validPins := by
  induction n generalizing r e with
  | zero => rfl
  | succ n ih => simp [Env.readBytes, ih]

theorem Env.readBytes_succ (d : BitVec 16) (u : Pull) (n : Nat) (r : PinRegs) (e : Env) :
    e.readBytes d u (n + 1) r =
      let q := e.readByte d u r
      let t := Env.readBytes d u n { r with ioDir := .input, ioPull := u, clkO := .low } q.2
      (q.1 :: t.1, t.2) := by
  rw [Env.readBytes]

/-- The state after the `n` data bytes `q.1` of a read frame, the environment then being `q.2`. -/
def State.afterReads (n : Nat) (q : List Byte × Env) (s : State) : State :=
  { s with
    pin := if n = 0 then s.pin else { s.pin with ioDir := .input, ioPull := s.cfg.ioPull, clkO := .low }
    env := q.2
    x :=
      { s.x with
        sr := q.1.getLastD s.x.sr
        bc := if n = 0 then s.x.bc else 8
        bi := s.x.bi + BitVec.ofNat 5 n }
    seq := if n = 0 then s.seq else { op := s.seq.op, phase := some .dataByte, sub := 5 } }
/-- The data bytes of a read frame in an open transaction. -/
theorem readBytes_ok (n : Nat) {s : State} (h : s.tx = .opened) :
    readBytes n s = .ok ((s.env.readBytes s.cfg.clkDelay s.cfg.ioPull n s.pin).1,
      s.afterReads n (s.env.readBytes s.cfg.clkDelay s.cfg.ioPull n s.pin)) := by
  induction n generalizing s with
  | zero => simp [readBytes, Env.readBytes, State.afterReads]
  | succ n ih =>
    have h1 : readByte (s.atPhase .dataByte) = .ok ((s.env.readByte s.cfg.clkDelay s.cfg.ioPull s.pin).1,
        { s with
          pin := { s.pin with ioDir := .input, ioPull := s.cfg.ioPull, clkO := .low }
          env := (s.env.readByte s.cfg.clkDelay s.cfg.ioPull s.pin).2
          x := { s.x with sr := (s.env.readByte s.cfg.clkDelay s.cfg.ioPull s.pin).1, bc := 8 }
          seq := { op := s.seq.op, phase := some .dataByte, sub := 5 } }) := by
      rw [readByte_ok (by simpa using h), shiftIn_eq]
      rfl
    rw [readBytes, h1, Env.readBytes_succ]
    generalize s.env.readByte s.cfg.clkDelay s.cfg.ioPull s.pin = b
    dsimp only [ok_bind]
    rw [ih (by simpa using h)]
    generalize hq : Env.readBytes s.cfg.clkDelay s.cfg.ioPull n
      { s.pin with ioDir := .input, ioPull := s.cfg.ioPull, clkO := .low } b.2 = q
    dsimp only [State.nextBI]
    rw [hq]
    dsimp only [ok_bind, pure_eq_ok]
    cases n <;>
      simp [State.afterReads, BitVec.add_assoc, ← BitVec.ofNat_add, Nat.add_comm 1, List.getLast?_cons]

/-- The environment over a whole read frame, and the bytes its answers make. -/
def Env.frameRead (cfg : Cfg) (c : Byte) (n : Nat) (r : PinRegs) (e : Env) : List Byte × Env :=
  let opening := txOpenEvents cfg ++ writeByteEvents cfg.clkDelay c
  let q := (e.seeAll r opening).readBytes cfg.clkDelay cfg.ioPull n (r.applyAll opening)
  (q.1, q.2.seeAll { r with
    clkO := if n = 0 then .high else .low
    ceO := .high
    ioDir := if n = 0 then .output else .input
    ioPull := if n = 0 then .none else cfg.ioPull
    ioO := lvl (c.getLsbD 7) } (txCloseEvents cfg))

@[simp] theorem Env.frameRead_length (cfg : Cfg) (c : Byte) (n : Nat) (r : PinRegs) (e : Env) :
    (e.frameRead cfg c n r).1.length = n := by
  simp [Env.frameRead]

/-- The trace of a read frame is that of the bytes it returns (44_burst_transactions.md R182). -/
theorem Env.frameRead_trace (cfg : Cfg) (c : Byte) (n : Nat) (r : PinRegs) (e : Env) :
    (e.frameRead cfg c n r).2.trace = e.trace ++ readFrame cfg c (e.frameRead cfg c n r).1 := by
  simp [Env.frameRead, Env.readBytes_trace, readFrame]

@[simp] theorem Env.frameRead_validPins (cfg : Cfg) (c : Byte) (n : Nat) (r : PinRegs) (e : Env) :
    (e.frameRead cfg c n r).2.validPins = e.validPins := by
  simp [Env.frameRead]

/-- BURST_READ from Idle (44_burst_transactions.md R182), said once. -/
theorem burstRead_ok (c : Byte) (n : Nat) {s : State} (h : s.tx = .idle) :
    let q := s.env.frameRead s.cfg c n s.pin
    burstRead c n s = .ok (q.1,
      { s with
        pin := s.pin.closed s.cfg.ioPull (lvl (c.getLsbD 7))
        env := q.2
        x := { sr := q.1.getLastD 0, bc := 8, bi := BitVec.ofNat 5 n, bn := BitVec.ofNat 5 n, cmd := c }
        seq := { op := s.seq.op, phase := some .txClose, sub := 3 } }) := by
  simp only [burstRead]
  rw [txOpen_ok (by simpa using h), ok_bind, writeByte_ok c (by simp), ok_bind,
    readBytes_ok n (by simp [shiftOut_eq])]
  simp only [ok_bind, pure_eq_ok]
  rw [txClose_eq, shiftOut_eq]
  cases n <;>
    simp [State.beginTransaction, State.atPhase, State.afterReads, Env.frameRead, Env.seeAll_append, applyAll_txOpenEvents,
      applyAll_writeByteEvents, applyAll_txCloseEvents, PinRegs.closed, h]

/-- BURST_READ from Open (44_burst_transactions.md R182). -/
theorem burstRead_nested (c : Byte) (n : Nat) {s : State} (h : s.tx = .opened) :
    burstRead c n s = .error (.usage .nestedOpen) := by
  simp only [burstRead]
  rw [txOpen_nested (by simpa using h)]
  rfl

end Sys2Proof.Machine
end

