-- ==== Sys2Proof/Laws/Answers.lean ====
section
/-! SUPPORT. With no peripheral assumed, the bytes a transaction reads are the levels the environment has fixed
beforehand, bit 0 first (20_memory.md R75, 42_byte_shift.md R155). -/

namespace Sys2Proof.Machine

theorem Env.readBit_answers {e : Env} (r : PinRegs) (d : BitVec 16) {l : Level} {rest : List Level}
    (hp : e.periph = none) (ha : e.answers = l :: rest) :
    e.readBit r d =
      (l, { e with trace := e.trace ++ (readPulseEvents d ++ [.rd .io l]), answers := rest }) := by
  simp [Env.readBit, Env.seeAll_none hp, Env.sample_none, hp, Env.draw, ha, Env.record]

theorem Env.readBits_answers (d : BitVec 16) (ls rest : List Level) (r : PinRegs) {e : Env}
    (hp : e.periph = none) (ha : e.answers = ls ++ rest) :
    e.readBits d ls.length r =
      (ls, { e with
        trace := e.trace ++ ls.flatMap fun l => readPulseEvents d ++ [.rd .io l]
        answers := rest }) := by
  induction ls generalizing r e with
  | nil => subst ha; simp [Env.readBits]
  | cons l ls ih =>
    rw [List.length_cons, Env.readBits, Env.readBit_answers r d hp ha]
    dsimp only
    rw [ih _ (by exact hp) rfl]
    simp

/-- The byte whose levels are `byteLevels v` is `v`: LSB first both ways (42_byte_shift.md R155). -/
theorem levelsAt_byteLevels (v : Byte) : levelsAt 0 (byteLevels v) = v := by
  revert v
  decide +kernel

@[simp] theorem byteLevels_length (v : Byte) : (byteLevels v).length = 8 := rfl

theorem Env.readByte_answers (d : BitVec 16) (u : Pull) (r : PinRegs) (v : Byte) {rest : List Level} {e : Env}
    (hp : e.periph = none) (ha : e.answers = byteLevels v ++ rest) :
    e.readByte d u r = (v, { e with trace := e.trace ++ readByteEvents d u v, answers := rest }) := by
  have h := Env.readBits_answers d (byteLevels v) rest { r with ioDir := .input, ioPull := u }
    (e := e.record (.dir .io .input u)) hp ha
  rw [byteLevels_length] at h
  rw [Env.readByte, Env.see_none hp, h]
  simp [levelsAt_byteLevels, readByteEvents, Env.record]

theorem Env.readBytes_answers (d : BitVec 16) (u : Pull) (bytes : List Byte) (rest : List Level) (r : PinRegs)
    {e : Env} (hp : e.periph = none) (ha : e.answers = bytesLevels bytes ++ rest) :
    e.readBytes d u bytes.length r =
      (bytes, { e with trace := e.trace ++ bytes.flatMap (readByteEvents d u), answers := rest }) := by
  induction bytes generalizing r e with
  | nil => simp [bytesLevels] at ha; simp [Env.readBytes, ← ha]
  | cons v bytes ih =>
    rw [List.length_cons, Env.readBytes_succ,
      Env.readByte_answers d u r v (rest := bytesLevels bytes ++ rest) hp (by simpa [bytesLevels] using ha)]
    dsimp only
    rw [ih _ (by exact hp) rfl]
    simp

/-- A read frame returns the bytes the environment has fixed (44_burst_transactions.md R182). -/
theorem Env.frameRead_answers (cfg : Cfg) (c : Byte) (bytes : List Byte) (rest : List Level) (r : PinRegs)
    {e : Env} (hp : e.periph = none) (ha : e.answers = bytesLevels bytes ++ rest) :
    e.frameRead cfg c bytes.length r =
      (bytes, { e with trace := e.trace ++ readFrame cfg c bytes, answers := rest }) := by
  rw [Env.frameRead, Env.seeAll_none hp,
    Env.readBytes_answers (e := { e with trace := e.trace ++ (txOpenEvents cfg ++ writeByteEvents cfg.clkDelay c) })
      _ _ bytes rest _ hp ha]
  dsimp only
  rw [Env.seeAll_none (by exact hp)]
  simp [readFrame]

end Sys2Proof.Machine
end

