-- ==== Sys2Proof/Laws/Operations.lean ====
section
/-! SUPPORT. Each operation's whole effect, said once per case. -/

namespace Sys2Proof.Machine

/-! ### The ways an operation ends -/

theorem raise_eq (e : EngineError) (s : State) : s.raise e = refusedWith e s := rfl
theorem respond_eq (v : Value) (s : State) : s.respond v = finishedWith v s := rfl
theorem deliver_eq (v : Value) (s : State) : s.deliver v = answeredWith v s := rfl

/-! ### The state after each way an operation ends, one lemma per field -/

@[simp] theorem failedWith_drv (err : BitVec 3) (info : BitVec 8) (s : State) :
    (failedWith err info s).drv = s.drv := rfl
@[simp] theorem failedWith_tx (err : BitVec 3) (info : BitVec 8) (s : State) : (failedWith err info s).tx = s.tx := rfl
@[simp] theorem failedWith_pin (err : BitVec 3) (info : BitVec 8) (s : State) :
    (failedWith err info s).pin = s.pin := rfl
@[simp] theorem failedWith_cfg (err : BitVec 3) (info : BitVec 8) (s : State) :
    (failedWith err info s).cfg = s.cfg := rfl
@[simp] theorem failedWith_x (err : BitVec 3) (info : BitVec 8) (s : State) : (failedWith err info s).x = s.x := rfl
@[simp] theorem failedWith_buf (err : BitVec 3) (info : BitVec 8) (s : State) :
    (failedWith err info s).buf = s.buf := rfl
@[simp] theorem failedWith_status (err : BitVec 3) (info : BitVec 8) (s : State) :
    (failedWith err info s).status = { busy := false, err := err, info := info } := rfl
@[simp] theorem failedWith_seq (err : BitVec 3) (info : BitVec 8) (s : State) :
    (failedWith err info s).seq = .idle := rfl
@[simp] theorem failedWith_port (err : BitVec 3) (info : BitVec 8) (s : State) :
    (failedWith err info s).port = s.port := rfl
@[simp] theorem failedWith_resp (err : BitVec 3) (info : BitVec 8) (s : State) :
    (failedWith err info s).resp = some { err := err, info := info, value := .none } := rfl
@[simp] theorem failedWith_env (err : BitVec 3) (info : BitVec 8) (s : State) :
    (failedWith err info s).env = s.env := rfl

@[simp] theorem finishedWith_drv (v : Value) (s : State) : (finishedWith v s).drv = s.drv := rfl
@[simp] theorem finishedWith_tx (v : Value) (s : State) : (finishedWith v s).tx = s.tx := rfl
@[simp] theorem finishedWith_pin (v : Value) (s : State) : (finishedWith v s).pin = s.pin := rfl
@[simp] theorem finishedWith_cfg (v : Value) (s : State) : (finishedWith v s).cfg = s.cfg := rfl
@[simp] theorem finishedWith_x (v : Value) (s : State) : (finishedWith v s).x = s.x := rfl
@[simp] theorem finishedWith_buf (v : Value) (s : State) : (finishedWith v s).buf = s.buf := rfl
@[simp] theorem finishedWith_status (v : Value) (s : State) :
    (finishedWith v s).status = { busy := false, err := 0, info := 0 } := rfl
@[simp] theorem finishedWith_seq (v : Value) (s : State) : (finishedWith v s).seq = .idle := rfl
@[simp] theorem finishedWith_port (v : Value) (s : State) : (finishedWith v s).port = s.port := rfl
@[simp] theorem finishedWith_resp (v : Value) (s : State) :
    (finishedWith v s).resp = some { err := 0, info := 0, value := v } := rfl
@[simp] theorem finishedWith_env (v : Value) (s : State) : (finishedWith v s).env = s.env := rfl

@[simp] theorem answeredWith_drv (v : Value) (s : State) : (answeredWith v s).drv = s.drv := rfl
@[simp] theorem answeredWith_tx (v : Value) (s : State) : (answeredWith v s).tx = s.tx := rfl
@[simp] theorem answeredWith_pin (v : Value) (s : State) : (answeredWith v s).pin = s.pin := rfl
@[simp] theorem answeredWith_cfg (v : Value) (s : State) : (answeredWith v s).cfg = s.cfg := rfl
@[simp] theorem answeredWith_x (v : Value) (s : State) : (answeredWith v s).x = s.x := rfl
@[simp] theorem answeredWith_buf (v : Value) (s : State) : (answeredWith v s).buf = s.buf := rfl
@[simp] theorem answeredWith_status (v : Value) (s : State) : (answeredWith v s).status = s.status := rfl
@[simp] theorem answeredWith_seq (v : Value) (s : State) : (answeredWith v s).seq = .idle := rfl
@[simp] theorem answeredWith_port (v : Value) (s : State) : (answeredWith v s).port = s.port := rfl
@[simp] theorem answeredWith_resp (v : Value) (s : State) :
    (answeredWith v s).resp = some { err := 0, info := 0, value := v } := rfl
@[simp] theorem answeredWith_env (v : Value) (s : State) : (answeredWith v s).env = s.env := rfl

/-! ### Transactions -/

theorem burstWrite_eq (c : Byte) (bytes : List Byte) {s : State} (h : s.tx = .idle) :
    burstWrite c bytes s = .ok
      { s.afterWriteFrame c bytes with seq := { op := s.seq.op, phase := some .txClose, sub := 3 } } := by
  rw [burstWrite_ok c bytes h]; rfl

theorem burstRead_eq (c : Byte) (n : Nat) {s : State} (h : s.tx = .idle) :
    burstRead c n s = .ok ((s.env.frameRead s.cfg c n s.pin).1,
      { s.afterReadFrame c (s.env.frameRead s.cfg c n s.pin).1 (s.env.frameRead s.cfg c n s.pin).2 with
        seq := { op := s.seq.op, phase := some .txClose, sub := 3 } }) := by
  rw [burstRead_ok c n h]
  simp [State.afterReadFrame]

theorem execRegWrite_ok (c v : Byte) {s : State} (h : s.tx = .idle) :
    execRegWrite c v s = .next (answeredWith .none (s.afterWriteFrame c [v])) := by
  rw [execRegWrite, regWrite_eq, burstWrite_eq c [v] h]; rfl

theorem execBurstWrite_ok (c : Byte) (n : BitVec 5) (data : Vector Byte 31) {s : State} (h : s.tx = .idle) :
    execBurstWrite c n data s =
      .next (answeredWith .none (s.afterWriteFrame c (data.toList.take n.toNat))) := by
  rw [execBurstWrite, burstWrite_eq c _ h]; rfl

theorem execBurstRead_ok (c : Byte) (n : BitVec 5) {s : State} (h : s.tx = .idle) :
    execBurstRead c n s =
      .next (answeredWith (.bytes (s.env.frameRead s.cfg c n.toNat s.pin).1)
        (s.afterReadFrame c (s.env.frameRead s.cfg c n.toNat s.pin).1
          (s.env.frameRead s.cfg c n.toNat s.pin).2)) := by
  rw [execBurstRead, burstRead_eq c _ h]; rfl

theorem execCmdWp_ok {s : State} (h : s.tx = .idle) :
    execCmdWp s = .next (answeredWith .none (s.afterWriteFrame 0x8E [0x00])) := by
  rw [execCmdWp, regWrite_eq, burstWrite_eq _ _ h]; rfl

theorem execCmdTcs_ok {s : State} (h : s.tx = .idle) :
    execCmdTcs s = .next (answeredWith .none (s.afterWriteFrame 0x90 [0x00])) := by
  rw [execCmdTcs, regWrite_eq, burstWrite_eq _ _ h]; rfl

theorem execCmdClkWr_ok {s : State} (h : s.tx = .idle) :
    execCmdClkWr s = .next (answeredWith .none (s.afterWriteFrame 0xBE s.buf.img.toList)) := by
  rw [execCmdClkWr, clockWrite, burstWrite_eq _ _ h]; rfl

theorem execCmdRamWr_ok (len : BitVec 8) {s : State} (h : s.tx = .idle) :
    execCmdRamWr len s =
      .next (answeredWith .none (s.afterWriteFrame 0xFE (s.buf.ram.toList.take (min len.toNat 31)))) := by
  rw [execCmdRamWr, ramWrite, burstWrite_eq _ _ h]; rfl

/-- A buffer wholly loaded holds the bytes loaded. -/
theorem loadFront_full {n : Nat} (v : Vector Byte n) (bytes : List Byte) (h : bytes.length = n) :
    (loadFront v bytes).toList = bytes := by
  simp only [loadFront, Vector.toList_mk]
  simp [h, List.take_of_length_le (Nat.le_of_eq h)]

theorem execCmdClkRd_ok {s : State} (h : s.tx = .idle) :
    execCmdClkRd s =
      .next (answeredWith (.image (loadFront s.buf.img (s.env.frameRead s.cfg 0xBF 7 s.pin).1))
        ((s.afterReadFrame 0xBF (s.env.frameRead s.cfg 0xBF 7 s.pin).1
            (s.env.frameRead s.cfg 0xBF 7 s.pin).2).setImg
          (loadFront s.buf.img (s.env.frameRead s.cfg 0xBF 7 s.pin).1))) := by
  rw [execCmdClkRd, clockRead, burstRead_eq _ _ h]
  dsimp only [Config.cmdClkRd, Config.clkImgLen]
  generalize s.env.frameRead s.cfg 191#8 7 s.pin = q
  rfl

theorem execCmdRamRd_ok {s : State} (h : s.tx = .idle) :
    execCmdRamRd s =
      .next (answeredWith (.ram (loadFront s.buf.ram (s.env.frameRead s.cfg 0xFF 31 s.pin).1))
        ((s.afterReadFrame 0xFF (s.env.frameRead s.cfg 0xFF 31 s.pin).1
            (s.env.frameRead s.cfg 0xFF 31 s.pin).2).loadRam (s.env.frameRead s.cfg 0xFF 31 s.pin).1)) := by
  rw [execCmdRamRd, ramRead, burstRead_eq _ _ h]
  dsimp only [Config.cmdRamRd, Config.ramMax]
  generalize s.env.frameRead s.cfg 255#8 31 s.pin = q
  rfl

/-! ### Framing and bytes -/

theorem execTxOpen_ok {s : State} (h : s.tx = .idle) :
    execTxOpen s = .next (answeredWith .none { s with
      tx := .opened
      pin := s.pin.applyAll (txOpenEvents s.cfg)
      env := s.env.seeAll s.pin (txOpenEvents s.cfg) }) := by
  rw [execTxOpen, txOpen_ok h]; rfl

theorem execTxClose_ok (s : State) :
    execTxClose s = .next (answeredWith .none { s with
      tx := .idle
      pin := s.pin.closed s.cfg.ioPull s.pin.ioO
      env := s.env.seeAll s.pin (txCloseEvents s.cfg) }) := by
  rw [execTxClose, txClose_eq, applyAll_txCloseEvents]; rfl

theorem execWriteByte_ok (v : Byte) {s : State} (h : s.tx = .opened) :
    execWriteByte v s = .next (answeredWith .none { s with
      pin := { s.pin with ioDir := .output, ioPull := .none, clkO := .high, ioO := lvl (v.getLsbD 7) }
      env := s.env.seeAll s.pin (writeByteEvents s.cfg.clkDelay v)
      x := { s.x with sr := 0, bc := 8 } }) := by
  rw [execWriteByte, writeByte_ok v h, shiftOut_eq]; rfl

theorem execReadByte_ok {s : State} (h : s.tx = .opened) :
    execReadByte s = .next (answeredWith (.byte (s.env.readByte s.cfg.clkDelay s.cfg.ioPull s.pin).1) { s with
      pin := { s.pin with ioDir := .input, ioPull := s.cfg.ioPull, clkO := .low }
      env := (s.env.readByte s.cfg.clkDelay s.cfg.ioPull s.pin).2
      x := { s.x with sr := (s.env.readByte s.cfg.clkDelay s.cfg.ioPull s.pin).1, bc := 8 } }) := by
  rw [execReadByte, readByte_ok h, shiftIn_eq]; rfl

/-! ### Host operations -/

/-- The four checks of INIT (45_driver_operations.md R200), in order. -/
theorem initGate_ok {clkId ioId ceId : PinId} {s : State} (hd : s.drv = .uninitialized) (ht : s.tx = .idle)
    (hn : clkId ≠ ioId ∧ clkId ≠ ceId ∧ ioId ≠ ceId)
    (hv : clkId ∈ s.env.validPins ∧ ioId ∈ s.env.validPins ∧ ceId ∈ s.env.validPins) :
    initGate clkId ioId ceId s = .ok () := by
  simp [initGate, hd, ht, hn, pinValid, hv]

/-- INIT once its checks have passed (45_driver_operations.md R200). -/
def State.afterInit (cfg : Cfg) (s : State) : State :=
  { s with
    drv := .ready
    cfg := cfg
    pin :=
      { clkDir := .output, clkO := .low, ceDir := .output, ceO := .low, ioDir := .input, ioO := .low,
        ioPull := cfg.ioPull }
    env :=
      s.env.seeAll s.pin
        ([.dir .clk .output .none, .wr .clk .low, .dir .ce .output .none, .wr .ce .low] ++
          writeFrame cfg 0x8E [0x00] ++ writeFrame cfg 0x90 [0x00])
    x := { sr := 0, bc := 8, bi := 1, bn := 1, cmd := 0x90 } }

theorem initBody_ok (cfg : Cfg) {s : State} (h : s.tx = .idle) :
    initBody cfg s = .ok
      { s.afterInit cfg with seq := { op := s.seq.op, phase := some .txClose, sub := 3 } } := by
  simp only [initBody]
  rw [State.emitAll_eq, regWrite_eq, burstWrite_eq _ _ (by simpa using h), ok_bind, regWrite_eq,
    burstWrite_eq _ _ (by simpa [State.afterWriteFrame] using h), ok_bind, pure_eq_ok]
  simp [State.afterInit, State.afterWriteFrame, State.atPhase, pinSetupEvents, PinRegs.apply, PinRegs.closed,
    Env.seeAll_append, applyAll_writeFrame, Config.maintenanceValue, lvl]

theorem execInit_ok {clkId ioId ceId : PinId} (clkDelay settleDelay : BitVec 16) (order : DataResetOrder) (pull : Pull)
    {s : State} (hd : s.drv = .uninitialized) (ht : s.tx = .idle) (hn : clkId ≠ ioId ∧ clkId ≠ ceId ∧ ioId ≠ ceId)
    (hv : clkId ∈ s.env.validPins ∧ ioId ∈ s.env.validPins ∧ ceId ∈ s.env.validPins) :
    execInit clkId ioId ceId clkDelay settleDelay order pull s =
      .next (finishedWith .none (s.afterInit
        { clkDelay, settleDelay, dataResetOrder := order, ioPull := pull, pins := { clkId, ioId, ceId } })) := by
  simp only [execInit]
  rw [initGate_ok hd ht hn hv, ok_bind, initBody_ok _ (by simpa using ht), ok_bind, pure_eq_ok]
  rfl

theorem execInit_error {clkId ioId ceId : PinId} (clkDelay settleDelay : BitVec 16) (order : DataResetOrder)
    (pull : Pull) {s : State} {e : EngineError} (h : initGate clkId ioId ceId s = .error e) :
    execInit clkId ioId ceId clkDelay settleDelay order pull s = .next (refusedWith e s) := by
  simp only [execInit]
  rw [h]; rfl

theorem execReadDatetime_ok {s : State} (hd : s.drv = .ready) (ht : s.tx = .idle) :
    execReadDatetime s =
      (let q := s.env.frameRead s.cfg 0xBF 7 s.pin
       let img := loadFront s.buf.img q.1
       let t := (s.afterReadFrame 0xBF q.1 q.2).setImg img
       match bcdDecode img with
       | .ok c => .next (finishedWith (.calendar c) (t.setCal c))
       | .error e => .next (refusedWith e t)) := by
  simp only [execReadDatetime]
  rw [readyGate_ok hd ht]
  simp only [Except.bind, clockRead]
  rw [burstRead_eq _ _ (by simpa using ht)]
  simp only [ok_bind, pure_eq_ok]
  dsimp only [State.setImg_buf, State.accept_env, State.accept_cfg, State.accept_pin]
  generalize s.env.frameRead s.cfg _ _ s.pin = q
  generalize hi : loadFront _ q.1 = img
  have hi' : loadFront s.buf.img q.1 = img := hi
  simp only [hi']
  cases bcdDecode img <;> rfl

theorem execDataOp_gate {s : State} {e : EngineError} (h : readyGate s = .error e) :
    execReadDatetime s = .next (refusedWith e s) ∧ execReadRam s = .next (refusedWith e s) ∧
      (∀ y mo d hh mi sec, execWriteDatetime y mo d hh mi sec s = .next (refusedWith e s)) ∧
      ∀ len image, execWriteRam len image s = .next (refusedWith e s) := by
  refine ⟨?_, ?_, fun y mo d hh mi sec => ?_, fun len image => ?_⟩
  · simp only [execReadDatetime]; rw [h]; rfl
  · simp only [execReadRam]; rw [h]; rfl
  · simp only [execWriteDatetime]; rw [h]; rfl
  · simp only [execWriteRam]; rw [h]; rfl

theorem bcdEncode_ok {year : BitVec 12} {month : BitVec 4} {day hour : BitVec 5} {minute second : BitVec 6} (s : State)
    (h : encodeBounds year.toNat month.toNat day.toNat hour.toNat minute.toNat second.toNat = none) :
    bcdEncode year month day hour minute second s =
      .ok (((s.atPhase .codec).setImg
          (encodeImage year.toNat month.toNat day.toNat hour.toNat minute.toNat second.toNat)).setCal
        { year, month, day, hour, minute, second, weekday := weekdayOf year.toNat month.toNat day.toNat }) := by
  simp only [bcdEncode, h]

theorem bcdEncode_error {year : BitVec 12} {month : BitVec 4} {day hour : BitVec 5} {minute second : BitVec 6}
    {f : CalField} (s : State)
    (h : encodeBounds year.toNat month.toNat day.toNat hour.toNat minute.toNat second.toNat = some f) :
    bcdEncode year month day hour minute second s = .error (.range f) := by
  simp only [bcdEncode, h]

theorem execBcdEncode_ok {year : BitVec 12} {month : BitVec 4} {day hour : BitVec 5} {minute second : BitVec 6}
    (s : State)
    (h : encodeBounds year.toNat month.toNat day.toNat hour.toNat minute.toNat second.toNat = none) :
    execBcdEncode year month day hour minute second s =
      .next (answeredWith
        (.image (encodeImage year.toNat month.toNat day.toNat hour.toNat minute.toNat second.toNat))
        ((s.setImg (encodeImage year.toNat month.toNat day.toNat hour.toNat minute.toNat second.toNat)).setCal
          { year, month, day, hour, minute, second, weekday := weekdayOf year.toNat month.toNat day.toNat })) := by
  rw [execBcdEncode, bcdEncode_ok s h]; rfl

theorem execBcdEncode_error {year : BitVec 12} {month : BitVec 4} {day hour : BitVec 5} {minute second : BitVec 6}
    {f : CalField} (s : State)
    (h : encodeBounds year.toNat month.toNat day.toNat hour.toNat minute.toNat second.toNat = some f) :
    execBcdEncode year month day hour minute second s = .next (refusedWith (.range f) s) := by
  rw [execBcdEncode, bcdEncode_error s h]; rfl

theorem execWriteDatetime_ok {year : BitVec 12} {month : BitVec 4} {day hour : BitVec 5} {minute second : BitVec 6}
    {s : State} (hd : s.drv = .ready) (ht : s.tx = .idle)
    (h : encodeBounds year.toNat month.toNat day.toNat hour.toNat minute.toNat second.toNat = none) :
    execWriteDatetime year month day hour minute second s =
      .next (finishedWith .none
        (((s.setImg (encodeImage year.toNat month.toNat day.toNat hour.toNat minute.toNat second.toNat)).setCal
            { year, month, day, hour, minute, second,
              weekday := weekdayOf year.toNat month.toNat day.toNat }).afterWriteFrame 0xBE
          (encodeImage year.toNat month.toNat day.toNat hour.toNat minute.toNat second.toNat).toList)) := by
  simp only [execWriteDatetime]
  rw [readyGate_ok hd ht, ok_bind, bcdEncode_ok _ h, ok_bind, clockWrite, burstWrite_eq _ _ (by simpa using ht)]
  rfl

theorem execWriteDatetime_error {year : BitVec 12} {month : BitVec 4} {day hour : BitVec 5} {minute second : BitVec 6}
    {s : State} {f : CalField} (hd : s.drv = .ready) (ht : s.tx = .idle)
    (h : encodeBounds year.toNat month.toNat day.toNat hour.toNat minute.toNat second.toNat = some f) :
    execWriteDatetime year month day hour minute second s = .next (refusedWith (.range f) s) := by
  simp only [execWriteDatetime]
  rw [readyGate_ok hd ht, ok_bind, bcdEncode_error _ h]; rfl

theorem execReadRam_ok {s : State} (hd : s.drv = .ready) (ht : s.tx = .idle) :
    execReadRam s =
      .next (finishedWith (.ram (loadFront s.buf.ram (s.env.frameRead s.cfg 0xFF 31 s.pin).1))
        ((s.afterReadFrame 0xFF (s.env.frameRead s.cfg 0xFF 31 s.pin).1
            (s.env.frameRead s.cfg 0xFF 31 s.pin).2).loadRam (s.env.frameRead s.cfg 0xFF 31 s.pin).1)) := by
  simp only [execReadRam]
  rw [readyGate_ok hd ht, ok_bind, ramRead, burstRead_eq _ _ (by simpa using ht)]
  dsimp only [Config.cmdRamRd, Config.ramMax, State.accept_env, State.accept_cfg, State.accept_pin]
  generalize s.env.frameRead s.cfg 255#8 31 s.pin = q
  rfl

/-- The front of a buffer just loaded. -/
theorem loadFront_take {n : Nat} (v : Vector Byte n) (bytes : List Byte) (h : bytes.length ≤ n) :
    (loadFront v bytes).toList.take bytes.length = bytes := by
  simp only [loadFront, Vector.toList_mk]
  rw [List.take_of_length_le h, List.take_left']
  rfl

theorem execWriteRam_ok (len : BitVec 8) (image : Vector Byte 31) {s : State} (hd : s.drv = .ready)
    (ht : s.tx = .idle) :
    execWriteRam len image s =
      .next (finishedWith .none ((s.loadRam (image.toList.take (min len.toNat 31))).afterWriteFrame 0xFE
        (image.toList.take (min len.toNat 31)))) := by
  have hl : (image.toList.take (ramCount len)).length = ramCount len := by
    simp [ramCount]
  have hf := loadFront_take s.buf.ram (image.toList.take (ramCount len)) (by rw [hl]; simp [ramCount])
  rw [hl] at hf
  simp only [execWriteRam]
  rw [readyGate_ok hd ht, ok_bind, ramWrite, burstWrite_eq _ _ (by simpa using ht)]
  simp only [State.loadRam_buf, State.accept_buf, hf]
  rfl

theorem execClose_closed {s : State} (h : s.drv = .closed) : execClose s = .next (finishedWith .none s) := by
  simp only [execClose, h]; rfl

theorem execClose_uninitialized {s : State} (h : s.drv = .uninitialized) :
    execClose s = .next (refusedWith (.usage .notReady) s) := by
  simp only [execClose, h]; rfl

theorem execClose_ready {s : State} (hd : s.drv = .ready) (ht : s.tx = .idle) :
    execClose s = .next (finishedWith .none { s with
      drv := .closed
      pin := { s.pin with clkDir := .input, ioDir := .input, ceDir := .input, ioPull := .none }
      env := { s.env with trace := s.env.trace ++ [.rel .clk, .rel .io, .rel .ce] } }) := by
  have hrel : ∀ (r : PinRegs) (e : Env), e.seeAll r [.rel .clk, .rel .io, .rel .ce] =
      { e with trace := e.trace ++ [.rel .clk, .rel .io, .rel .ce] } := by
    intro r e
    simp only [Env.seeAll_cons, Env.seeAll_nil, Env.see, Env.react]
    simp [Env.record]
  have ht' : ¬ (s.accept .close).tx = .opened := by simp [ht]
  simp only [execClose, hd, closeBody, if_neg ht', State.emitAll_eq, releaseEvents]
  simp [hrel, finishedWith, State.respond, PinRegs.apply]

theorem execClose_opened {s : State} (hd : s.drv = .ready) (ht : s.tx = .opened) :
    execClose s = .next (finishedWith .none { s with
      drv := .closed
      tx := .idle
      pin :=
        { s.pin with
          clkO := .low, ceO := .low, clkDir := .input, ioDir := .input, ceDir := .input, ioPull := .none }
      env := s.env.seeAll s.pin (txCloseEvents s.cfg ++ releaseEvents) }) := by
  have ht' : (s.accept .close).tx = .opened := by simp [ht]
  simp only [execClose, hd, closeBody, if_pos ht', State.emitAll_eq, releaseEvents, txClose_eq, Env.seeAll_append]
  simp [finishedWith, State.respond, PinRegs.apply, applyAll_txCloseEvents, PinRegs.closed]

end Sys2Proof.Machine
end

