-- ==== Sys2Proof/Laws/Codec.lean ====
section
/-! SUPPORT. The BCD codec in numbers: packing, unpacking, the bounds, and that decoding undoes encoding. -/

namespace Sys2Proof.Machine

/-! ### Packing -/

/-- BCD_PACK in numbers (43_bcd_codec.md R160). -/
theorem bcdPackByte_toNat {v : Nat} (h : v ≤ 99) : (bcdPackByte v).toNat = v / 10 * 16 + v % 10 := by
  have : ∀ k : Fin 100, (bcdPackByte k.val).toNat = k.val / 10 * 16 + k.val % 10 := by decide
  exact this ⟨v, by omega⟩

/-- BCD_UNPACK of a packed value whose tens digit is inside the mask (30_encoding.md R107). -/
theorem digits_bcdPackByte {v : Nat} {m : Byte}
    (h : (m = 0x70 ∧ v ≤ 59) ∨ (m = 0x30 ∧ v ≤ 31) ∨ (m = 0x10 ∧ v ≤ 12) ∨ (m = 0xf0 ∧ v ≤ 99)) :
    (tensDigit (bcdPackByte v) m).toNat = v / 10 ∧ (unitsDigit (bcdPackByte v)).toNat = v % 10 := by
  have h70 : ∀ k : Fin 60, (tensDigit (bcdPackByte k.val) 0x70).toNat = k.val / 10 ∧
      (unitsDigit (bcdPackByte k.val)).toNat = k.val % 10 := by decide
  have h30 : ∀ k : Fin 32, (tensDigit (bcdPackByte k.val) 0x30).toNat = k.val / 10 ∧
      (unitsDigit (bcdPackByte k.val)).toNat = k.val % 10 := by decide
  have h10 : ∀ k : Fin 13, (tensDigit (bcdPackByte k.val) 0x10).toNat = k.val / 10 ∧
      (unitsDigit (bcdPackByte k.val)).toNat = k.val % 10 := by decide
  have hf0 : ∀ k : Fin 100, (tensDigit (bcdPackByte k.val) 0xf0).toNat = k.val / 10 ∧
      (unitsDigit (bcdPackByte k.val)).toNat = k.val % 10 := by decide
  rcases h with ⟨rfl, h⟩ | ⟨rfl, h⟩ | ⟨rfl, h⟩ | ⟨rfl, h⟩
  · exact h70 ⟨v, by omega⟩
  · exact h30 ⟨v, by omega⟩
  · exact h10 ⟨v, by omega⟩
  · exact hf0 ⟨v, by omega⟩

theorem digitsValid_bcdPackByte {v : Nat} {m : Byte}
    (h : (m = 0x70 ∧ v ≤ 59) ∨ (m = 0x30 ∧ v ≤ 31) ∨ (m = 0x10 ∧ v ≤ 12) ∨ (m = 0xf0 ∧ v ≤ 99)) :
    digitsValid (bcdPackByte v) m = true := by
  obtain ⟨h1, h2⟩ := digits_bcdPackByte h
  have : v ≤ 99 := by omega
  simp only [digitsValid, h1, h2, Bool.and_eq_true, decide_eq_true_eq]
  omega

theorem bcdValue_bcdPackByte {v : Nat} {m : Byte}
    (h : (m = 0x70 ∧ v ≤ 59) ∨ (m = 0x30 ∧ v ≤ 31) ∨ (m = 0x10 ∧ v ≤ 12) ∨ (m = 0xf0 ∧ v ≤ 99)) :
    bcdValue (bcdPackByte v) m = v := by
  obtain ⟨h1, h2⟩ := digits_bcdPackByte h
  rw [bcdValue, h1, h2]; omega

/-- The nibbles of BCD_UNPACK as numbers (43_bcd_codec.md R161). -/
theorem tensDigit_toNat (b m : Byte) : (tensDigit b m).toNat = ((b &&& m) >>> 4).toNat := by
  have := (b &&& m).isLt
  simp only [tensDigit, BitVec.toNat_setWidth, BitVec.toNat_ushiftRight, Nat.shiftRight_eq_div_pow]
  omega

theorem unitsDigit_toNat (b : Byte) : (unitsDigit b).toNat = (b &&& 0x0f).toNat := by
  revert b; decide +kernel

/-! ### Calendar bounds -/

theorem daysInMonth_le (y m : Nat) : daysInMonth y m ≤ 31 := by
  unfold daysInMonth; split <;> (try split) <;> omega

theorem dayOfWeek_lt (y m d : Nat) : dayOfWeek y m d < 7 := Nat.mod_lt _ (by decide)

theorem weekdayOf_toNat (y m d : Nat) : (weekdayOf y m d).toNat = dayOfWeek y m d := by
  have := dayOfWeek_lt y m d
  simp only [weekdayOf, BitVec.toNat_ofNat]; omega

/-- The bounds of 43_bcd_codec.md R165. -/
structure InBounds (y m d h mi s : Nat) : Prop where
  year : 2000 ≤ y ∧ y ≤ 2099
  month : 1 ≤ m ∧ m ≤ 12
  day : 1 ≤ d ∧ d ≤ daysInMonth y m
  hour : h ≤ 23
  minute : mi ≤ 59
  second : s ≤ 59

theorem encodeBounds_none {y m d h mi s : Nat} : encodeBounds y m d h mi s = none ↔ InBounds y m d h mi s := by
  unfold encodeBounds
  constructor
  · intro hh
    repeat' split at hh
    all_goals first | (cases hh; done) | (constructor <;> simp_all)
  · rintro ⟨h1, h2, h3, h4, h5, h6⟩
    simp [h1, h2, h3, h4, h5, h6]

/-! ### The image -/

theorem imageByte_encodeImage (y m d h mi s : Nat) :
    imageByte (encodeImage y m d h mi s) .second = bcdPackByte s ∧
    imageByte (encodeImage y m d h mi s) .minute = bcdPackByte mi ∧
    imageByte (encodeImage y m d h mi s) .hour = bcdPackByte h ∧
    imageByte (encodeImage y m d h mi s) .day = bcdPackByte d ∧
    imageByte (encodeImage y m d h mi s) .month = bcdPackByte m ∧
    imageByte (encodeImage y m d h mi s) .weekday = bcdPackByte (dayOfWeek y m d) ∧
    imageByte (encodeImage y m d h mi s) .year = bcdPackByte (y - 2000) := ⟨rfl, rfl, rfl, rfl, rfl, rfl, rfl⟩

theorem encodeImage_toList (y m d h mi s : Nat) :
    (encodeImage y m d h mi s).toList =
      [bcdPackByte s, bcdPackByte mi, bcdPackByte h, bcdPackByte d, bcdPackByte m, bcdPackByte (dayOfWeek y m d),
        bcdPackByte (y - 2000)] := rfl

/-- The bytes BCD_ENCODE writes, in numbers (43_bcd_codec.md R164). -/
theorem encodeImage_bytes {y m d h mi s : Nat} (hb : InBounds y m d h mi s) :
    (encodeImage y m d h mi s).toList.map (fun b : Byte => b.toNat) =
      [s / 10 * 16 + s % 10, mi / 10 * 16 + mi % 10, h / 10 * 16 + h % 10, d / 10 * 16 + d % 10,
        m / 10 * 16 + m % 10, dayOfWeek y m d, (y - 2000) / 10 * 16 + (y - 2000) % 10] := by
  obtain ⟨h1, h2, h3, h4, h5, h6⟩ := hb
  have := daysInMonth_le y m
  have := dayOfWeek_lt y m d
  rw [encodeImage_toList]
  simp only [List.map_cons, List.map_nil]
  rw [bcdPackByte_toNat (v := s) (by omega), bcdPackByte_toNat (v := mi) (by omega), bcdPackByte_toNat (v := h) (by omega),
    bcdPackByte_toNat (v := d) (by omega), bcdPackByte_toNat (v := m) (by omega),
    bcdPackByte_toNat (v := dayOfWeek y m d) (by omega), bcdPackByte_toNat (v := y - 2000) (by omega)]
  simp only [List.cons.injEq, and_true, true_and]
  omega

/-- BCD_DECODE undoes BCD_ENCODE (43_bcd_codec.md R168). -/
theorem bcdDecode_encodeImage {y : BitVec 12} {m : BitVec 4} {d h : BitVec 5} {mi s : BitVec 6}
    (hb : InBounds y.toNat m.toNat d.toNat h.toNat mi.toNat s.toNat) :
    bcdDecode (encodeImage y.toNat m.toNat d.toNat h.toNat mi.toNat s.toNat) =
      .ok { year := y, month := m, day := d, hour := h, minute := mi, second := s,
            weekday := weekdayOf y.toNat m.toNat d.toNat } := by
  obtain ⟨b0, b1, b2, b3, b4, -, b6⟩ := imageByte_encodeImage y.toNat m.toNat d.toNat h.toNat mi.toNat s.toNat
  obtain ⟨⟨h1, h1'⟩, ⟨h2, h2'⟩, ⟨h3, h3'⟩, h4, h5, h6⟩ := hb
  have hd := daysInMonth_le y.toNat m.toNat
  have hdig : firstBadDigit (encodeImage y.toNat m.toNat d.toNat h.toNat mi.toNat s.toNat) = none := by
    simp only [firstBadDigit, decodedFields, List.find?_cons, List.find?_nil, b0, b1, b2, b3, b4, b6, ImgIndex.tensMask]
    rw [digitsValid_bcdPackByte (by left; exact ⟨rfl, h6⟩), digitsValid_bcdPackByte (by left; exact ⟨rfl, h5⟩),
      digitsValid_bcdPackByte (v := h.toNat) (by right; left; exact ⟨rfl, by omega⟩),
      digitsValid_bcdPackByte (v := d.toNat) (by right; left; exact ⟨rfl, by omega⟩),
      digitsValid_bcdPackByte (v := m.toNat) (by right; right; left; exact ⟨rfl, h2'⟩),
      digitsValid_bcdPackByte (v := y.toNat - 2000) (by right; right; right; exact ⟨rfl, by omega⟩)]
    rfl
  have v0 : imageValue (encodeImage y.toNat m.toNat d.toNat h.toNat mi.toNat s.toNat) .second = s.toNat := by
    rw [imageValue, b0]; exact bcdValue_bcdPackByte (by left; exact ⟨rfl, h6⟩)
  have v1 : imageValue (encodeImage y.toNat m.toNat d.toNat h.toNat mi.toNat s.toNat) .minute = mi.toNat := by
    rw [imageValue, b1]; exact bcdValue_bcdPackByte (by left; exact ⟨rfl, h5⟩)
  have v2 : imageValue (encodeImage y.toNat m.toNat d.toNat h.toNat mi.toNat s.toNat) .hour = h.toNat := by
    rw [imageValue, b2]; exact bcdValue_bcdPackByte (by right; left; exact ⟨rfl, by omega⟩)
  have v3 : imageValue (encodeImage y.toNat m.toNat d.toNat h.toNat mi.toNat s.toNat) .day = d.toNat := by
    rw [imageValue, b3]; exact bcdValue_bcdPackByte (by right; left; exact ⟨rfl, by omega⟩)
  have v4 : imageValue (encodeImage y.toNat m.toNat d.toNat h.toNat mi.toNat s.toNat) .month = m.toNat := by
    rw [imageValue, b4]; exact bcdValue_bcdPackByte (by right; right; left; exact ⟨rfl, h2'⟩)
  have v6 : imageValue (encodeImage y.toNat m.toNat d.toNat h.toNat mi.toNat s.toNat) .year = y.toNat - 2000 := by
    rw [imageValue, b6]; exact bcdValue_bcdPackByte (by right; right; right; exact ⟨rfl, by omega⟩)
  have hy : y.toNat - 2000 + 2000 = y.toNat := by omega
  have hbd : decodeBounds y.toNat m.toNat d.toNat h.toNat mi.toNat s.toNat = none := by
    simp [decodeBounds, h2, h2', h3, h3', h4, h5, h6]
  simp only [bcdDecode, hdig, v0, v1, v2, v3, v4, v6, hy, hbd, imageCalendar, BitVec.ofNat_toNat, BitVec.setWidth_eq]

end Sys2Proof.Machine
end

