-- ==== Sys2Proof/Laws/Encoding.lean ====
section
/-! SUPPORT. Each field of a request: reading it back from its encoding, and what a successful read has consumed. -/

namespace Sys2Proof

theorem takeBits_bits {w : Nat} (hw : w ≤ 8) (v : BitVec w) (r : List Byte) :
    Decode.takeBits w (Encode.bits v ++ r) = .ok (v, r) := by
  have hv := v.isLt
  have h8 : 2 ^ w ≤ 2 ^ 8 := Nat.pow_le_pow_right (by omega) hw
  have h1 : (v.setWidth 8).toNat = v.toNat := by
    rw [BitVec.toNat_setWidth]; exact Nat.mod_eq_of_lt (by omega)
  simp only [Encode.bits, List.cons_append, List.nil_append, Decode.takeBits, h1, hv, ↓reduceIte]
  congr 2
  apply BitVec.eq_of_toNat_eq
  rw [BitVec.toNat_setWidth, h1]; exact Nat.mod_eq_of_lt hv

theorem takeWord_word {w : Nat} (hw : w ≤ 16) (v : BitVec w) (r : List Byte) :
    Decode.takeWord w (Encode.word v ++ r) = .ok (v, r) := by
  have hv := v.isLt
  have h16 : 2 ^ w ≤ 2 ^ 16 := Nat.pow_le_pow_right (by omega) hw
  have h1 : (BitVec.ofNat 8 (v.toNat / 256)).toNat * 256 + (BitVec.ofNat 8 v.toNat).toNat = v.toNat := by
    simp only [BitVec.toNat_ofNat]; omega
  simp only [Encode.word, List.cons_append, List.nil_append, Decode.takeWord, h1, hv, ↓reduceIte]
  congr 2
  apply BitVec.eq_of_toNat_eq
  rw [BitVec.toNat_ofNat]; exact Nat.mod_eq_of_lt hv

theorem takeIdent_groups (fuel n : Nat) (h : n < fuel) (r : List Byte) :
    Decode.takeIdent (Encode.groups fuel n ++ r) = .ok (n, r) := by
  induction fuel generalizing n with
  | zero => omega
  | succ fuel ih =>
    simp only [Encode.groups]
    split
    · rename_i hn
      have h1 : (BitVec.ofNat 8 n).toNat = n := by rw [BitVec.toNat_ofNat]; omega
      simp [Decode.takeIdent, h1, hn]
    · have h1 : (BitVec.ofNat 8 (128 + n % 128)).toNat = 128 + n % 128 := by rw [BitVec.toNat_ofNat]; omega
      simp only [List.cons_append, Decode.takeIdent, h1, ih (n / 128) (by omega)]
      rw [if_neg (by omega), if_neg (by omega)]
      congr 2
      omega

theorem takeIdent_ident (n : Nat) (r : List Byte) : Decode.takeIdent (Encode.ident n ++ r) = .ok (n, r) :=
  takeIdent_groups _ n (Nat.lt_succ_self n) r

/-- The fuel of the groups is only a bound. -/
theorem groups_fuel {a b n : Nat} (ha : n < a) (hb : n < b) : Encode.groups a n = Encode.groups b n := by
  induction a generalizing b n with
  | zero => omega
  | succ a ih =>
    cases b with
    | zero => omega
    | succ b =>
      simp only [Encode.groups]
      split
      · rfl
      · rw [ih (b := b) (by omega) (by omega)]

/-- One group: an identifier below 128. -/
theorem ident_small {n : Nat} (h : n < 128) : Encode.ident n = [BitVec.ofNat 8 n] := by
  simp [Encode.ident, Encode.groups, h]

theorem ident_large {n : Nat} (h : ¬ n < 128) :
    Encode.ident n = BitVec.ofNat 8 (128 + n % 128) :: Encode.ident (n / 128) := by
  rw [Encode.ident, Encode.groups, if_neg h, groups_fuel (b := n / 128 + 1) (by omega) (by omega)]
  rfl

theorem takeBytes_toList {n : Nat} (v : Vector Byte n) (r : List Byte) :
    Decode.takeBytes n (v.toList ++ r) = .ok (v, r) := by
  have h1 : (v.toList ++ r).take n = v.toList := by simp
  have h2 : (v.toList ++ r).drop n = r := by simp
  have h : ((v.toList ++ r).take n).length = n := by simp
  rw [Decode.takeBytes, dif_pos h]
  congr 2
  apply Vector.toArray_inj.mp
  simp [Vector.toList]

@[simp] theorem takePin_pin (p : Pin) (r : List Byte) : Decode.takePin (Encode.pin p ++ r) = .ok (p, r) := by
  cases p <;> rfl
@[simp] theorem takeMode_mode (m : PinMode) (r : List Byte) : Decode.takeMode (Encode.mode m ++ r) = .ok (m, r) := by
  cases m <;> rfl
@[simp] theorem takePull_pull (u : Pull) (r : List Byte) : Decode.takePull (Encode.pull u ++ r) = .ok (u, r) := by
  cases u <;> rfl
@[simp] theorem takeLevel_level (l : Level) (r : List Byte) : Decode.takeLevel (Encode.level l ++ r) = .ok (l, r) := by
  cases l <;> rfl
@[simp] theorem takeOrder_order (o : DataResetOrder) (r : List Byte) :
    Decode.takeOrder (Encode.order o ++ r) = .ok (o, r) := by
  cases o <;> rfl

@[simp] theorem decode_ok_bind {α β : Type} (a : α) (f : α → Except DecodeError β) :
    ((Except.ok a : Except DecodeError α) >>= f) = f a := rfl
@[simp] theorem decode_error_bind {α β : Type} (e : DecodeError) (f : α → Except DecodeError β) :
    ((Except.error e : Except DecodeError α) >>= f) = .error e := rfl
@[simp] theorem decode_pure {α : Type} (a : α) : (pure a : Except DecodeError α) = .ok a := rfl

theorem takeCalendar_calendar (mk : BitVec 12 → BitVec 4 → BitVec 5 → BitVec 5 → BitVec 6 → BitVec 6 → Instr)
    (y : BitVec 12) (mo : BitVec 4) (d h : BitVec 5) (mi s : BitVec 6) (r : List Byte) :
    Decode.takeCalendar mk (Encode.calendar y mo d h mi s ++ r) = .ok (mk y mo d h mi s, r) := by
  simp only [Encode.calendar, List.append_assoc, Decode.takeCalendar]
  rw [takeWord_word (by omega), decode_ok_bind]
  dsimp only
  rw [takeBits_bits (by omega), decode_ok_bind]
  dsimp only
  rw [takeBits_bits (by omega), decode_ok_bind]
  dsimp only
  rw [takeBits_bits (by omega), decode_ok_bind]
  dsimp only
  rw [takeBits_bits (by omega), decode_ok_bind]
  dsimp only
  rw [takeBits_bits (by omega), decode_ok_bind]
  rfl

/-! ### What a successful field read has consumed -/

theorem takeBits_ok {w : Nat} {l : List Byte} {v : BitVec w} {r : List Byte} (hw : w ≤ 8)
    (h : Decode.takeBits w l = .ok (v, r)) : l = Encode.bits v ++ r := by
  cases l with
  | nil => simp [Decode.takeBits] at h
  | cons b rest =>
    simp only [Decode.takeBits] at h
    split at h
    · rename_i hb
      injection h with h; injection h with h1 h2
      subst h1 h2
      have h8 : 2 ^ w ≤ 2 ^ 8 := Nat.pow_le_pow_right (by omega) hw
      simp only [Encode.bits, List.cons_append, List.nil_append, List.cons.injEq, and_true]
      apply BitVec.eq_of_toNat_eq
      rw [BitVec.toNat_setWidth, BitVec.toNat_setWidth, Nat.mod_eq_of_lt hb, Nat.mod_eq_of_lt b.isLt]
    · cases h

theorem takeWord_ok {w : Nat} {l : List Byte} {v : BitVec w} {r : List Byte}
    (h : Decode.takeWord w l = .ok (v, r)) : l = Encode.word v ++ r := by
  match l, h with
  | lo :: hi :: rest, h =>
    simp only [Decode.takeWord] at h
    split at h
    · rename_i hb
      injection h with h; injection h with h1 h2
      subst h1 h2
      have := lo.isLt
      have := hi.isLt
      simp only [Encode.word, List.cons_append, List.nil_append, List.cons.injEq, and_true, BitVec.toNat_ofNat,
        Nat.mod_eq_of_lt hb]
      constructor <;> apply BitVec.eq_of_toNat_eq <;> rw [BitVec.toNat_ofNat] <;> omega
    · cases h

theorem takeIdent_ok {l : List Byte} {n : Nat} {r : List Byte} (h : Decode.takeIdent l = .ok (n, r)) :
    l = Encode.ident n ++ r := by
  induction l generalizing n with
  | nil => simp [Decode.takeIdent] at h
  | cons b rest ih =>
    simp only [Decode.takeIdent] at h
    have hb8 := b.isLt
    split at h
    · rename_i hb
      injection h with h; injection h with h1 h2
      subst h1 h2
      rw [ident_small hb, BitVec.ofNat_toNat, BitVec.setWidth_eq]; rfl
    · rename_i hb
      split at h
      · cases h
      · rename_i high r' hr
        split at h
        · cases h
        · rename_i hz
          injection h with h; injection h with h1 h2
          subst h1 h2
          have hd : (b.toNat - 128 + 128 * high) / 128 = high := by omega
          have hm : 128 + (b.toNat - 128 + 128 * high) % 128 = b.toNat := by omega
          rw [ih hr, ident_large (n := b.toNat - 128 + 128 * high) (by omega), hd, hm]
          simp

theorem takeBytes_ok {n : Nat} {l : List Byte} {v : Vector Byte n} {r : List Byte}
    (h : Decode.takeBytes n l = .ok (v, r)) : l = v.toList ++ r := by
  simp only [Decode.takeBytes] at h
  split at h
  · injection h with h; injection h with h1 h2
    subst h1 h2
    simp
  · cases h

theorem takePin_ok {l : List Byte} {p : Pin} {r : List Byte} (h : Decode.takePin l = .ok (p, r)) :
    l = Encode.pin p ++ r := by
  cases l with
  | nil => simp [Decode.takePin] at h
  | cons b rest =>
    simp only [Decode.takePin] at h
    split at h
    all_goals first
      | (cases h; done)
      | (rename_i hb; injection h with h; injection h with h1 h2; subst h1 h2
         simp only [Encode.pin, List.cons_append, List.nil_append, List.cons.injEq, and_true]
         exact BitVec.eq_of_toNat_eq (by simpa using hb))

theorem takeMode_ok {l : List Byte} {m : PinMode} {r : List Byte} (h : Decode.takeMode l = .ok (m, r)) :
    l = Encode.mode m ++ r := by
  cases l with
  | nil => simp [Decode.takeMode] at h
  | cons b rest =>
    simp only [Decode.takeMode] at h
    split at h
    all_goals first
      | (cases h; done)
      | (rename_i hb; injection h with h; injection h with h1 h2; subst h1 h2
         simp only [Encode.mode, List.cons_append, List.nil_append, List.cons.injEq, and_true]
         exact BitVec.eq_of_toNat_eq (by simpa using hb))

theorem takePull_ok {l : List Byte} {u : Pull} {r : List Byte} (h : Decode.takePull l = .ok (u, r)) :
    l = Encode.pull u ++ r := by
  cases l with
  | nil => simp [Decode.takePull] at h
  | cons b rest =>
    simp only [Decode.takePull] at h
    split at h
    all_goals first
      | (cases h; done)
      | (rename_i hb; injection h with h; injection h with h1 h2; subst h1 h2
         simp only [Encode.pull, List.cons_append, List.nil_append, List.cons.injEq, and_true]
         exact BitVec.eq_of_toNat_eq (by simpa using hb))

theorem takeLevel_ok {l : List Byte} {v : Level} {r : List Byte} (h : Decode.takeLevel l = .ok (v, r)) :
    l = Encode.level v ++ r := by
  cases l with
  | nil => simp [Decode.takeLevel] at h
  | cons b rest =>
    simp only [Decode.takeLevel] at h
    split at h
    all_goals first
      | (cases h; done)
      | (rename_i hb; injection h with h; injection h with h1 h2; subst h1 h2
         simp only [Encode.level, List.cons_append, List.nil_append, List.cons.injEq, and_true]
         exact BitVec.eq_of_toNat_eq (by simpa using hb))

/-- The one field with two spellings of a value (30_encoding.md R111). -/
theorem takeOrder_ok {l : List Byte} {o : DataResetOrder} {r : List Byte} (h : Decode.takeOrder l = .ok (o, r)) :
    l = Encode.order o ++ r ∨ (o = .none ∧ l = [3] ++ r) := by
  cases l with
  | nil => simp [Decode.takeOrder] at h
  | cons b rest =>
    simp only [Decode.takeOrder] at h
    split at h
    all_goals first
      | (cases h; done)
      | (rename_i hb; injection h with h; injection h with h1 h2; subst h1 h2
         simp only [Encode.order, List.cons_append, List.nil_append, List.cons.injEq, and_true, true_and]
         first
         | exact .inl (BitVec.eq_of_toNat_eq (by simpa using hb))
         | exact .inr (BitVec.eq_of_toNat_eq (by simpa using hb)))

theorem decode_bind_ok {α β : Type} {x : Except DecodeError α} {f : α → Except DecodeError β} {b : β}
    (h : x >>= f = .ok b) : ∃ a, x = .ok a ∧ f a = .ok b := by
  cases x with
  | error e => cases h
  | ok a => exact ⟨a, rfl, h⟩

theorem takeCalendar_ok {mk : BitVec 12 → BitVec 4 → BitVec 5 → BitVec 5 → BitVec 6 → BitVec 6 → Instr}
    {l : List Byte} {i : Instr} {r : List Byte} (h : Decode.takeCalendar mk l = .ok (i, r)) :
    ∃ y mo d hh mi s, i = mk y mo d hh mi s ∧ l = Encode.calendar y mo d hh mi s ++ r := by
  simp only [Decode.takeCalendar] at h
  obtain ⟨⟨y, r1⟩, h1, h⟩ := decode_bind_ok h; dsimp only at h
  obtain ⟨⟨mo, r2⟩, h2, h⟩ := decode_bind_ok h; dsimp only at h
  obtain ⟨⟨d, r3⟩, h3, h⟩ := decode_bind_ok h; dsimp only at h
  obtain ⟨⟨hh, r4⟩, h4, h⟩ := decode_bind_ok h; dsimp only at h
  obtain ⟨⟨mi, r5⟩, h5, h⟩ := decode_bind_ok h; dsimp only at h
  obtain ⟨⟨s, r6⟩, h6, h⟩ := decode_bind_ok h; dsimp only at h
  cases h
  refine ⟨y, mo, d, hh, mi, s, rfl, ?_⟩
  rw [takeWord_ok h1, takeBits_ok (by omega) h2, takeBits_ok (by omega) h3, takeBits_ok (by omega) h4,
    takeBits_ok (by omega) h5, takeBits_ok (by omega) h6]
  simp [Encode.calendar]

end Sys2Proof
end

