-- ==== Sys2Proof/Laws/PerInstr.lean ====
section
/-! SUPPORT. One lemma per instruction: its request is not empty and fits the longest request, so that a table word
laid out in `longestRequest` bytes holds it (tableBytes). -/

namespace Sys2Proof.Laws.RequestFits

/-- The identifiers of an INIT are below 128, one group each (log entry 5). -/
def narrowPins : Instr → Prop
  | .init a b c .. => a < 128 ∧ b < 128 ∧ c < 128
  | _ => True

/-- The encoding of `i` is a code byte and its operands, and is no longer than the longest request, where the pin
identifiers of an INIT, which have no width, are below 128. -/
def Statement (i : Instr) : Prop := encode i ≠ [] ∧ (narrowPins i → (encode i).length ≤ longestRequest)

theorem init (a b c : PinId) (d e : BitVec 16) (f : DataResetOrder) (g : Pull) : Statement (.init a b c d e f g) := by
  refine ⟨by simp [encode], fun ⟨ha, hb, hc⟩ => ?_⟩
  cases f <;> cases g <;>
    simp [encode, ident_small ha, ident_small hb, ident_small hc, Encode.word, Encode.order, Encode.pull, longestRequest]

theorem readDatetime : Statement .readDatetime := ⟨by simp [encode], fun _ => by simp [encode, longestRequest]⟩

theorem writeDatetime (y : BitVec 12) (mo : BitVec 4) (d h : BitVec 5) (mi s : BitVec 6) : Statement (.writeDatetime y mo d h mi s) :=
  ⟨by simp [encode], fun _ => by simp [encode, Encode.bits, Encode.word, Encode.calendar, longestRequest]⟩

theorem readRam : Statement .readRam := ⟨by simp [encode], fun _ => by simp [encode, longestRequest]⟩

theorem writeRam (len : BitVec 8) (image : Vector Byte 31) : Statement (.writeRam len image) :=
  ⟨by simp [encode], fun _ => by simp [encode, Encode.bits, longestRequest]⟩

theorem close : Statement .close := ⟨by simp [encode], fun _ => by simp [encode, longestRequest]⟩

theorem cmdWp : Statement .cmdWp := ⟨by simp [encode], fun _ => by simp [encode, longestRequest]⟩

theorem cmdTcs : Statement .cmdTcs := ⟨by simp [encode], fun _ => by simp [encode, longestRequest]⟩

theorem cmdClkWr : Statement .cmdClkWr := ⟨by simp [encode], fun _ => by simp [encode, longestRequest]⟩

theorem cmdClkRd : Statement .cmdClkRd := ⟨by simp [encode], fun _ => by simp [encode, longestRequest]⟩

theorem cmdRamWr (len : BitVec 8) : Statement (.cmdRamWr len) :=
  ⟨by simp [encode], fun _ => by simp [encode, Encode.bits, longestRequest]⟩

theorem cmdRamRd : Statement .cmdRamRd := ⟨by simp [encode], fun _ => by simp [encode, longestRequest]⟩

theorem txOpen : Statement .txOpen := ⟨by simp [encode], fun _ => by simp [encode, longestRequest]⟩

theorem txClose : Statement .txClose := ⟨by simp [encode], fun _ => by simp [encode, longestRequest]⟩

theorem writeByte (v : Byte) : Statement (.writeByte v) :=
  ⟨by simp [encode], fun _ => by simp [encode, Encode.bits, longestRequest]⟩

theorem readByte : Statement .readByte := ⟨by simp [encode], fun _ => by simp [encode, longestRequest]⟩

theorem bcdPack (v : BitVec 7) : Statement (.bcdPack v) :=
  ⟨by simp [encode], fun _ => by simp [encode, Encode.bits, longestRequest]⟩

theorem bcdUnpack (b m : Byte) : Statement (.bcdUnpack b m) :=
  ⟨by simp [encode], fun _ => by simp [encode, Encode.bits, longestRequest]⟩

theorem dow (y : BitVec 12) (m : BitVec 4) (d : BitVec 5) : Statement (.dow y m d) :=
  ⟨by simp [encode], fun _ => by simp [encode, Encode.bits, Encode.word, longestRequest]⟩

theorem bcdEncode (y : BitVec 12) (mo : BitVec 4) (d h : BitVec 5) (mi s : BitVec 6) : Statement (.bcdEncode y mo d h mi s) :=
  ⟨by simp [encode], fun _ => by simp [encode, Encode.bits, Encode.word, Encode.calendar, longestRequest]⟩

theorem bcdDecode (image : Vector Byte 7) : Statement (.bcdDecode image) :=
  ⟨by simp [encode], fun _ => by simp [encode, longestRequest]⟩

theorem regWrite (c v : Byte) : Statement (.regWrite c v) :=
  ⟨by simp [encode], fun _ => by simp [encode, Encode.bits, longestRequest]⟩

theorem burstRead (c : Byte) (n : BitVec 5) : Statement (.burstRead c n) :=
  ⟨by simp [encode], fun _ => by simp [encode, Encode.bits, longestRequest]⟩

theorem burstWrite (c : Byte) (n : BitVec 5) (data : Vector Byte 31) : Statement (.burstWrite c n data) :=
  ⟨by simp [encode], fun _ => by simp [encode, Encode.bits, longestRequest]⟩

theorem dir (p : Pin) (m : PinMode) (u : Pull) : Statement (.dir p m u) := by
  cases p <;> cases m <;> cases u <;> exact ⟨by simp [encode], fun _ => by decide⟩

theorem wr (p : Pin) (l : Level) : Statement (.wr p l) := by
  cases p <;> cases l <;> exact ⟨by simp [encode], fun _ => by decide⟩

theorem rd (p : Pin) : Statement (.rd p) := by cases p <;> exact ⟨by simp [encode], fun _ => by decide⟩

theorem dly (t : BitVec 16) : Statement (.dly t) :=
  ⟨by simp [encode], fun _ => by simp [encode, Encode.word, longestRequest]⟩

theorem rel (p : Pin) : Statement (.rel p) := by cases p <;> exact ⟨by simp [encode], fun _ => by decide⟩

end Sys2Proof.Laws.RequestFits
end

