-- ==== Sys2Proof/Laws/Peripheral.lean ====
section
/-! SUPPORT. What the reference peripheral makes of whole frames (20_memory.md R80 to R92): a write frame stores
its bytes, a read frame returns the bytes of the region and changes nothing stored. -/

namespace Sys2Proof.Machine

/-! ### The peripheral before its first event (20_memory.md R82) -/

theorem Periph.initial_waiting (clkreg : Vector Byte 7) (ram : Vector Byte 31) (wp : Bool) (tcs : Byte) :
    (Periph.initial clkreg ram wp tcs).waiting ∧ (Periph.initial clkreg ram wp tcs).out = none :=
  ⟨⟨rfl, rfl, rfl⟩, rfl⟩

@[simp] theorem Env.attach_periph (clkreg : Vector Byte 7) (ram : Vector Byte 31) (wp : Bool) (tcs : Byte) (e : Env) :
    (e.attach clkreg ram wp tcs).periph = some (Periph.initial clkreg ram wp tcs) := rfl
@[simp] theorem Env.attach_trace (clkreg : Vector Byte 7) (ram : Vector Byte 31) (wp : Bool) (tcs : Byte) (e : Env) :
    (e.attach clkreg ram wp tcs).trace = e.trace := rfl

/-! ### Stretches of the trace -/

/-- The environment with one more stretch of trace and the peripheral `p`. -/
def Env.with (e : Env) (evs : List PinEvent) (p : Periph) : Env :=
  { e with trace := e.trace ++ evs, periph := some p }

@[simp] theorem Env.with_with (e : Env) (a b : List PinEvent) (p q : Periph) :
    (e.with a p).with b q = e.with (a ++ b) q := by simp [Env.with]
@[simp] theorem Env.with_periph (e : Env) (a : List PinEvent) (p : Periph) : (e.with a p).periph = some p := rfl
@[simp] theorem Env.with_trace (e : Env) (a : List PinEvent) (p : Periph) : (e.with a p).trace = e.trace ++ a := rfl
@[simp] theorem Env.with_answers (e : Env) (a : List PinEvent) (p : Periph) : (e.with a p).answers = e.answers := rfl
@[simp] theorem Env.with_drawn (e : Env) (a : List PinEvent) (p : Periph) : (e.with a p).drawn = e.drawn := rfl
@[simp] theorem Env.with_validPins (e : Env) (a : List PinEvent) (p : Periph) : (e.with a p).validPins = e.validPins := rfl

/-- Events the peripheral ignores (20_memory.md R82). -/
theorem Env.see_ignored {e : Env} {p : Periph} (h : e.periph = some p) (r : PinRegs) (ev : PinEvent)
    (hw : ∀ l, ev ≠ .wr .clk l ∧ ev ≠ .wr .ce l) : e.see r ev = e.with [ev] p := by
  unfold Env.see Env.react
  split <;> simp_all [Env.record, Env.with]

@[simp] theorem Env.with_see_dly (e : Env) (a : List PinEvent) (p : Periph) (r : PinRegs) (d : BitVec 16) :
    (e.with a p).see r (.dly d) = e.with (a ++ [.dly d]) p := by
  rw [Env.see_ignored (e.with_periph a p) _ _ (by simp), Env.with_with]
@[simp] theorem Env.with_see_dir (e : Env) (a : List PinEvent) (p : Periph) (r : PinRegs) (q : Pin) (m : PinMode)
    (u : Pull) : (e.with a p).see r (.dir q m u) = e.with (a ++ [.dir q m u]) p := by
  rw [Env.see_ignored (e.with_periph a p) _ _ (by simp), Env.with_with]
@[simp] theorem Env.with_see_io (e : Env) (a : List PinEvent) (p : Periph) (r : PinRegs) (l : Level) :
    (e.with a p).see r (.wr .io l) = e.with (a ++ [.wr .io l]) p := by
  rw [Env.see_ignored (e.with_periph a p) _ _ (by simp), Env.with_with]

theorem Env.see_ce {e : Env} {p : Periph} (h : e.periph = some p) (r : PinRegs) (hr : r.ceDir = .output) (l : Level) :
    e.see r (.wr .ce l) = e.with [.wr .ce l] (p.onCe l) := by
  simp [Env.see, Env.react, h, hr, Env.record, Env.with]

/-- `WR(CLK, Low)` while no byte is being read. -/
theorem Env.see_clkLow {e : Env} {p : Periph} (h : e.periph = some p) (r : PinRegs) (hr : r.clkDir = .output)
    (hp : p.active = false ∨ p.phase ≠ .readData ∨ p.clk = .low) :
    e.see r (.wr .clk .low) = e.with [.wr .clk .low] { p with clk := .low } := by
  have : ¬ (p.clk = .high ∧ p.active = true ∧ p.phase = .readData) := by
    rintro ⟨h1, h2, h3⟩; simp_all
  simp [Env.see, Env.react, h, hr, Env.record, Env.with, Env.clkLow, this]

/-- `WR(CLK, High)` while no byte is being received. -/
theorem Env.see_clkHigh {e : Env} {p : Periph} (h : e.periph = some p) (r : PinRegs) (hr : r.clkDir = .output)
    (hp : p.phase = .readData) :
    e.see r (.wr .clk .high) = e.with [.wr .clk .high] { p with clk := .high } := by
  simp [Env.see, Env.react, h, hr, Env.record, Env.with, Env.clkHigh, hp]

/-- What a complete byte does to the peripheral, where the rule draws nothing (20_memory.md R86, R87). -/
def Periph.accept (v : Byte) (p : Periph) : Periph :=
  if p.phase = .cmd then p.decodeCommand v
  else if p.cmd = Config.cmdWp then { p with wp := false, idx := p.nextIdx }
  else { p.store v with idx := p.nextIdx }

/-- The level last seen on CLK does not matter to a byte. -/
theorem Periph.accept_clk (v : Byte) (p : Periph) (c d : Level) :
    { ({ p with clk := c }.accept v) with clk := d } = { (p.accept v) with clk := d } := by
  simp only [Periph.accept, Periph.decodeCommand, Periph.store, Periph.nextIdx]
  repeat' split
  all_goals rfl

/-- The peripheral is between two bytes of a frame the engine writes. -/
def Periph.receiving (p : Periph) : Prop :=
  p.active = true ∧ (p.phase = .cmd ∨ p.phase = .writeData) ∧ p.sr = 0 ∧ p.bc = 0

theorem Env.seeAll_writeBit {e : Env} {p : Periph} (h : e.periph = some p) (r : PinRegs) (d : BitVec 16) (l : Level)
    (hr : r.clkDir = .output ∧ r.ioDir = .output) (ha : p.active = true) (hp : p.phase = .cmd ∨ p.phase = .writeData)
    (hb : p.bc.toNat < 7) :
    e.seeAll r (writeBitEvents d l) =
      e.with (writeBitEvents d l)
        { p with sr := p.sr ||| ((BitVec.ofBool (bit l)).setWidth 8 <<< p.bc.toNat), bc := p.bc + 1, clk := .high } := by
  have hnr : p.phase ≠ .readData := by rcases hp with h | h <;> simp [h]
  have hb7 : p.bc ≠ 7#3 := by intro hh; rw [hh] at hb; revert hb; decide
  simp only [writeBitEvents, Env.seeAll_cons, Env.seeAll_nil]
  rw [Env.see_clkLow h _ (by simp [PinRegs.apply, hr]) (by simp [hnr]),
    Env.with_see_dly, Env.with_see_io]
  simp [Env.see, Env.react, PinRegs.apply, hr, Env.clkHigh, Env.with, ha, hp, Env.ioAtRise, Env.takeBit, hb7, Env.record]

/-- The eighth bit of a byte, where the rule draws nothing. -/
theorem Env.takeBit_last {p : Periph} (e : Env) (b : Bool) (v : Byte) (hp : p.phase = .cmd ∨ p.phase = .writeData)
    (hb : p.bc = 7#3) (hv : p.sr ||| ((BitVec.ofBool b).setWidth 8 <<< 7) = v)
    (hc : p.phase = .cmd ∨ p.cmd ≠ Config.cmdWp ∨ v = 0) :
    e.takeBit b p = ({ p with sr := 0, bc := 0 }.accept v, e) := by
  subst hv
  rcases hp with hp | hp
  · simp [Env.takeBit, hb, hp, Periph.accept]
  · rcases hc with hc | hc | hc
    · simp [hp] at hc
    · simp only [Env.takeBit, hb, hp, ↓reduceIte, Periph.accept, Env.commit, if_neg hc, reduceCtorEq, BitVec.toNat_ofNat]
      rfl
    · by_cases hw : p.cmd = Config.cmdWp <;>
        simp_all [Env.takeBit, Periph.accept, Env.commit, Periph.nextIdx]

/-- A rising edge of CLK while a byte is received (20_memory.md R85). -/
theorem Env.see_clkRise {e : Env} {p : Periph} (h : e.periph = some p) (r : PinRegs)
    (hr : r.clkDir = .output ∧ r.ioDir = .output) (hc : p.clk = .low) (ha : p.active = true)
    (hp : p.phase = .cmd ∨ p.phase = .writeData) :
    e.see r (.wr .clk .high) =
      { ((e.record (.wr .clk .high)).takeBit (bit r.ioO) p).2 with
        periph := some { ((e.record (.wr .clk .high)).takeBit (bit r.ioO) p).1 with clk := .high } } := by
  have hcond : p.clk = .low ∧ p.active = true ∧ (p.phase = .cmd ∨ p.phase = .writeData) := ⟨hc, ha, hp⟩
  simp only [Env.see, Env.react, Env.record_periph, h, hr.1, ↓reduceIte, Env.clkHigh, if_pos hcond, Env.ioAtRise, hr.2]

theorem Env.seeAll_lastBit {e : Env} {p : Periph} (h : e.periph = some p) (r : PinRegs) (d : BitVec 16) (l : Level)
    (v : Byte) (hr : r.clkDir = .output ∧ r.ioDir = .output) (ha : p.active = true)
    (hp : p.phase = .cmd ∨ p.phase = .writeData) (hb : p.bc = 7#3)
    (hv : p.sr ||| ((BitVec.ofBool (bit l)).setWidth 8 <<< 7) = v)
    (hc : p.phase = .cmd ∨ p.cmd ≠ Config.cmdWp ∨ v = 0) :
    e.seeAll r (writeBitEvents d l) =
      e.with (writeBitEvents d l) { ({ p with sr := 0, bc := 0 }.accept v) with clk := .high } := by
  have hnr : p.phase ≠ .readData := by rcases hp with h | h <;> simp [h]
  simp only [writeBitEvents, Env.seeAll_cons, Env.seeAll_nil]
  rw [Env.see_clkLow h _ (by simp [PinRegs.apply, hr]) (by simp [hnr]), Env.with_see_dly, Env.with_see_io]
  have ht : ∀ e : Env, e.takeBit (bit l) { p with clk := .low } =
      ({ ({ p with sr := 0, bc := 0 }.accept v) with clk := .low }, e) := by
    intro e
    rw [Env.takeBit_last (p := { p with clk := .low }) e (bit l) v hp hb hv hc]
    simp only [Periph.accept, Periph.decodeCommand, Periph.store, Periph.nextIdx]
    repeat' split
    all_goals rfl
  rw [Env.see_clkRise (p := { p with clk := .low }) (Env.with_periph _ _ _) _ (by simp [PinRegs.apply, hr]) rfl ha hp]
  simp only [PinRegs.apply, ht]
  simp [Env.see, Env.react, Env.with, Env.record]

theorem Env.seeAll_writeBits (d : BitVec 16) (ls : List Level) {e : Env} {p : Periph} (h : e.periph = some p) (r : PinRegs)
    (hr : r.clkDir = .output ∧ r.ioDir = .output) (ha : p.active = true) (hp : p.phase = .cmd ∨ p.phase = .writeData)
    (hb : p.bc.toNat + ls.length ≤ 7) :
    e.seeAll r (ls.flatMap (writeBitEvents d)) =
      e.with (ls.flatMap (writeBitEvents d))
        { p with
          sr := p.sr ||| levelsAt p.bc.toNat ls
          bc := p.bc + BitVec.ofNat 3 ls.length
          clk := if ls = [] then p.clk else .high } := by
  induction ls generalizing e p r with
  | nil => simp [Env.with, levelsAt, ← h]
  | cons l ls ih =>
    simp only [List.length_cons] at hb
    have hbc : (p.bc + 1).toNat = p.bc.toNat + 1 := by
      rw [BitVec.toNat_add]; simp; omega
    rw [List.flatMap_cons, Env.seeAll_append, Env.seeAll_writeBit h r d l hr ha hp (by omega),
      ih (p := { p with
          sr := p.sr ||| ((BitVec.ofBool (bit l)).setWidth 8 <<< p.bc.toNat), bc := p.bc + 1, clk := .high })
        rfl _ (by simp [writeBitEvents, PinRegs.apply, hr]) ha hp (by dsimp only; rw [hbc]; omega)]
    dsimp only
    rw [hbc, Env.with_with, levelsAt, BitVec.or_assoc, List.length_cons, BitVec.add_assoc, Nat.add_comm ls.length 1,
      BitVec.ofNat_add]
    cases ls <;> simp

theorem levelsAt_append (a b : List Level) (k : Nat) : levelsAt k (a ++ b) = levelsAt k a ||| levelsAt (k + a.length) b := by
  induction a generalizing k with
  | nil => simp [levelsAt]
  | cons l a ih => simp [levelsAt, ih, BitVec.or_assoc, Nat.add_assoc, Nat.add_comm 1]

/-- A byte received from the engine (20_memory.md R85). -/
theorem Env.seeAll_writeByte {e : Env} {p : Periph} (h : e.periph = some p) (r : PinRegs) (d : BitVec 16) (v : Byte)
    (hr : r.clkDir = .output) (hp : p.receiving) (hc : p.phase = .cmd ∨ p.cmd ≠ Config.cmdWp ∨ v = 0) :
    e.seeAll r (writeByteEvents d v) = e.with (writeByteEvents d v) { (p.accept v) with clk := .high } := by
  obtain ⟨ha, hph, hsr, hbc⟩ := hp
  have hl := levelsAt_byteLevels v
  rw [writeByteEvents]
  match hb : byteLevels v, byteLevels_length v with
  | [b0, b1, b2, b3, b4, b5, b6, b7], _ =>
    rw [hb] at hl
    rw [show [b0, b1, b2, b3, b4, b5, b6, b7] = [b0, b1, b2, b3, b4, b5, b6] ++ [b7] from rfl, levelsAt_append] at hl
    rw [show [b0, b1, b2, b3, b4, b5, b6, b7] = [b0, b1, b2, b3, b4, b5, b6] ++ [b7] from rfl, List.flatMap_append,
      Env.seeAll_cons, Env.see_ignored h _ _ (by simp), Env.seeAll_append,
      Env.seeAll_writeBits d _ (Env.with_periph _ _ _) _ (by simp [PinRegs.apply, hr]) ha hph (by simp [hbc]),
      List.flatMap_singleton,
      Env.seeAll_lastBit (p := { p with
        sr := p.sr ||| levelsAt p.bc.toNat [b0, b1, b2, b3, b4, b5, b6]
        bc := p.bc + BitVec.ofNat 3 7
        clk := .high }) rfl _ d b7 v ?_ ha hph ?_ ?_ hc]
    · simp only [Env.with_with, List.cons_append, List.nil_append]
      rw [← Periph.accept_clk v p .high]
      congr 5 <;> first | exact hsr.symm | exact hbc.symm
    · simp [PinRegs.apply, hr, writeBitEvents]
    · simp [hbc]
    · rw [← hl, hsr, hbc]; simp [levelsAt]

/-! ### Write frames -/

/-- The peripheral in the window of a frame (20_memory.md R83). -/
def Periph.opened (p : Periph) : Periph := { p.start with ce := .high }

/-- The peripheral after the end of a frame (20_memory.md R84). -/
def Periph.shut (p : Periph) : Periph :=
  { p with active := false, out := none, ce := .low, clk := .low, sr := 0, bc := 0 }

theorem Env.seeAll_txOpen {e : Env} {p : Periph} (h : e.periph = some p) (r : PinRegs) (cfg : Cfg)
    (hr : r.clkDir = .output ∧ r.ceDir = .output) (hp : p.waiting) :
    e.seeAll r (txOpenEvents cfg) = e.with (txOpenEvents cfg) p.opened := by
  obtain ⟨hce, hclk, hact⟩ := hp
  have h1 : { p with clk := .low } = p := by cases p; simp_all
  have h2 : p.onCe .high = p.opened := by simp [Periph.onCe, hce, Periph.opened]
  have h0 := Env.see_clkLow h (r.apply (.wr .clk .low)) (by simp [PinRegs.apply, hr]) (.inl hact)
  rw [h1] at h0
  have hce' : ∀ (a : List PinEvent) (r : PinRegs), r.ceDir = .output →
      (e.with a p).see r (.wr .ce .high) = e.with (a ++ [.wr .ce .high]) p.opened := by
    intro a r hr
    rw [Env.see_ce (Env.with_periph _ _ _) r hr, h2, Env.with_with]
  unfold txOpenEvents dataLineReset
  cases cfg.dataResetOrder <;> by_cases hs : cfg.settleDelay = 0 <;>
    simp only [hs, List.cons_append, List.nil_append, List.append_nil, Env.seeAll_cons, Env.seeAll_nil, h0, reduceCtorEq,
      ↓reduceIte, Env.with_see_dir] <;>
    rw [hce' _ _ (by simp [PinRegs.apply, hr])] <;> simp only [Env.with_see_dir, Env.with_see_dly, List.cons_append, List.nil_append]

theorem Env.seeAll_txClose {e : Env} {p : Periph} (h : e.periph = some p) (r : PinRegs) (cfg : Cfg)
    (hr : r.clkDir = .output ∧ r.ceDir = .output) (hp : p.phase ≠ .readData ∨ p.clk = .low) :
    e.seeAll r (txCloseEvents cfg) = e.with (txCloseEvents cfg) p.shut := by
  simp only [txCloseEvents, Env.seeAll_cons, Env.seeAll_nil]
  rw [Env.see_ignored h _ _ (by simp),
    Env.see_clkLow (Env.with_periph _ _ _) _ (by simp [PinRegs.apply, hr]) (.inr hp),
    Env.with_with, Env.see_ce (Env.with_periph _ _ _) _ (by simp [PinRegs.apply, hr]), Env.with_with]
  rfl

/-- A byte received, CLK being left High. -/
def Periph.take (p : Periph) (v : Byte) : Periph := { (p.accept v) with clk := .high }

theorem Periph.take_writeData {p : Periph} (v : Byte) (h : p.phase = .writeData) :
    (p.take v).phase = .writeData ∧ (p.take v).cmd = p.cmd ∧ (p.take v).active = p.active ∧ (p.take v).sr = p.sr ∧
      (p.take v).bc = p.bc := by
  simp only [Periph.take, Periph.accept, h, Periph.store]
  repeat' split
  all_goals simp_all

theorem Env.seeAll_writeBytes (d : BitVec 16) (bytes : List Byte) {e : Env} {p : Periph} (h : e.periph = some p)
    (r : PinRegs) (hr : r.clkDir = .output) (hp : p.active = true ∧ p.phase = .writeData ∧ p.sr = 0 ∧ p.bc = 0)
    (hc : p.cmd ≠ Config.cmdWp ∨ ∀ v ∈ bytes, v = 0) :
    e.seeAll r (bytes.flatMap (writeByteEvents d)) =
      e.with (bytes.flatMap (writeByteEvents d)) (bytes.foldl Periph.take p) := by
  induction bytes generalizing e p r with
  | nil => simp [Env.with, ← h]
  | cons v bytes ih =>
    obtain ⟨h1, h2, h3, h4⟩ := hp
    obtain ⟨t1, t2, t3, t4, t5⟩ := Periph.take_writeData v h2
    rw [List.flatMap_cons, Env.seeAll_append,
      Env.seeAll_writeByte h r d v hr ⟨h1, .inr h2, h3, h4⟩
        (.inr (hc.imp id fun h => h v (by simp))),
      ih (p := p.take v) rfl _ (by simp [applyAll_writeByteEvents, hr]) ⟨t3.trans h1, t1, t4.trans h3, t5.trans h4⟩
        (by rw [t2]; exact hc.imp id fun h w hw => h w (by simp [hw])),
      Env.with_with, List.foldl_cons]

/-- A write frame (20_memory.md R83 to R87). -/
theorem Env.seeAll_writeFrame (cfg : Cfg) (c : Byte) (bytes : List Byte) {e : Env} {p : Periph} (h : e.periph = some p)
    (r : PinRegs) (hr : r.clkDir = .output ∧ r.ceDir = .output) (hp : p.waiting)
    (hc : c = Config.cmdWp ∨ c = Config.cmdTcs ∨ c = Config.cmdClkWr ∨ c = Config.cmdRamWr)
    (hw : c ≠ Config.cmdWp ∨ ∀ v ∈ bytes, v = 0) :
    e.seeAll r (writeFrame cfg c bytes) =
      e.with (writeFrame cfg c bytes)
        (bytes.foldl Periph.take { p.opened with cmd := c, phase := .writeData, clk := .high }).shut := by
  have hd : ({ p.opened.accept c with clk := .high } : Periph) =
      { p.opened with cmd := c, phase := .writeData, clk := .high } := by
    rcases hc with rfl | rfl | rfl | rfl <;> rfl
  have hfold : ∀ (l : List Byte) (q : Periph), q.phase = .writeData → (l.foldl Periph.take q).phase = .writeData := by
    intro l
    induction l with
    | nil => intro q hq; exact hq
    | cons v l ih => intro q hq; exact ih _ (Periph.take_writeData v hq).1
  rw [writeFrame, List.flatMap_cons, Env.seeAll_append, Env.seeAll_append, Env.seeAll_append,
    Env.seeAll_txOpen h r cfg hr hp,
    Env.seeAll_writeByte (Env.with_periph _ _ _) _ _ c (by simp [applyAll_txOpenEvents, hr])
      ⟨rfl, .inl rfl, rfl, rfl⟩ (.inl rfl), hd,
    Env.seeAll_writeBytes cfg.clkDelay bytes (p := { p.opened with cmd := c, phase := .writeData, clk := .high }) rfl _
      (by simp [applyAll_txOpenEvents, applyAll_writeByteEvents, hr]) ⟨rfl, rfl, rfl, rfl⟩ hw,
    Env.seeAll_txClose (Env.with_periph _ _ _) _ cfg ?_ (.inl ?_)]
  · simp only [Env.with_with, List.append_assoc]
  · rw [PinRegs.applyAll_append, PinRegs.applyAll_append, applyAll_writeBytes _ _ _ c (by simp [applyAll_writeByteEvents])]
    simp [applyAll_txOpenEvents, applyAll_writeByteEvents, hr]
  · rw [hfold bytes { p.opened with cmd := c, phase := .writeData, clk := .high } rfl]
    simp

/-! ### What a write frame stores -/

/-- Bytes stored from an index on. -/
def storeAt {n : Nat} (i : Nat) : List Byte → Vector Byte n → Vector Byte n
  | [], v => v
  | b :: bs, v => storeAt (i + 1) bs (v.setIfInBounds i b)

theorem storeAt_getElem {n : Nat} (bytes : List Byte) (i : Nat) (v : Vector Byte n) (j : Nat) (hj : j < n) :
    (storeAt i bytes v)[j] =
      if h : i ≤ j ∧ j < i + bytes.length then bytes[j - i]'(by omega) else v[j] := by
  induction bytes generalizing i v with
  | nil => simp [storeAt]
  | cons b bs ih =>
    rw [storeAt, ih, Vector.getElem_setIfInBounds]
    by_cases h1 : i + 1 ≤ j ∧ j < i + 1 + bs.length
    · have h2 : i ≤ j ∧ j < i + (b :: bs).length := by simp; omega
      rw [dif_pos h1, dif_pos h2, List.getElem_cons, dif_neg (by omega)]
      congr 1
    · by_cases hij : i = j
      · subst hij
        have h2 : i ≤ i ∧ i < i + (b :: bs).length := by simp
        rw [dif_neg h1, dif_pos h2]; simp
      · have h2 : ¬ (i ≤ j ∧ j < i + (b :: bs).length) := by simp; omega
        rw [dif_neg h1, dif_neg h2, if_neg hij]

theorem loadFront_getElem {n : Nat} (v : Vector Byte n) (bytes : List Byte) (h : bytes.length ≤ n) (j : Nat) (hj : j < n) :
    (loadFront v bytes)[j] = if hb : j < bytes.length then bytes[j] else v[j] := by
  have hl : j < (bytes.take n ++ v.toList.drop (min n bytes.length)).length := by simp; omega
  have : (loadFront v bytes)[j] = (bytes.take n ++ v.toList.drop (min n bytes.length))[j]'hl := rfl
  rw [this, List.getElem_append]
  by_cases hb : j < bytes.length
  · rw [dif_pos (by simp; omega), dif_pos hb, List.getElem_take]
  · rw [dif_neg (by simp; omega), dif_neg hb, List.getElem_drop, Vector.getElem_toList]
    congr 1
    simp; omega

/-- From index 0 it is the front that is replaced (44_burst_transactions.md R183). -/
theorem storeAt_zero {n : Nat} (bytes : List Byte) (v : Vector Byte n) (h : bytes.length ≤ n) :
    storeAt 0 bytes v = loadFront v bytes := by
  apply Vector.ext
  intro j hj
  rw [storeAt_getElem, loadFront_getElem v bytes h]
  simp

theorem Periph.nextIdx_toNat (p : Periph) (h : p.idx.toNat < 31) : p.nextIdx.toNat = p.idx.toNat + 1 := by
  have h1 : p.idx ≠ 31 := by intro hh; rw [hh] at h; revert h; decide
  rw [Periph.nextIdx, if_neg h1, BitVec.toNat_add]
  simp; omega

/-- The data bytes of a clock burst write (20_memory.md R87). -/
theorem Periph.foldl_take_clk (bytes : List Byte) (p : Periph) (hc : p.cmd = Config.cmdClkWr) (hp : p.phase = .writeData)
    (hi : p.idx.toNat + bytes.length ≤ 31) :
    (bytes.foldl Periph.take p).clkreg = (if p.wp then p.clkreg else storeAt p.idx.toNat bytes p.clkreg) ∧
      (bytes.foldl Periph.take p).ram = p.ram ∧ (bytes.foldl Periph.take p).wp = p.wp ∧
      (bytes.foldl Periph.take p).tcs = p.tcs := by
  induction bytes generalizing p with
  | nil => simp [storeAt]
  | cons v bytes ih =>
    simp only [List.length_cons] at hi
    have ht : p.take v = { p with
        clkreg := if p.wp then p.clkreg else p.clkreg.setIfInBounds p.idx.toNat v
        idx := p.nextIdx
        clk := .high } := by
      simp only [Periph.take, Periph.accept, hp, Periph.store, hc]
      cases hw : p.wp <;> simp [hw, hp, hc]
    rw [List.foldl_cons, ht]
    obtain ⟨h1, h2, h3, h4⟩ := ih { p with
      clkreg := if p.wp then p.clkreg else p.clkreg.setIfInBounds p.idx.toNat v, idx := p.nextIdx, clk := .high } hc hp
      (by dsimp only; rw [Periph.nextIdx_toNat p (by omega)]; omega)
    refine ⟨?_, h2, h3, h4⟩
    rw [h1]
    dsimp only
    rw [Periph.nextIdx_toNat p (by omega)]
    cases p.wp <;> simp [storeAt]

/-- The data bytes of a RAM burst write (20_memory.md R87). -/
theorem Periph.foldl_take_ram (bytes : List Byte) (p : Periph) (hc : p.cmd = Config.cmdRamWr) (hp : p.phase = .writeData)
    (hi : p.idx.toNat + bytes.length ≤ 31) :
    (bytes.foldl Periph.take p).ram = (if p.wp then p.ram else storeAt p.idx.toNat bytes p.ram) ∧
      (bytes.foldl Periph.take p).clkreg = p.clkreg ∧ (bytes.foldl Periph.take p).wp = p.wp ∧
      (bytes.foldl Periph.take p).tcs = p.tcs := by
  induction bytes generalizing p with
  | nil => simp [storeAt]
  | cons v bytes ih =>
    simp only [List.length_cons] at hi
    have ht : p.take v = { p with
        ram := if p.wp then p.ram else p.ram.setIfInBounds p.idx.toNat v
        idx := p.nextIdx
        clk := .high } := by
      simp only [Periph.take, Periph.accept, hp, Periph.store, hc]
      cases hw : p.wp <;> simp [hw, hp, hc]
    rw [List.foldl_cons, ht]
    obtain ⟨h1, h2, h3, h4⟩ := ih { p with
      ram := if p.wp then p.ram else p.ram.setIfInBounds p.idx.toNat v, idx := p.nextIdx, clk := .high } hc hp
      (by dsimp only; rw [Periph.nextIdx_toNat p (by omega)]; omega)
    refine ⟨?_, h2, h3, h4⟩
    rw [h1]
    dsimp only
    rw [Periph.nextIdx_toNat p (by omega)]
    cases p.wp <;> simp [storeAt]

/-! ### Read frames -/

/-- The bytes the peripheral presents for its command (20_memory.md R88). -/
def Periph.region (p : Periph) : List Byte :=
  if p.cmd = Config.cmdClkRd then p.clkreg.toList else if p.cmd = Config.cmdRamRd then p.ram.toList else []

theorem Periph.presented_eq (p : Periph) : p.presented = p.region[p.idx.toNat]? := by
  unfold Periph.presented Periph.region
  repeat' split
  all_goals simp

/-- One bit presented by the peripheral (20_memory.md R88, R89). -/
theorem Env.readBit_periph {e : Env} {p : Periph} (h : e.periph = some p) (r : PinRegs) (d : BitVec 16) (b : Byte)
    (hr : r.clkDir = .output) (ha : p.active = true) (hp : p.phase = .readData) (hb : p.presented = some b) :
    e.readBit r d =
      (lvl (b.getLsbD p.bc.toNat),
        e.with (readPulseEvents d ++ [.rd .io (lvl (b.getLsbD p.bc.toNat))])
          { p with
            out := some (lvl (b.getLsbD p.bc.toNat))
            bc := p.bc + 1
            idx := if p.bc = 7 then p.nextIdx else p.idx
            clk := .low }) := by
  have hlow : ∀ (a : List PinEvent) (r : PinRegs), r.clkDir = .output →
      (e.with a { p with clk := .high }).see r (.wr .clk .low) =
        e.with (a ++ [.wr .clk .low])
          { p with
            out := some (lvl (b.getLsbD p.bc.toNat))
            bc := p.bc + 1
            idx := if p.bc = 7 then p.nextIdx else p.idx
            clk := .low } := by
    intro a r hr
    have hb' : ({ p with clk := .high } : Periph).presented = some b := hb
    simp only [Env.see, Env.react, Env.record_periph, Env.with_periph, hr, ↓reduceIte, Env.clkLow, hb']
    simp [Env.with, Env.record, Periph.nextIdx, ha, hp]
  simp only [Env.readBit, readPulseEvents, Env.seeAll_cons, Env.seeAll_nil]
  rw [Env.see_clkHigh h _ (by simp [PinRegs.apply, hr]) hp, Env.with_see_dly, hlow _ _ (by simp [PinRegs.apply, hr]),
    Env.with_see_dly]
  simp [Env.sample, Env.with, Env.record]

/-- The last `n` bits of a byte presented by the peripheral. -/
theorem Env.readBits_periph (d : BitVec 16) (b : Byte) (n : Nat) {e : Env} {p : Periph} (h : e.periph = some p)
    (r : PinRegs) (hr : r.clkDir = .output) (ha : p.active = true) (hp : p.phase = .readData)
    (hb : p.presented = some b) (hn : p.bc.toNat + (n + 1) = 8) :
    e.readBits d (n + 1) r =
      ((List.range' p.bc.toNat (n + 1)).map fun i => lvl (b.getLsbD i),
        e.with (((List.range' p.bc.toNat (n + 1)).map fun i => lvl (b.getLsbD i)).flatMap
            fun l => readPulseEvents d ++ [.rd .io l])
          { p with out := some (lvl (b.getLsbD 7)), bc := 0, idx := p.nextIdx, clk := .low }) := by
  induction n generalizing e p r with
  | zero =>
    have h7 : p.bc = 7 := by apply BitVec.eq_of_toNat_eq; simp; omega
    rw [Env.readBits, Env.readBit_periph h r d b hr ha hp hb]
    simp [Env.readBits, h7]
  | succ n ih =>
    have h7 : p.bc ≠ 7 := by intro hh; rw [hh] at hn; simp at hn; omega
    have hbc : (p.bc + 1).toNat = p.bc.toNat + 1 := by rw [BitVec.toNat_add]; simp; omega
    rw [Env.readBits, Env.readBit_periph h r d b hr ha hp hb]
    dsimp only
    rw [if_neg h7, ih (p := { p with out := some (lvl (b.getLsbD p.bc.toNat)), bc := p.bc + 1, clk := .low }) rfl
      { r with clkO := .low } hr ha hp hb (by dsimp only; rw [hbc]; omega)]
    dsimp only
    rw [hbc, Env.with_with]
    simp [List.range'_succ, Periph.nextIdx]

theorem Env.readByte_periph (d : BitVec 16) (u : Pull) (b : Byte) {e : Env} {p : Periph} (h : e.periph = some p)
    (r : PinRegs) (hr : r.clkDir = .output) (ha : p.active = true) (hp : p.phase = .readData)
    (hb : p.presented = some b) (hn : p.bc = 0) :
    e.readByte d u r =
      (b, e.with (readByteEvents d u b)
        { p with out := some (lvl (b.getLsbD 7)), bc := 0, idx := p.nextIdx, clk := .low }) := by
  have hl : ((List.range' p.bc.toNat (7 + 1)).map fun i => lvl (b.getLsbD i)) = byteLevels b := by rw [hn]; rfl
  rw [Env.readByte, Env.see_ignored h _ _ (by simp),
    Env.readBits_periph d b 7 (Env.with_periph _ _ _) { r with ioDir := .input, ioPull := u } hr ha hp hb (by simp [hn]), hl]
  simp [levelsAt_byteLevels, readByteEvents]

/-- The data bytes of a read frame (20_memory.md R88). -/
theorem Env.readBytes_periph (d : BitVec 16) (u : Pull) (bytes : List Byte) {e : Env} {p : Periph}
    (h : e.periph = some p) (r : PinRegs) (hr : r.clkDir = .output) (ha : p.active = true) (hp : p.phase = .readData)
    (hn : p.bc = 0) (hclk : bytes = [] → p.clk = .low) (hb : (p.region.drop p.idx.toNat).take bytes.length = bytes)
    (hi : p.idx.toNat + bytes.length ≤ 31) :
    ∃ q, e.readBytes d u bytes.length r = (bytes, e.with (bytes.flatMap (readByteEvents d u)) q) ∧
      q.clk = .low ∧ q.clkreg = p.clkreg ∧ q.ram = p.ram ∧ q.wp = p.wp ∧ q.tcs = p.tcs := by
  induction bytes generalizing e p r with
  | nil => exact ⟨p, by simp [Env.readBytes, Env.with, ← h], hclk rfl, rfl, rfl, rfl, rfl⟩
  | cons b bytes ih =>
    simp only [List.length_cons] at hb hi
    have hlt : p.idx.toNat < p.region.length := by
      have := congrArg List.length hb
      simp at this; omega
    rw [List.drop_eq_getElem_cons hlt, List.take_succ_cons, List.cons.injEq] at hb
    have hpres : p.presented = some b := by
      rw [Periph.presented_eq, List.getElem?_eq_getElem hlt, hb.1]
    rw [List.length_cons, Env.readBytes_succ, Env.readByte_periph d u b h r hr ha hp hpres hn]
    obtain ⟨q, h1, h2⟩ := ih (e := e.with (readByteEvents d u b)
        { p with out := some (lvl (b.getLsbD 7)), bc := 0, idx := p.nextIdx, clk := .low }) rfl
      { r with ioDir := .input, ioPull := u, clkO := .low } hr ha hp rfl (fun _ => rfl)
      (by
        dsimp only
        rw [Periph.nextIdx_toNat p (by omega)]
        exact hb.2)
      (by dsimp only; rw [Periph.nextIdx_toNat p (by omega)]; omega)
    refine ⟨q, ?_, h2⟩
    dsimp only
    rw [h1]
    simp

/-- A read frame (20_memory.md R83 to R89): it returns the front of the region, and nothing stored changes. -/
theorem Env.frameRead_periph (cfg : Cfg) (c : Byte) (bytes : List Byte) {e : Env} {p : Periph}
    (h : e.periph = some p) (r : PinRegs) (hr : r.clkDir = .output ∧ r.ceDir = .output) (hp : p.waiting)
    (hc : c = Config.cmdClkRd ∨ c = Config.cmdRamRd) (hne : bytes ≠ [])
    (hb : ({ p with cmd := c } : Periph).region.take bytes.length = bytes) (hi : bytes.length ≤ 31) :
    ∃ q, e.frameRead cfg c bytes.length r = (bytes, e.with (readFrame cfg c bytes) q) ∧
      q.waiting ∧ q.clkreg = p.clkreg ∧ q.ram = p.ram ∧ q.wp = p.wp ∧ q.tcs = p.tcs := by
  have hd : ({ p.opened.accept c with clk := .high } : Periph) =
      { p.opened with cmd := c, phase := .readData, clk := .high } := by
    rcases hc with rfl | rfl <;> rfl
  obtain ⟨q, h1, h2, h3⟩ := Env.readBytes_periph cfg.clkDelay cfg.ioPull bytes
    (e := e.with (txOpenEvents cfg ++ writeByteEvents cfg.clkDelay c)
      { p.opened with cmd := c, phase := .readData, clk := .high }) rfl
    (r.applyAll (txOpenEvents cfg ++ writeByteEvents cfg.clkDelay c))
    (by simp [applyAll_txOpenEvents, applyAll_writeByteEvents, hr]) rfl rfl rfl (fun hn => absurd hn hne)
    (by
      show (List.drop 0 (Periph.region _)).take bytes.length = bytes
      exact hb)
    (by
      show 0 + bytes.length ≤ 31
      omega)
  rw [Env.frameRead, Env.seeAll_append, Env.seeAll_txOpen h r cfg hr hp,
    Env.seeAll_writeByte (Env.with_periph _ _ _) _ _ c (by simp [applyAll_txOpenEvents, hr])
      ⟨rfl, .inl rfl, rfl, rfl⟩ (.inl rfl), hd, Env.with_with, h1]
  dsimp only
  rw [Env.seeAll_txClose (Env.with_periph _ _ _) _ cfg (by simp [hr]) (.inr h2)]
  exact ⟨q.shut, by simp [readFrame], ⟨rfl, rfl, rfl⟩, h3⟩

/-! ### The frames of the six commands -/

/-- INIT's first maintenance frame (20_memory.md R87). -/
theorem Env.wp_frame (cfg : Cfg) {e : Env} {p : Periph} (h : e.periph = some p)
    (r : PinRegs) (hr : r.clkDir = .output ∧ r.ceDir = .output) (hp : p.waiting) :
    ∃ q, e.seeAll r (writeFrame cfg 0x8E [0]) = e.with (writeFrame cfg 0x8E [0]) q ∧ q.waiting ∧
     q.wp = false ∧ q.clkreg = p.clkreg ∧ q.ram = p.ram :=
  ⟨_, Env.seeAll_writeFrame cfg 0x8E [0] h r hr hp (.inl rfl) (.inr (by simp)), ⟨rfl, rfl, rfl⟩, rfl, rfl, rfl⟩

/-- INIT's second maintenance frame. -/
theorem Env.tcs_frame (cfg : Cfg) {e : Env} {p : Periph} (h : e.periph = some p)
    (r : PinRegs) (hr : r.clkDir = .output ∧ r.ceDir = .output) (hp : p.waiting) (hw : p.wp = false) :
    ∃ q, e.seeAll r (writeFrame cfg 0x90 [0]) = e.with (writeFrame cfg 0x90 [0]) q ∧ q.waiting ∧
     q.wp = false ∧ q.tcs = 0 ∧ q.clkreg = p.clkreg ∧ q.ram = p.ram := by
  refine ⟨_, Env.seeAll_writeFrame cfg 0x90 [0] h r hr hp (.inr (.inl rfl)) (.inl (by decide)), ⟨rfl, rfl, rfl⟩, ?_⟩
  have ht : ({ p.opened with cmd := 0x90, phase := .writeData, clk := .high } : Periph).take 0 = { p.opened with cmd := 0x90, phase := .writeData, clk := .high, tcs := 0, idx := 1 } := by
    have h1 : p.opened.wp = false := hw
    simp only [Periph.take, Periph.accept, Periph.store, h1]
    rfl
  simp only [List.foldl_cons, List.foldl_nil, ht]
  exact ⟨hw, rfl, rfl, rfl⟩

/-- A write clock burst. -/
theorem Env.clkWrite_frame (cfg : Cfg) (img : Vector Byte 7) {e : Env} {p : Periph} (h : e.periph = some p)
    (r : PinRegs) (hr : r.clkDir = .output ∧ r.ceDir = .output) (hp : p.waiting) :
    ∃ q, e.seeAll r (writeFrame cfg 0xBE img.toList) = e.with (writeFrame cfg 0xBE img.toList) q ∧ q.waiting ∧
     q.clkreg = (if p.wp then p.clkreg else img) ∧ q.ram = p.ram ∧ q.wp = p.wp ∧ q.tcs = p.tcs := by
  refine ⟨_, Env.seeAll_writeFrame cfg 0xBE img.toList h r hr hp (.inr (.inr (.inl rfl))) (.inl (by decide)), ⟨rfl, rfl, rfl⟩, ?_⟩
  obtain ⟨h1, h2, h3, h4⟩ := Periph.foldl_take_clk img.toList { p.opened with cmd := 0xBE, phase := .writeData, clk := .high } rfl rfl (by show 0 + _ ≤ 31; simp)
  refine ⟨?_, h2, h3, h4⟩
  show (List.foldl Periph.take _ img.toList).clkreg = _
  rw [h1]
  show (if p.wp = true then p.clkreg else storeAt 0 img.toList p.clkreg) = _
  rw [storeAt_zero _ _ (by simp), Vector.toList_inj.mp (loadFront_full p.clkreg img.toList (by simp))]

/-- A write RAM burst. -/
theorem Env.ramWrite_frame (cfg : Cfg) (bytes : List Byte) (hb : bytes.length ≤ 31) {e : Env} {p : Periph} (h : e.periph = some p)
    (r : PinRegs) (hr : r.clkDir = .output ∧ r.ceDir = .output) (hp : p.waiting) :
    ∃ q, e.seeAll r (writeFrame cfg 0xFE bytes) = e.with (writeFrame cfg 0xFE bytes) q ∧ q.waiting ∧
     q.ram = (if p.wp then p.ram else loadFront p.ram bytes) ∧ q.clkreg = p.clkreg ∧ q.wp = p.wp ∧ q.tcs = p.tcs := by
  refine ⟨_, Env.seeAll_writeFrame cfg 0xFE bytes h r hr hp (.inr (.inr (.inr rfl))) (.inl (by decide)), ⟨rfl, rfl, rfl⟩, ?_⟩
  obtain ⟨h1, h2, h3, h4⟩ := Periph.foldl_take_ram bytes { p.opened with cmd := 0xFE, phase := .writeData, clk := .high } rfl rfl (by show 0 + _ ≤ 31; omega)
  refine ⟨?_, h2, h3, h4⟩
  show (List.foldl Periph.take _ bytes).ram = _
  rw [h1]
  show (if p.wp = true then p.ram else storeAt 0 bytes p.ram) = _
  rw [storeAt_zero _ _ hb]

/-- A read clock burst. -/
theorem Env.clkRead_frame (cfg : Cfg) {e : Env} {p : Periph} (h : e.periph = some p)
    (r : PinRegs) (hr : r.clkDir = .output ∧ r.ceDir = .output) (hp : p.waiting) :
    ∃ q, e.frameRead cfg 0xBF 7 r = (p.clkreg.toList, e.with (readFrame cfg 0xBF p.clkreg.toList) q) ∧
      q.waiting ∧ q.clkreg = p.clkreg ∧ q.ram = p.ram ∧ q.wp = p.wp ∧ q.tcs = p.tcs := by
  have := Env.frameRead_periph cfg 0xBF p.clkreg.toList h r hr hp (.inl rfl) (by intro hh; have := congrArg List.length hh; simp at this) (by show p.clkreg.toList.take _ = _; simp) (by simp)
  rw [show p.clkreg.toList.length = 7 by simp] at this
  exact this

/-- A read RAM burst. -/
theorem Env.ramRead_frame (cfg : Cfg) {e : Env} {p : Periph} (h : e.periph = some p)
    (r : PinRegs) (hr : r.clkDir = .output ∧ r.ceDir = .output) (hp : p.waiting) :
    ∃ q, e.frameRead cfg 0xFF 31 r = (p.ram.toList, e.with (readFrame cfg 0xFF p.ram.toList) q) ∧
      q.waiting ∧ q.clkreg = p.clkreg ∧ q.ram = p.ram ∧ q.wp = p.wp ∧ q.tcs = p.tcs := by
  have := Env.frameRead_periph cfg 0xFF p.ram.toList h r hr hp (.inr rfl) (by intro hh; have := congrArg List.length hh; simp at this) (by show p.ram.toList.take _ = _; simp) (by simp)
  rw [show p.ram.toList.length = 31 by simp] at this
  exact this

end Sys2Proof.Machine
end

