-- ==== Sys2Proof/Laws/Steps.lean ====
section
/-! SUPPORT. Inversion: every way an operation ends and every way a step goes, said once. -/

namespace Sys2Proof.Machine

/-- How an operation of `s` that answers a next state has ended. -/
inductive Ended (i : Instr) (s t : State) : Prop
  /-- An error raised before any event (60_exceptions.md R231): only the response is new. GpioAcquisitionError is
  INIT's (R222). -/
  | refused (e : EngineError) (he : e.code ≠ 4) (ht : t = refusedWith e s)
      (hg : e.code = 1 → s.drv = .uninitialized ∧ ∃ a b c d e f g, i = .init a b c d e f g := by
        intro h; exact absurd h (by decide))
  /-- MalformedRegisterError (60_exceptions.md R225, R231). -/
  | malformed (e : EngineError) (u : State) (he : e.code = 4) (ht : t = refusedWith e u)
      (hi : i = .readDatetime ∨ ∃ img, i = .bcdDecode img) (hd : u.drv = s.drv) (hc : u.cfg = s.cfg)
      (hx : u.tx = s.tx) (hb : u.buf.cal = s.buf.cal)
  /-- Success. -/
  | done (v : Value) (hr : t.resp = some { err := 0, info := 0, value := v })
      (hq : t.seq = .idle)
      (hd : t.drv = s.drv ∨ (i = .close ∧ s.drv = .ready ∧ t.drv = .closed) ∨
        (∃ a b c d e f g, i = .init a b c d e f g ∧ s.drv = .uninitialized ∧ t.drv = .ready ∧ v = .none ∧
          t.cfg = { clkDelay := d, settleDelay := e, dataResetOrder := f, ioPull := g, pins := ⟨a, b, c⟩ }))
      (hc : t.cfg = s.cfg ∨ ∃ a b c d e f g, i = .init a b c d e f g ∧ s.drv = .uninitialized ∧ t.drv = .ready ∧
          t.cfg = { clkDelay := d, settleDelay := e, dataResetOrder := f, ioPull := g, pins := ⟨a, b, c⟩ })
      (hs : i.format ≠ .h → t.status = s.status ∧ t.port = s.port)

theorem ended_answered (i : Instr) (s u : State) (v : Value) (hd : u.drv = s.drv) (hc : u.cfg = s.cfg)
    (hs : u.status = s.status ∧ u.port = s.port) : Ended i s (answeredWith v u) :=
  .done v rfl rfl (.inl hd) (.inl hc) fun _ => hs

theorem ended_finished (i : Instr) (s u : State) (v : Value) (hd : u.drv = s.drv) (hc : u.cfg = s.cfg)
    (hi : i.format = .h) : Ended i s (finishedWith v u) :=
  .done v rfl rfl (.inl hd) (.inl hc) fun h => absurd hi h

theorem next_inj {a b : State} (h : (Host.Outcome.next a : Host.Outcome State Fault Refusal) = .next b) : a = b := by
  injection h

/-- BCD_DECODE raises MalformedRegisterError only (43_bcd_codec.md R166, R167). -/
theorem bcdDecode_code {img : Vector Byte 7} {e : EngineError} (h : bcdDecode img = .error e) : e.code = 4 := by
  simp only [bcdDecode] at h
  split at h
  · cases h; rfl
  · split at h <;> cases h; rfl

theorem initGate_cases (a b c : PinId) (s : State) :
    (∃ e, e.code ≠ 4 ∧ (e.code = 1 → s.drv = .uninitialized) ∧ initGate a b c s = .error e) ∨
    (s.drv = .uninitialized ∧ s.tx = .idle ∧ (a ≠ b ∧ a ≠ c ∧ b ≠ c) ∧
      (a ∈ s.env.validPins ∧ b ∈ s.env.validPins ∧ c ∈ s.env.validPins)) := by
  unfold initGate
  by_cases h1 : s.drv = .uninitialized
  · by_cases h2 : s.tx = .opened
    · exact .inl ⟨.usage .nestedOpen, by decide, fun _ => h1, by rw [if_neg (not_not.mpr h1), if_pos h2]⟩
    · by_cases h3 : a = b ∨ a = c ∨ b = c
      · exact .inl ⟨.gpioAcquisition .pinsNotDistinct, by decide, fun _ => h1,
          by rw [if_neg (not_not.mpr h1), if_neg h2, if_pos h3]⟩
      · by_cases h4 : ¬ (pinValid s a ∧ pinValid s b ∧ pinValid s c)
        · exact .inl ⟨.gpioAcquisition .pinInvalid, by decide, fun _ => h1,
            by rw [if_neg (not_not.mpr h1), if_neg h2, if_neg h3, if_pos h4]⟩
        · refine .inr ⟨h1, by cases h : s.tx <;> simp_all, by tauto, by simpa [pinValid] using h4⟩
  · exact .inl ⟨.usage .initNotAllowed, by decide, fun h => absurd h (by decide), by rw [if_pos h1]⟩

/-- Every way any operation ends. -/
theorem exec_ended {i : Instr} {s t : State} (h : exec i s = .next t) : Ended i s t := by
  have htx : s.tx = .idle ∨ s.tx = .opened := by cases s.tx <;> simp
  have nested : ∀ {u}, (Host.Outcome.next (refusedWith (.usage .nestedOpen) s) : Host.Outcome State Fault Refusal) = .next u →
      Ended i s u := fun h => .refused _ (by decide) (next_inj h).symm
  have idle : ∀ {u}, (Host.Outcome.next (refusedWith (.usage .transferWhileIdle) s) : Host.Outcome State Fault Refusal) = .next u →
      Ended i s u := fun h => .refused _ (by decide) (next_inj h).symm
  cases i with
  | init a b c d e f g =>
    simp only [exec] at h
    rcases initGate_cases a b c s with ⟨er, h1, h0, h2⟩ | ⟨h1, h2, h3, h4⟩
    · rw [execInit_error d e f g h2] at h
      exact .refused _ h1 (next_inj h).symm fun h => ⟨h0 h, a, b, c, d, e, f, g, rfl⟩
    · rw [execInit_ok d e f g h1 h2 h3 h4] at h
      rw [← next_inj h]
      exact .done .none rfl rfl (.inr (.inr ⟨a, b, c, d, e, f, g, rfl, h1, rfl, rfl, rfl⟩))
        (.inr ⟨a, b, c, d, e, f, g, rfl, h1, rfl, rfl⟩) fun h => absurd rfl h
  | readDatetime =>
    simp only [exec] at h
    rcases readyGate_cases s with ⟨-, h1⟩ | ⟨-, -, h1⟩ | ⟨h1, h2, -⟩
    · rw [(execDataOp_gate h1).1] at h; exact .refused _ (by decide) (next_inj h).symm
    · rw [(execDataOp_gate h1).1] at h; exact .refused _ (by decide) (next_inj h).symm
    · rw [execReadDatetime_ok h1 h2] at h
      dsimp only at h
      generalize s.env.frameRead s.cfg 0xBF 7 s.pin = q at h
      generalize loadFront s.buf.img q.1 = img at h
      cases hd : bcdDecode img with
      | ok c => rw [hd] at h; rw [← next_inj h]; exact ended_finished _ _ _ _ rfl rfl rfl
      | error e => rw [hd] at h; exact .malformed e _ (bcdDecode_code hd) (next_inj h).symm (.inl rfl) rfl rfl rfl rfl
  | writeDatetime y mo d hh mi sec =>
    simp only [exec] at h
    rcases readyGate_cases s with ⟨-, h1⟩ | ⟨-, -, h1⟩ | ⟨h1, h2, -⟩
    · rw [(execDataOp_gate h1).2.2.1] at h; exact .refused _ (by decide) (next_inj h).symm
    · rw [(execDataOp_gate h1).2.2.1] at h; exact .refused _ (by decide) (next_inj h).symm
    · cases hb : encodeBounds y.toNat mo.toNat d.toNat hh.toNat mi.toNat sec.toNat with
      | none => rw [execWriteDatetime_ok h1 h2 hb] at h; rw [← next_inj h]; exact ended_finished _ _ _ _ rfl rfl rfl
      | some f => rw [execWriteDatetime_error h1 h2 hb] at h; exact .refused _ (by simp [EngineError.code]) (next_inj h).symm (by simp [EngineError.code])
  | readRam =>
    simp only [exec] at h
    rcases readyGate_cases s with ⟨-, h1⟩ | ⟨-, -, h1⟩ | ⟨h1, h2, -⟩
    · rw [(execDataOp_gate h1).2.1] at h; exact .refused _ (by decide) (next_inj h).symm
    · rw [(execDataOp_gate h1).2.1] at h; exact .refused _ (by decide) (next_inj h).symm
    · rw [execReadRam_ok h1 h2] at h
      generalize s.env.frameRead s.cfg 0xFF 31 s.pin = q at h
      rw [← next_inj h]; exact ended_finished _ _ _ _ rfl rfl rfl
  | writeRam len image =>
    simp only [exec] at h
    rcases readyGate_cases s with ⟨-, h1⟩ | ⟨-, -, h1⟩ | ⟨h1, h2, -⟩
    · rw [(execDataOp_gate h1).2.2.2] at h; exact .refused _ (by decide) (next_inj h).symm
    · rw [(execDataOp_gate h1).2.2.2] at h; exact .refused _ (by decide) (next_inj h).symm
    · rw [execWriteRam_ok len image h1 h2] at h
      rw [← next_inj h]; exact ended_finished _ _ _ _ rfl rfl rfl
  | close =>
    simp only [exec] at h
    cases hd : s.drv with
    | uninitialized => rw [execClose_uninitialized hd] at h; exact .refused _ (by decide) (next_inj h).symm
    | closed => rw [execClose_closed hd] at h; rw [← next_inj h]; exact ended_finished _ _ _ _ rfl rfl rfl
    | ready =>
      rcases htx with ht | ht
      · rw [execClose_ready hd ht] at h; rw [← next_inj h]
        exact .done _ rfl rfl (.inr (.inl ⟨rfl, hd, rfl⟩)) (.inl rfl) fun h => absurd rfl h
      · rw [execClose_opened hd ht] at h; rw [← next_inj h]
        exact .done _ rfl rfl (.inr (.inl ⟨rfl, hd, rfl⟩)) (.inl rfl) fun h => absurd rfl h
  | cmdWp =>
    simp only [exec] at h
    rcases htx with ht | ht
    · rw [execCmdWp_ok ht] at h; rw [← next_inj h]; exact ended_answered _ _ _ _ rfl rfl ⟨rfl, rfl⟩
    · simp only [execCmdWp] at h; rw [regWrite_eq, burstWrite_nested _ _ ht] at h; exact nested h
  | cmdTcs =>
    simp only [exec] at h
    rcases htx with ht | ht
    · rw [execCmdTcs_ok ht] at h; rw [← next_inj h]; exact ended_answered _ _ _ _ rfl rfl ⟨rfl, rfl⟩
    · simp only [execCmdTcs] at h; rw [regWrite_eq, burstWrite_nested _ _ ht] at h; exact nested h
  | cmdClkWr =>
    simp only [exec] at h
    rcases htx with ht | ht
    · rw [execCmdClkWr_ok ht] at h; rw [← next_inj h]; exact ended_answered _ _ _ _ rfl rfl ⟨rfl, rfl⟩
    · simp only [execCmdClkWr, clockWrite] at h; rw [burstWrite_nested _ _ ht] at h; exact nested h
  | cmdClkRd =>
    simp only [exec] at h
    rcases htx with ht | ht
    · rw [execCmdClkRd_ok ht] at h
      generalize s.env.frameRead s.cfg 0xBF 7 s.pin = q at h
      rw [← next_inj h]; exact ended_answered _ _ _ _ rfl rfl ⟨rfl, rfl⟩
    · simp only [execCmdClkRd, clockRead] at h; rw [burstRead_nested _ _ ht] at h; exact nested h
  | cmdRamWr len =>
    simp only [exec] at h
    rcases htx with ht | ht
    · rw [execCmdRamWr_ok len ht] at h; rw [← next_inj h]; exact ended_answered _ _ _ _ rfl rfl ⟨rfl, rfl⟩
    · simp only [execCmdRamWr, ramWrite] at h; rw [burstWrite_nested _ _ ht] at h; exact nested h
  | cmdRamRd =>
    simp only [exec] at h
    rcases htx with ht | ht
    · rw [execCmdRamRd_ok ht] at h
      generalize s.env.frameRead s.cfg 0xFF 31 s.pin = q at h
      rw [← next_inj h]; exact ended_answered _ _ _ _ rfl rfl ⟨rfl, rfl⟩
    · simp only [execCmdRamRd, ramRead] at h; rw [burstRead_nested _ _ ht] at h; exact nested h
  | txOpen =>
    simp only [exec] at h
    rcases htx with ht | ht
    · rw [execTxOpen_ok ht] at h; rw [← next_inj h]; exact ended_answered _ _ _ _ rfl rfl ⟨rfl, rfl⟩
    · simp only [execTxOpen] at h; rw [txOpen_nested ht] at h; exact nested h
  | txClose =>
    simp only [exec] at h
    rw [execTxClose_ok s] at h; rw [← next_inj h]; exact ended_answered _ _ _ _ rfl rfl ⟨rfl, rfl⟩
  | writeByte v =>
    simp only [exec] at h
    rcases htx with ht | ht
    · simp only [execWriteByte] at h; rw [writeByte_idle v ht] at h; exact idle h
    · rw [execWriteByte_ok v ht] at h; rw [← next_inj h]; exact ended_answered _ _ _ _ rfl rfl ⟨rfl, rfl⟩
  | readByte =>
    simp only [exec] at h
    rcases htx with ht | ht
    · simp only [execReadByte] at h; rw [readByte_idle ht] at h; exact idle h
    · rw [execReadByte_ok ht] at h
      generalize s.env.readByte s.cfg.clkDelay s.cfg.ioPull s.pin = q at h
      rw [← next_inj h]; exact ended_answered _ _ _ _ rfl rfl ⟨rfl, rfl⟩
  | bcdPack v =>
    simp only [exec, execBcdPack] at h
    split at h
    · rw [← next_inj h]; exact ended_answered _ _ _ _ rfl rfl ⟨rfl, rfl⟩
    · cases h
  | bcdUnpack b m =>
    simp only [exec, execBcdUnpack] at h
    rw [← next_inj h]; exact ended_answered _ _ _ _ rfl rfl ⟨rfl, rfl⟩
  | dow y m d =>
    simp only [exec, execDow] at h
    split at h
    · rw [← next_inj h]; exact ended_answered _ _ _ _ rfl rfl ⟨rfl, rfl⟩
    · cases h
  | bcdEncode y mo d hh mi sec =>
    simp only [exec] at h
    cases hb : encodeBounds y.toNat mo.toNat d.toNat hh.toNat mi.toNat sec.toNat with
    | none => rw [execBcdEncode_ok s hb] at h; rw [← next_inj h]; exact ended_answered _ _ _ _ rfl rfl ⟨rfl, rfl⟩
    | some f => rw [execBcdEncode_error s hb] at h; exact .refused _ (by simp [EngineError.code]) (next_inj h).symm (by simp [EngineError.code])
  | bcdDecode img =>
    simp only [exec, execBcdDecode] at h
    cases hd : bcdDecode img with
    | ok c => rw [hd] at h; rw [← next_inj h]; exact ended_answered _ _ _ _ rfl rfl ⟨rfl, rfl⟩
    | error e =>
      rw [hd] at h
      exact .malformed e s (bcdDecode_code hd) (next_inj h).symm (.inr ⟨img, rfl⟩) rfl rfl rfl rfl
  | regWrite c v =>
    simp only [exec] at h
    rcases htx with ht | ht
    · rw [execRegWrite_ok c v ht] at h; rw [← next_inj h]; exact ended_answered _ _ _ _ rfl rfl ⟨rfl, rfl⟩
    · simp only [execRegWrite] at h; rw [regWrite_eq, burstWrite_nested _ _ ht] at h; exact nested h
  | burstRead c n =>
    simp only [exec] at h
    rcases htx with ht | ht
    · rw [execBurstRead_ok c n ht] at h
      generalize s.env.frameRead s.cfg c n.toNat s.pin = q at h
      rw [← next_inj h]; exact ended_answered _ _ _ _ rfl rfl ⟨rfl, rfl⟩
    · simp only [execBurstRead] at h; rw [burstRead_nested _ _ ht] at h; exact nested h
  | burstWrite c n data =>
    simp only [exec] at h
    rcases htx with ht | ht
    · rw [execBurstWrite_ok c n data ht] at h; rw [← next_inj h]; exact ended_answered _ _ _ _ rfl rfl ⟨rfl, rfl⟩
    · simp only [execBurstWrite] at h; rw [burstWrite_nested _ _ ht] at h; exact nested h
  | dir p m u => simp only [exec, execDir] at h; rw [← next_inj h]; exact ended_answered _ _ _ _ rfl rfl ⟨rfl, rfl⟩
  | wr p l => simp only [exec, execWr] at h; rw [← next_inj h]; exact ended_answered _ _ _ _ rfl rfl ⟨rfl, rfl⟩
  | rd p => simp only [exec, execRd] at h; rw [← next_inj h]; exact ended_answered _ _ _ _ rfl rfl ⟨rfl, rfl⟩
  | dly d => simp only [exec, execDly] at h; rw [← next_inj h]; exact ended_answered _ _ _ _ rfl rfl ⟨rfl, rfl⟩
  | rel p => simp only [exec, execRel] at h; rw [← next_inj h]; exact ended_answered _ _ _ _ rfl rfl ⟨rfl, rfl⟩

/-- A host operation emits nothing in Closed, and nothing but INIT emits anything in Uninitialized
(40_pin_primitives.md R130). -/
theorem exec_host_silent {i : Instr} {s t : State} (hi : i.format = .h) (hn : s.drv ≠ .ready)
    (hu : s.drv = .uninitialized → ¬ ∃ a b c d e f g, i = .init a b c d e f g) (h : exec i s = .next t) :
    t.env = s.env := by
  have gate : readyGate s = .error (.usage .notReady) := by
    rcases readyGate_cases s with ⟨-, h1⟩ | ⟨h1, -⟩ | ⟨h1, -⟩
    · exact h1
    · exact absurd h1 hn
    · exact absurd h1 hn
  cases i with
  | init a b c d e f g =>
    simp only [exec] at h
    rcases initGate_cases a b c s with ⟨er, -, -, h2⟩ | ⟨h1, -⟩
    · rw [execInit_error d e f g h2] at h; rw [← next_inj h]; rfl
    · exact absurd ⟨a, b, c, d, e, f, g, rfl⟩ (hu h1)
  | readDatetime => simp only [exec] at h; rw [(execDataOp_gate gate).1] at h; rw [← next_inj h]; rfl
  | writeDatetime => simp only [exec] at h; rw [(execDataOp_gate gate).2.2.1] at h; rw [← next_inj h]; rfl
  | readRam => simp only [exec] at h; rw [(execDataOp_gate gate).2.1] at h; rw [← next_inj h]; rfl
  | writeRam => simp only [exec] at h; rw [(execDataOp_gate gate).2.2.2] at h; rw [← next_inj h]; rfl
  | close =>
    simp only [exec] at h
    cases hd : s.drv with
    | uninitialized => rw [execClose_uninitialized hd] at h; rw [← next_inj h]; rfl
    | closed => rw [execClose_closed hd] at h; rw [← next_inj h]; rfl
    | ready => exact absurd hd hn
  | cmdWp | cmdTcs | cmdClkWr | cmdClkRd | cmdRamWr | cmdRamRd | txOpen | txClose | writeByte | readByte | bcdPack
  | bcdUnpack | dow | bcdEncode | bcdDecode | regWrite | burstRead | burstWrite | dir | wr | rd | dly | rel => cases hi

/-- What an idle engine makes of its next request, before a pending reset is looked at. -/
inductive Ran (s t : State) : Prop
  | operation (r : Request) (rest : List Request) (i : Instr) (extra : List Byte)
      (hr : s.port.requests = r :: rest) (hf : r.format = .h ∨ s.port.direct = true) (hd : decode r.format r.bytes = .ok (i, extra))
      (he : Ended i s.takeRequest t) (hx : exec i s.takeRequest = .next t)
  | illegal (r : Request) (rest : List Request) (hr : s.port.requests = r :: rest)
      (ht : t = refusedWith (.usage .illegalOp) s.takeRequest)

/-- Every way a step can go. -/
theorem step_cases {s t : State} (h : step s = .next t) :
    (s.port.resetIn = some 0 ∧ t = s.engineReset) ∨
    (t = s) ∨
    (s.idle = true ∧ s.port.resetIn = none ∧ Ran s t) ∨
    (∃ k u, s.idle = true ∧ s.port.resetIn = some (k + 1) ∧ Ran s u ∧ t = s.takeRequest.abandonAfter (k + 1) u) := by
  unfold step at h
  split at h
  · rename_i h0
    exact .inl ⟨h0, (next_inj h).symm⟩
  · rename_i h0
    split at h
    · rename_i hi
      split at h
      · exact .inr (.inl (next_inj h).symm)
      rename_i r rest hr
      split at h
      · rename_i hf
        replace hf : r.format = .h ∨ s.port.direct = true := by simpa [Port.takes] using hf
        have key : ∀ o : Host.Outcome State Fault Refusal, withReset s.takeRequest o = .next t →
            (∀ u, o = .next u → Ran s u) →
            (t = s) ∨ (s.idle = true ∧ s.port.resetIn = none ∧ Ran s t) ∨
            (∃ k u, s.idle = true ∧ s.port.resetIn = some (k + 1) ∧ Ran s u ∧
              t = s.takeRequest.abandonAfter (k + 1) u) := by
          intro o ho hran
          have hp : s.takeRequest.port.resetIn = s.port.resetIn := rfl
          unfold withReset at ho
          rw [hp] at ho
          cases hres : s.port.resetIn with
          | none =>
            rw [hres] at ho
            exact .inr (.inl ⟨hi, rfl, hran t ho⟩)
          | some k =>
            rw [hres] at ho
            cases o with
            | next u =>
              cases k with
              | zero => exact absurd hres h0
              | succ k => exact .inr (.inr ⟨k, u, hi, rfl, hran u rfl, (next_inj ho).symm⟩)
            | fault f => cases ho
            | refused f => cases ho
        refine .inr ?_
        split at h
        · rename_i i extra hd
          exact key _ h fun u hu => .operation r rest i extra hr hf hd (exec_ended hu) hu
        · rename_i e hd
          refine key _ h fun u hu => ?_
          unfold rejectRequest at hu
          split at hu
          · exact .illegal r rest hr (next_inj hu).symm
          · cases hu
      · cases h
    · exact .inr (.inl (next_inj h).symm)

end Sys2Proof.Machine
end

