-- ==== Sys2Proof/Tests/Slice0.lean ====
section
/-! SUPPORT. Tests. The expected words are written out from the encodings of 30_encoding.md R101, R110 to R112 (in the
byte layout of log entry 2); the expected results are those of 95_test_vectors.md, whose section each test names. The
witnesses at the end show, for every statement with hypotheses, a state and operands that meet them. -/

namespace Sys2Proof.Tests

open Sys2Proof.Machine

/-! ## Well-formedness -/

theorem test_wellFormed_refuses_bcdPack_100 : (Instr.bcdPack 100).wellFormed = false := by decide
theorem test_wellFormed_refuses_dow_bad_year : (Instr.dow 2100 1 1).wellFormed = false := by decide
theorem test_wellFormed_refuses_dow_month_0 : (Instr.dow 2024 0 1).wellFormed = false := by decide
theorem test_wellFormed_refuses_dow_feb_30 : (Instr.dow 2024 2 30).wellFormed = false := by decide
theorem test_wellFormed_refuses_rd_clk : (Instr.rd .clk).wellFormed = false := by decide
theorem test_wellFormed_refuses_rd_ce : (Instr.rd .ce).wellFormed = false := by decide

/-! ## Decoding: a word of every constructor -/

/-- Host code 0b001, then 11, 13, 15, 10, 256 low byte first, AFTER_CE = 2, PullUp = 1. -/
theorem test_decode_init :
    decode .h [0b001, 11, 13, 15, 10, 0, 0, 1, 2, 1] =
      .ok (.init 11 13 15 10 256 .afterCe .pullUp, []) := by decide
theorem test_decode_readDatetime : decode .h [0b010] = .ok (.readDatetime, []) := by decide
/-- 2024 = 0x7E8. -/
theorem test_decode_writeDatetime :
    decode .h [0b011, 0xE8, 0x07, 3, 15, 10, 30, 59] = .ok (.writeDatetime 2024 3 15 10 30 59, []) := by decide
theorem test_decode_readRam : decode .h [0b100] = .ok (.readRam, []) := by decide
theorem test_decode_writeRam :
    decode .h ([0b101, 40, 0xDE] ++ List.replicate 29 0 ++ [0xEF]) =
      .ok (.writeRam 40 (Vector.ofFn fun k => if k = 0 then 0xDE else if k = 30 then 0xEF else 0), []) := by
  decide
theorem test_decode_close : decode .h [0b110] = .ok (.close, []) := by decide
theorem test_decode_cmdWp : decode .w [0b10001110] = .ok (.cmdWp, []) := by decide
theorem test_decode_cmdTcs : decode .w [0b10010000] = .ok (.cmdTcs, []) := by decide
theorem test_decode_cmdClkWr : decode .w [0b10111110] = .ok (.cmdClkWr, []) := by decide
theorem test_decode_cmdClkRd : decode .w [0b10111111] = .ok (.cmdClkRd, []) := by decide
theorem test_decode_cmdRamWr : decode .w [0b11111110, 255] = .ok (.cmdRamWr 255, []) := by decide
theorem test_decode_cmdRamRd : decode .w [0b11111111] = .ok (.cmdRamRd, []) := by decide
theorem test_decode_txOpen : decode .u [0b0000] = .ok (.txOpen, []) := by decide
theorem test_decode_txClose : decode .u [0b0001] = .ok (.txClose, []) := by decide
theorem test_decode_writeByte : decode .u [0b0010, 0xA5] = .ok (.writeByte 0xA5, []) := by decide
theorem test_decode_readByte : decode .u [0b0011] = .ok (.readByte, []) := by decide
theorem test_decode_bcdPack : decode .u [0b0100, 99] = .ok (.bcdPack 99, []) := by decide
theorem test_decode_bcdUnpack : decode .u [0b0101, 0xD9, 0x70] = .ok (.bcdUnpack 0xD9 0x70, []) := by decide
theorem test_decode_dow : decode .u [0b0110, 0x33, 0x08, 12, 31] = .ok (.dow 2099 12 31, []) := by decide
/-- Out-of-bounds operands "can be presented" (10_state.md R25): 4095 = 0xFFF, month 15, day 31, 31:63:63. -/
theorem test_decode_bcdEncode :
    decode .u [0b0111, 0xFF, 0x0F, 15, 31, 31, 63, 63] = .ok (.bcdEncode 4095 15 31 31 63 63, []) := by decide
theorem test_decode_bcdDecode :
    decode .u [0b1000, 1, 2, 3, 4, 5, 6, 7] = .ok (.bcdDecode #v[1, 2, 3, 4, 5, 6, 7], []) := by decide
theorem test_decode_regWrite : decode .u [0b1001, 0x8E, 0x01] = .ok (.regWrite 0x8E 0x01, []) := by decide
theorem test_decode_burstRead : decode .u [0b1010, 0xBF, 7] = .ok (.burstRead 0xBF 7, []) := by decide
theorem test_decode_burstWrite :
    decode .u ([0b1011, 0xFE, 31, 0xDE] ++ List.replicate 30 0) =
      .ok (.burstWrite 0xFE 31 (Vector.ofFn fun k => if k = 0 then 0xDE else 0), []) := by decide
theorem test_decode_dir : decode .p [0b000, 1, 0, 1] = .ok (.dir .io .input .pullUp, []) := by decide
theorem test_decode_wr : decode .p [0b001, 2, 1] = .ok (.wr .ce .high, []) := by decide
theorem test_decode_rd : decode .p [0b010, 1] = .ok (.rd .io, []) := by decide
theorem test_decode_dly : decode .p [0b011, 0x02, 0x01] = .ok (.dly 258, []) := by decide
theorem test_decode_rel : decode .p [0b100, 0] = .ok (.rel .clk, []) := by decide

/-- "3 unassigned and treated as NONE" (30_encoding.md R111). -/
theorem test_decode_init_order_3 :
    decode .h [1, 0, 0, 0, 0, 0, 0, 0, 3, 0] = .ok (.init 0 0 0 0 0 .none .none, []) := by decide
/-- A second spelling of the identifier 5, with an empty group after it, is none. -/
theorem test_decode_rejects_long_pin : decode .h [1, 0x85, 0, 13, 15, 0, 0, 0, 0, 0, 0] = .error .badOperand := by
  decide
theorem test_decode_rejects_operand_too_wide : decode .h [3, 0x00, 0x10, 1, 1, 0, 0, 0] = .error .badOperand := by
  decide
theorem test_decode_rejects_truncated : decode .u [10, 0xFF] = .error .truncated := by decide
theorem test_decode_rejects_rd_clk : decode .p [2, 0] = .error .outsideDomain := by decide
theorem test_decode_rejects_pack_100 : decode .u [4, 100] = .error .outsideDomain := by decide

/-! ## States -/

/-- The lines as INIT leaves them, the default configuration (10_state.md R33). -/
def ready : State :=
  { State.reset with
    drv := .ready
    pin :=
      { clkDir := .output, clkO := .low, ceDir := .output, ceO := .low, ioDir := .input, ioO := .low,
        ioPull := .none } }

/-- A transaction is open. -/
def opened : State := { ready with tx := .opened, pin := { ready.pin with ceO := .high } }

/-- The levels the environment answers. -/
def answering (l : List Level) (s : State) : State := { s with env := { s.env with answers := l } }

/-- One request is presented, by the host. -/
def asked (f : Format) (l : List Byte) (s : State) : State :=
  { s with port := { requests := [{ format := f, bytes := l }], resetIn := none, direct := false } }

/-- The test bench stands in the place of the host. -/
def onBench (s : State) : State := { s with port := { s.port with direct := true } }

/-- A reference peripheral before its first event. -/
def peripheral (wp : Bool) : Periph :=
  Periph.initial #v[0x00, 0x30, 0x10, 0x15, 0x03, 0x04, 0x24] (Vector.replicate 31 0x11) wp 0xA5

/-- The reference peripheral stands on the lines. -/
def attached (p : Periph) (s : State) : State := { s with env := { s.env with periph := some p } }

/-- A fact about the next state. -/
def nextSat (o : Host.Outcome State Fault Refusal) (f : State → Bool) : Bool :=
  match o with
  | .next t => f t
  | _ => false

/-- The response and the new events. -/
def answers (s : State) (i : Instr) (err : BitVec 3) (info : BitVec 8) (v : Value) (trace : List PinEvent) : Bool :=
  nextSat (exec i s) fun t => t.resp = some { err := err, info := info, value := v } && t.env.trace = trace

/-! ## Instructions (95_test_vectors.md) -/

/-- Section 2.1, rows 2 and 3. -/
theorem test_dir_keeps_latch :
    nextSat (exec (.dir .io .output .none) { ready with pin := { ready.pin with ioO := .high } }) (fun t =>
      t.pin.ioDir = .output && t.pin.ioO = .high && t.pin.ioPull = .none) = true := by decide
theorem test_dir_pull : nextSat (exec (.dir .io .input .pullUp) ready) (fun t => t.pin.ioPull = .pullUp) = true := by
  decide
/-- Section 2.1, rows 5 and 6. -/
theorem test_wr_latches : nextSat (exec (.wr .clk .high) ready) (fun t =>
    t.pin.clkO = .high && t.pin.ceO = .low && t.pin.clkDir = .output) = true := by decide
/-- Section 2.1, row 9. -/
theorem test_rd : answers (answering [.high] ready) (.rd .io) 0 0 (.level .high) [.rd .io .high] = true := by decide
/-- Section 2.1, row 11. -/
theorem test_dly : nextSat (exec (.dly 0) ready) (fun t => t.pin = ready.pin && t.env.trace = [.dly 0]) = true := by
  decide
/-- Section 2.1, rows 12 and 13. -/
theorem test_rel_io :
    nextSat (exec (.rel .io) { ready with pin := { ready.pin with ioO := .high, ioPull := .pullUp } }) (fun t =>
      t.pin.ioDir = .input && t.pin.ioO = .high && t.pin.ioPull = .none && t.pin.ceDir = .output) = true := by decide
theorem test_rel_ce : nextSat (exec (.rel .ce) ready) (fun t => t.pin.ceDir = .input && t.pin.clkDir = .output) =
    true := by decide

/-- Section 2.2, rows 2 and 5. -/
theorem test_txOpen_before_ce :
    answers { ready with cfg := { ready.cfg with dataResetOrder := .beforeCe, settleDelay := 4, ioPull := .pullUp } }
      .txOpen 0 0 .none [.wr .clk .low, .dir .io .input .pullUp, .wr .ce .high, .dly 4] = true := by decide
theorem test_txOpen_after_ce :
    answers { ready with cfg := { ready.cfg with dataResetOrder := .afterCe, settleDelay := 7, ioPull := .pullUp } }
      .txOpen 0 0 .none [.wr .clk .low, .wr .ce .high, .dir .io .input .pullUp, .dly 7] = true := by decide
/-- Section 2.2, row 7. -/
theorem test_txClose :
    answers { opened with pin := { opened.pin with clkO := .high, ioDir := .output } } .txClose 0 0 .none
      [.dir .io .input .none, .wr .clk .low, .wr .ce .low] = true := by decide
theorem test_txClose_pins :
    nextSat (exec .txClose opened) (fun t => t.tx = .idle && t.pin = ready.pin) = true := by decide

/-- Section 2.3: the first six events of WRITE_BYTE 0xA5, and the levels of its bits. -/
theorem test_writeByte_bits :
    nextSat (exec (.writeByte 0xA5) opened) (fun t =>
      t.env.trace.take 6 = [.dir .io .output .none, .wr .clk .low, .dly 10, .wr .io .high, .wr .clk .high, .dly 10] &&
      ioAtClkHigh opened.pin t.env.trace = [.high, .low, .high, .low, .low, .high, .low, .high] &&
      t.x.sr = 0 && t.x.bc = 8 && t.pin.clkO = .high && t.pin.ioO = .high) = true := by decide
theorem test_writeByte_idle : answers ready (.writeByte 0x12) 3 0x03 .none [] = true := by decide
/-- Section 2.3: H L L H H L H L is 0x59, and the first six events. -/
theorem test_readByte :
    nextSat (exec .readByte (answering [.high, .low, .low, .high, .high, .low, .high, .low] opened)) (fun t =>
      t.resp = some { err := 0, info := 0, value := .byte 0x59 } && t.x.sr = 0x59 && t.x.bc = 8 &&
      t.env.trace.take 6 =
        [.dir .io .input .none, .wr .clk .high, .dly 10, .wr .clk .low, .dly 10, .rd .io .high]) = true := by decide

/-- Section 2.4. -/
theorem test_bcdPack : answers ready (.bcdPack 99) 0 0 (.byte 0x99) [] = true := by decide
theorem test_bcdPack_10 : answers ready (.bcdPack 10) 0 0 (.byte 0x10) [] = true := by decide
theorem test_bcdUnpack_ignores_bit_7 : answers ready (.bcdUnpack 0xD9 0x70) 0 0 (.digits 5 9) [] = true := by decide
theorem test_bcdUnpack_no_digit : answers ready (.bcdUnpack 0x7A 0x70) 0 0 (.digits 7 10) [] = true := by decide
theorem test_dow_leap_day : answers ready (.dow 2000 2 29) 0 0 (.weekday 1) [] = true := by decide
theorem test_dow_last : answers ready (.dow 2099 12 31) 0 0 (.weekday 3) [] = true := by decide
theorem test_bcdEncode :
    answers ready (.bcdEncode 2099 12 31 23 59 59) 0 0 (.image #v[0x59, 0x59, 0x23, 0x31, 0x12, 0x03, 0x99]) [] =
      true := by decide
theorem test_bcdEncode_first_error : answers ready (.bcdEncode 2024 15 31 31 63 63) 2 2 .none [] = true := by decide
theorem test_bcdDecode_ignored_bits :
    answers ready (.bcdDecode #v[0x80, 0xB0, 0x90, 0xD5, 0xE3, 0xFF, 0x24]) 0 0
      (.calendar { year := 2024, month := 3, day := 15, hour := 10, minute := 30, second := 0, weekday := 4 }) [] =
      true := by decide
theorem test_bcdDecode_digits_before_ranges :
    answers ready (.bcdDecode #v[0x00, 0x00, 0x00, 0x00, 0x00, 0x00, 0xA0]) 4 0x06 .none [] = true := by decide

/-- Section 2.5: 87 events, the last three those of TX_CLOSE. -/
theorem test_regWrite :
    nextSat (exec (.regWrite 0x8E 0x00) ready) (fun t =>
      t.env.trace.length = 87 && t.env.trace.take 3 = [.wr .clk .low, .wr .ce .high, .dir .io .output .none] &&
      t.x = { sr := 0, bc := 8, bi := 1, bn := 1, cmd := 0x8E } && t.pin = ready.pin) = true := by decide +kernel
/-- Section 2.5: `P.WP` goes to 0; against a protected peripheral `P.TCS` keeps its value. -/
theorem test_cmdWp :
    nextSat (exec .cmdWp (attached (peripheral true) ready)) (fun t =>
      t.env.periph.map (fun p => p.wp) = some false) = true := by decide +kernel
theorem test_cmdTcs :
    nextSat (exec .cmdTcs (attached (peripheral false) ready)) (fun t =>
      t.env.periph.map (fun p => p.tcs) = some 0x00) = true := by decide +kernel
theorem test_cmdTcs_protected :
    nextSat (exec .cmdTcs (attached (peripheral true) ready)) (fun t =>
      t.env.periph.map (fun p => p.tcs) = some 0xA5) = true := by decide +kernel
/-- Section 2.5: 46 events for no data byte; IO keeps bit 7 of the command byte. -/
theorem test_burstWrite_0 :
    nextSat (exec (.burstWrite 0xFE 0 (Vector.replicate 31 0)) ready) (fun t =>
      t.env.trace.length = 46 && t.pin.ioO = .high && t.x.bi = 0) = true := by decide +kernel
theorem test_burstWrite_2 :
    nextSat (exec (.burstWrite 0xFE 2 (Vector.ofFn fun k => if k = 0 then 0xDE else 0xAD))
      (attached (peripheral false) ready)) (fun t =>
        t.env.periph.map (fun p => (p.ram.take 3).toList) = some [0xDE, 0xAD, 0x11]) = true := by decide +kernel
theorem test_burstRead_2 :
    nextSat (exec (.burstRead 0xBF 2) (attached (peripheral true) ready)) (fun t =>
      t.resp = some { err := 0, info := 0, value := .bytes [0x00, 0x30] } && t.env.trace.length = 128) = true := by
  decide +kernel
/-- An undriven sample is a draw the environment answers (20_memory.md R75). -/
theorem test_burstRead_draws :
    nextSat (exec (.burstRead 0xFF 1) (answering [.high, .low, .high, .low, .low, .low, .low, .high] ready)) (fun t =>
      t.resp = some { err := 0, info := 0, value := .bytes [0x85] }) = true := by decide +kernel

/-- The initial values of 20_memory.md R82. -/
theorem test_attach :
    (Env.reset.attach (Vector.replicate 7 0) (Vector.replicate 31 0) true 0).periph.map
      (fun p => (p.ce, p.clk, p.active, p.out)) = some (.low, .low, false, none) := by decide
/-- Section 3, program P1: INIT is 178 events and leaves the lines idle. -/
theorem test_init :
    nextSat (exec (.init 11 13 15 10 0 .none .none) (attached (peripheral true) State.reset)) (fun t =>
      t.env.trace.length = 178 && t.drv = .ready && t.pin = ready.pin && t.cfg.clkDelay = 10 && t.status.err = 0 &&
      t.env.periph.map (fun p => (p.wp, p.tcs)) = some (false, 0x00)) = true := by decide +kernel
/-- Section 3, program P1: READ_DATETIME is 333 events; the peripheral holds the image of 2024-03-15 10:30:00. -/
theorem test_readDatetime :
    nextSat (exec .readDatetime (attached (peripheral false) ready)) (fun t =>
      t.env.trace.length = 333 && t.pin.ioO = .high && t.resp = some ⟨0, 0, .calendar
        { year := 2024, month := 3, day := 15, hour := 10, minute := 30, second := 0, weekday := 4 }⟩) = true := by
  decide +kernel
theorem test_writeDatetime :
    nextSat (exec (.writeDatetime 2099 12 31 23 59 59) (attached (peripheral false) ready)) (fun t =>
      t.resp = some { err := 0, info := 0, value := .none } &&
      t.env.periph.map (fun p => p.clkreg) = some #v[0x59, 0x59, 0x23, 0x31, 0x12, 0x03, 0x99]) = true := by
  decide +kernel
/-- Section 3, program P2: READ_RAM answers the 31 stored bytes. -/
theorem test_readRam :
    nextSat (exec .readRam (attached (peripheral false) ready)) (fun t =>
      t.resp = some ⟨0, 0, .ram (Vector.replicate 31 0x11)⟩) = true := by decide +kernel
/-- Section 3, program P2: WRITE_RAM of four bytes is 210 events. -/
theorem test_writeRam :
    nextSat (exec (.writeRam 4 (Vector.replicate 31 0xEF)) (attached (peripheral false) ready)) (fun t =>
      t.env.trace.length = 210 &&
      t.env.periph.map (fun p => (p.ram.take 5).toList) = some [0xEF, 0xEF, 0xEF, 0xEF, 0x11]) = true := by
  decide +kernel
theorem test_cmdClkWr :
    nextSat (exec .cmdClkWr (attached (peripheral false) { ready with buf := { ready.buf with
        img := #v[0x59, 0x59, 0x23, 0x31, 0x12, 0x03, 0x99] } })) (fun t =>
      t.env.periph.map (fun p => p.clkreg) = some #v[0x59, 0x59, 0x23, 0x31, 0x12, 0x03, 0x99]) = true := by
  decide +kernel
theorem test_cmdClkRd :
    nextSat (exec .cmdClkRd (attached (peripheral false) ready)) (fun t =>
      t.buf.img = #v[0x00, 0x30, 0x10, 0x15, 0x03, 0x04, 0x24]) = true := by decide +kernel
theorem test_cmdRamWr :
    nextSat (exec (.cmdRamWr 1) (attached (peripheral false) ready)) (fun t =>
      t.env.periph.map (fun p => (p.ram.take 2).toList) = some [0x00, 0x11]) = true := by decide +kernel
theorem test_cmdRamRd :
    nextSat (exec .cmdRamRd (attached (peripheral false) ready)) (fun t => t.buf.ram = Vector.replicate 31 0x11) =
      true := by decide +kernel

/-- Section 3, program P3: INIT with pins that are not distinct, and with one that is not valid. -/
theorem test_init_pin_errors :
    (answers State.reset (.init 11 11 15 10 0 .none .none) 1 1 .none [] &&
      answers State.reset (.init 11 13 99 10 0 .none .none) 1 2 .none []) = true := by decide
/-- Section 3, programs P3 and P6: the gates, before any event. -/
theorem test_readDatetime_closed : answers { ready with drv := .closed } .readDatetime 3 1 .none [] = true := by decide
theorem test_writeDatetime_range : answers ready (.writeDatetime 2023 2 29 0 0 0) 2 3 .none [] = true := by decide
theorem test_readRam_open : answers opened .readRam 3 2 .none [] = true := by decide
theorem test_writeRam_uninitialized :
    answers State.reset (.writeRam 1 (Vector.replicate 31 1)) 3 1 .none [] = true := by decide
theorem test_close : answers ready .close 0 0 .none [.rel .clk, .rel .io, .rel .ce] = true := by decide
theorem test_close_open :
    answers opened .close 0 0 .none
      [.dir .io .input .none, .wr .clk .low, .wr .ce .low, .rel .clk, .rel .io, .rel .ce] = true := by decide
/-- Section 3, program P3: the unassigned host code. -/
theorem test_step_illegal_code :
    nextSat (step (asked .h [7] ready)) (fun t =>
      t.resp = some { err := 3, info := 4, value := .none } && t.status.err = 3 && t.port.requests = []) = true := by
  decide
/-- "never by the host directly" (40_pin_primitives.md R130), and by the test bench. -/
theorem test_step_pin_event :
    step (asked .p [4, 0] ready) = .refused .notForTheHost ∧
    nextSat (step (onBench (asked .p [4, 0] ready))) (fun t => t.env.trace = [.rel .clk]) = true := ⟨rfl, by decide⟩
/-- The host's two questions, for CLOSE. -/
theorem test_decodeTableWord : decodeTableWord 3 6 = some .close := by decide
theorem test_withFetchWord :
    nextSat (step (ready.withFetchWord 3 6)) (fun t => t.drv = .closed) = true := by decide

/-! ## Witnesses: states and operands that meet the hypotheses of the statements -/

/-- READ_BYTE (41 events) with reset due after 7, the sixth of which reads a level: `k + 1 = 7`. -/
def resetDuring : State :=
  answering [.high] { opened with
    port := { requests := [{ format := .u, bytes := [3] }], resetIn := some 7, direct := true } }

theorem witness_ResetInput :
    ({ ready with port := { requests := [], resetIn := some 0, direct := false } } : State).port.resetIn = some 0 := rfl

theorem witness_ResetDuringOperation :
    resetDuring.port.resetIn = some (6 + 1) ∧ resetDuring.idle = true ∧
    resetDuring.port.requests = { format := .u, bytes := [3] } :: [] ∧ resetDuring.port.direct = true ∧
    decode .u [3] = .ok (.readByte, []) ∧
    ∃ t, exec .readByte { resetDuring with port := { resetDuring.port with requests := [] } } = .next t ∧
      resetDuring.env.trace.length + (6 + 1) < t.env.trace.length ∧
      ((eventsBetween resetDuring t).take (6 + 1))[5]? = some (.rd .io .high) :=
  ⟨rfl, rfl, rfl, rfl, by decide, _, rfl, by decide +kernel, by decide +kernel⟩

theorem witness_StepRunsRequest :
    let s := asked .h [6] ready
    s.port.resetIn = none ∧ s.status.busy = false ∧ s.seq.op = none ∧
      s.port.requests = { format := .h, bytes := [6] } :: [] ∧ decode .h [6] = .ok (.close, []) ∧
      (onBench (asked .u [1] ready)).port.direct = true ∧ decode .u [1] = .ok (.txClose, []) :=
  ⟨rfl, rfl, rfl, rfl, by decide, rfl, by decide⟩

/-- Every clause: host codes 0, 7, 8; another format from the host; from the test bench, command byte 0x8F,
micro-operation 12 and pin event 5. -/
theorem witness_StepRejectsUnassigned :
    let s := fun f c => asked f [c] ready
    let b := fun f c => onBench (asked f [c] ready)
    (∀ f c, (s f c).port.resetIn = none ∧ (s f c).status.busy = false ∧ (s f c).seq.op = none ∧
      (s f c).port.requests = { format := f, bytes := c :: [] } :: [] ∧ (s f c).port.direct = false) ∧
    (∀ f c, (b f c).port.resetIn = none ∧ (b f c).status.busy = false ∧ (b f c).seq.op = none ∧
      (b f c).port.requests = { format := f, bytes := c :: [] } :: [] ∧ (b f c).port.direct = true) ∧
    7 < (8 : Byte).toNat ∧ (0x8F : Byte) ∉ [0x8E, 0x90, 0xBE, 0xBF, 0xFE, 0xFF] ∧ 12 ≤ (12 : Byte).toNat ∧
    5 ≤ (5 : Byte).toNat :=
  ⟨fun _ _ => ⟨rfl, rfl, rfl, rfl, rfl⟩, fun _ _ => ⟨rfl, rfl, rfl, rfl, rfl⟩, by decide, by decide, by decide,
    by decide⟩

/-- Busy, an operation in progress, and no request; reset due later. -/
theorem witness_StepWaits :
    ({ ready with status := { ready.status with busy := true } } : State).status.busy = true ∧
    ({ ready with seq := { ready.seq with op := some .readRam } } : State).seq.op ≠ none ∧
    ready.port.requests = [] ∧ ready.port.resetIn ≠ some 0 := ⟨rfl, by decide, rfl, by decide⟩

theorem witness_DecodeEncode :
    (Instr.bcdPack 99).wellFormed = true ∧ (Instr.dow 2000 1 1).wellFormed = true ∧
    (Instr.dow 2099 12 31).wellFormed = true ∧ (Instr.rd .io).wellFormed = true ∧
    (Instr.writeRam 255 (Vector.replicate 31 0xFF)).wellFormed = true := by decide

/-- An encoding with bytes after it, and the other spelling of NONE. -/
theorem witness_DecodeSound :
    decode .u [2, 0xA5, 0x77] = .ok (.writeByte 0xA5, [0x77]) ∧
    decode .h [1, 0, 0, 0, 0, 0, 0, 0, 3, 0] = .ok (.init 0 0 0 0 0 .none .none, []) := by decide

/-- Both clauses: an answer fixed, and the peripheral driving IO. -/
theorem witness_PinReadEvents :
    (let s := answering [.low] ready; s.env.periph = none ∧ s.env.answers = .low :: []) ∧
    (let s := attached { peripheral false with out := some .high } ready
     s.env.periph = some { peripheral false with out := some .high } ∧
      ({ peripheral false with out := some .high } : Periph).out = some .high) := ⟨⟨rfl, rfl⟩, rfl, rfl⟩

theorem witness_PinWriteEvents : ready.env.periph = none := rfl

theorem witness_TxOpen : ready.tx = .idle ∧ opened.tx = .opened := ⟨rfl, rfl⟩

theorem witness_WriteByte : opened.tx = .opened ∧ ready.tx = .idle := ⟨rfl, rfl⟩

theorem witness_WriteByteRoundTrip : opened.tx = .opened ∧ ∃ t, exec (.writeByte 0x8E) opened = .next t :=
  ⟨rfl, _, rfl⟩

theorem witness_ReadByte :
    let s := answering (byteLevels 0x59 ++ [.low]) opened
    s.tx = .opened ∧ s.env.periph = none ∧ s.env.answers = byteLevels 0x59 ++ [.low] ∧ ready.tx = .idle :=
  ⟨rfl, rfl, rfl, rfl⟩

/-- The last operand of the domain and the first outside it. -/
theorem witness_BcdPack : (99 : BitVec 7).toNat ≤ 99 ∧ 99 < (100 : BitVec 7).toNat := by decide

theorem witness_BcdUnpack : (0xD9 : Byte) &&& (0x70 ||| 0x0f) = 0x59 &&& (0x70 ||| 0x0f) := by decide

/-- The first and the last date, a leap day, and dates outside on every side. -/
theorem witness_DowFormula :
    let days := fun (y : BitVec 12) (m : BitVec 4) =>
      if m = 2 then (if (y.toNat - 2000) % 4 = 0 then 29 else 28)
      else if m = 4 ∨ m = 6 ∨ m = 9 ∨ m = 11 then 30 else 31
    let valid := fun (y : BitVec 12) (m : BitVec 4) (d : BitVec 5) =>
      2000 ≤ y.toNat ∧ y.toNat ≤ 2099 ∧ 1 ≤ m.toNat ∧ m.toNat ≤ 12 ∧ 1 ≤ d.toNat ∧ d.toNat ≤ days y m
    valid 2000 1 1 ∧ valid 2099 12 31 ∧ valid 2096 2 29 ∧ ¬ valid 1999 12 31 ∧ ¬ valid 2100 1 1 ∧ ¬ valid 2024 0 1 ∧
      ¬ valid 2024 13 1 ∧ ¬ valid 2024 1 0 ∧ ¬ valid 2099 2 29 := by decide

/-- Inside a month, at the end of a month, at the end of a year. -/
theorem witness_DowRunsOn :
    dateValid 2024 2 28 = true ∧ 28 < daysInMonth 2024 2 ∧ dateValid 2024 2 29 = true ∧ 29 = daysInMonth 2024 2 ∧
    dateValid 2098 12 31 = true ∧ 31 = daysInMonth 2098 12 ∧ 2000 ≤ 2099 ∧ 1 ≤ 12 := by decide

/-- The bounds of 43_bcd_codec.md R165. -/
def fieldsValid (y : BitVec 12) (mo : BitVec 4) (d h : BitVec 5) (mi sec : BitVec 6) : Prop :=
  2000 ≤ y.toNat ∧ y.toNat ≤ 2099 ∧ 1 ≤ mo.toNat ∧ mo.toNat ≤ 12 ∧ 1 ≤ d.toNat ∧
    d.toNat ≤ daysInMonth y.toNat mo.toNat ∧ h.toNat ≤ 23 ∧ mi.toNat ≤ 59 ∧ sec.toNat ≤ 59

/-- The least and the greatest fields. -/
theorem fields_valid : fieldsValid 2000 1 1 0 0 0 ∧ fieldsValid 2099 12 31 23 59 59 ∧ fieldsValid 2024 2 29 10 30 0 := by
  unfold fieldsValid; decide

theorem witness_BcdEncode : fieldsValid 2099 12 31 23 59 59 := fields_valid.2.1

theorem witness_CodecRoundTrip : fieldsValid 2024 2 29 10 30 0 := fields_valid.2.2

/-- One clause each: year 1999 and 2100, month 0 and 13, day 0 and 31 of a month of 30, hour 24, minute 60, second
60. -/
theorem witness_BcdEncodeRangeError :
    ¬ (2000 ≤ (1999 : BitVec 12).toNat ∧ (1999 : BitVec 12).toNat ≤ 2099) ∧
    ¬ (2000 ≤ (2100 : BitVec 12).toNat ∧ (2100 : BitVec 12).toNat ≤ 2099) ∧
    ¬ (1 ≤ (0 : BitVec 4).toNat ∧ (0 : BitVec 4).toNat ≤ 12) ∧
    ¬ (1 ≤ (13 : BitVec 4).toNat ∧ (13 : BitVec 4).toNat ≤ 12) ∧
    ¬ (1 ≤ (0 : BitVec 5).toNat ∧ (0 : BitVec 5).toNat ≤ daysInMonth 2024 1) ∧
    ¬ (1 ≤ (31 : BitVec 5).toNat ∧ (31 : BitVec 5).toNat ≤ daysInMonth 2024 4) ∧
    23 < (24 : BitVec 5).toNat ∧ 59 < (60 : BitVec 6).toNat ∧ fieldsValid 2000 1 1 0 0 0 :=
  ⟨by decide, by decide, by decide, by decide, by decide, by decide, by decide, by decide, fields_valid.1⟩

/-- The masked digits and the value of a byte, as the statements write them. -/
def digitsOk (b mask : Byte) : Prop := ((b &&& mask) >>> 4).toNat ≤ 9 ∧ (b &&& 0x0f).toNat ≤ 9
def valueOf (b mask : Byte) : Nat := ((b &&& mask) >>> 4).toNat * 10 + (b &&& 0x0f).toNat

/-- The greatest valid byte of each field, with ignored bits set: 59, 59, 23, 31, 12, 99. -/
theorem witness_BcdDecode :
    digitsOk 0xD9 0x70 ∧ digitsOk 0xE3 0x30 ∧ digitsOk 0xF1 0x30 ∧ digitsOk 0xF2 0x10 ∧ digitsOk 0x99 0xf0 ∧
    valueOf 0xD9 0x70 = 59 ∧ valueOf 0xE3 0x30 = 23 ∧ valueOf 0xF2 0x10 = 12 ∧ valueOf 0xF1 0x30 = 31 ∧
    valueOf 0x99 0xf0 = 99 ∧ 31 ≤ daysInMonth (99 + 2000) 12 := by
  unfold digitsOk valueOf; decide

/-- A byte whose digits fail under each mask; `digitsOk 0 mask` holds under each. -/
theorem witness_BcdDecodeDigitError :
    ¬ digitsOk 0x0A 0x70 ∧ ¬ digitsOk 0x0C 0x30 ∧ ¬ digitsOk 0x0E 0x10 ∧ ¬ digitsOk 0xA0 0xf0 ∧ ¬ digitsOk 0x0F 0xf0 ∧
    digitsOk 0 0x70 ∧ digitsOk 0 0x30 ∧ digitsOk 0 0x10 ∧ digitsOk 0 0xf0 := by
  unfold digitsOk; decide

/-- One clause each, digits valid: second 60, minute 60, hour 24, month 0 and 13, day 0, 2024-02-30 and 2023-02-29. -/
theorem witness_BcdDecodeRangeError :
    (digitsOk 0x60 0x70 ∧ valueOf 0x60 0x70 = 60) ∧ (digitsOk 0x24 0x30 ∧ valueOf 0x24 0x30 = 24) ∧
    (digitsOk 0x00 0x10 ∧ valueOf 0x00 0x10 = 0) ∧ (digitsOk 0x13 0x10 ∧ valueOf 0x13 0x10 = 13) ∧
    (digitsOk 0x30 0x30 ∧ valueOf 0x30 0x30 = 30 ∧ daysInMonth 2024 2 < 30) ∧
    (digitsOk 0x29 0x30 ∧ valueOf 0x29 0x30 = 29 ∧ daysInMonth 2023 2 < 29) := by
  unfold digitsOk valueOf; decide

theorem witness_EncodedBytesInsideMasks :
    ∃ t r, exec (.bcdEncode 2024 3 15 10 30 0) ready = .next t ∧ t.resp = some r ∧ r.err = 0 :=
  ⟨_, _, rfl, rfl, rfl⟩

theorem witness_DecodeIgnoresOutsideMasks :
    (0x80 : Byte) &&& 0x7F = 0x00 &&& 0x7F ∧ (0xB0 : Byte) &&& 0x7F = 0x30 &&& 0x7F ∧
    (0x90 : Byte) &&& 0x3F = 0x10 &&& 0x3F ∧ (0xD5 : Byte) &&& 0x3F = 0x15 &&& 0x3F ∧
    (0xE3 : Byte) &&& 0x1F = 0x03 &&& 0x1F := by decide

theorem witness_RegWrite : ready.tx = .idle ∧ opened.tx = .opened := ⟨rfl, rfl⟩
theorem witness_BurstWrite : ready.tx = .idle ∧ opened.tx = .opened := ⟨rfl, rfl⟩

/-- No data byte, and two bytes fixed by the environment. -/
theorem witness_BurstRead :
    ready.tx = .idle ∧ opened.tx = .opened ∧ ready.env.periph = none ∧
    ([] : List Byte).length = (0 : BitVec 5).toNat ∧ ([0xDE, 0xAD] : List Byte).length = (2 : BitVec 5).toNat ∧
    (answering (bytesLevels [0xDE, 0xAD] ++ []) ready).env.answers = bytesLevels [0xDE, 0xAD] ++ [] :=
  ⟨rfl, rfl, rfl, rfl, rfl, rfl⟩

theorem witness_MaintenanceCommands : ready.tx = .idle ∧ opened.tx = .opened := ⟨rfl, rfl⟩
theorem witness_WriteCommands : ready.tx = .idle ∧ opened.tx = .opened := ⟨rfl, rfl⟩
/-- The levels of an image and of a RAM buffer on the line. -/
theorem witness_ReadCommands :
    ready.tx = .idle ∧ opened.tx = .opened ∧ ready.env.periph = none ∧
    (let s := answering (bytesLevels (Vector.replicate 7 (0x59 : Byte)).toList ++ []) ready
     s.env.answers = bytesLevels (Vector.replicate 7 (0x59 : Byte)).toList ++ []) ∧
    (let s := answering (bytesLevels (Vector.replicate 31 (0xA5 : Byte)).toList ++ []) ready
     s.env.answers = bytesLevels (Vector.replicate 31 (0xA5 : Byte)).toList ++ []) := ⟨rfl, rfl, rfl, rfl, rfl⟩

theorem witness_FrameCounts :
    ready.pin.clkDir = .output ∧ ready.pin.clkO = .low ∧ ready.pin.ceO = .low ∧ ready.cfg.settleDelay = 0 :=
  ⟨rfl, rfl, rfl, rfl⟩

theorem witness_OperationsAskedForByThemselves :
    Instr.txClose.format ≠ .h ∧ ∃ t r, exec .txClose opened = .next t ∧ t.resp = some r ∧ r.err = 0 :=
  ⟨by decide, _, _, rfl, rfl, rfl⟩

/-- The pins 0, 1 and 39, the last valid one. -/
theorem witness_InitCompletes :
    State.reset.drv = .uninitialized ∧ State.reset.tx = .idle ∧ (0 : PinId) ≠ 1 ∧ (0 : PinId) ≠ 39 ∧
    (1 : PinId) ≠ 39 ∧ 0 ∈ State.reset.env.validPins ∧ 1 ∈ State.reset.env.validPins ∧
    39 ∈ State.reset.env.validPins :=
  ⟨rfl, rfl, by decide, by decide, by decide, by decide, by decide, by decide⟩

/-- Two pins alike; 40, the first pin that is not valid; a GpioAcquisitionError response. -/
theorem witness_InitPinErrors :
    ¬ ((11 : PinId) ≠ 13 ∧ (11 : PinId) ≠ 11 ∧ (13 : PinId) ≠ 11) ∧
    ((0 : PinId) ≠ 1 ∧ (0 : PinId) ≠ 40 ∧ (1 : PinId) ≠ 40) ∧ (40 : PinId) ∉ State.reset.env.validPins ∧
    ∃ t r, exec (.init 11 13 11 10 0 .none .none) State.reset = .next t ∧ t.resp = some r ∧ r.err = 1 :=
  ⟨by decide, by decide, by decide, _, _, rfl, rfl, rfl⟩

/-- An image that decodes, and one that does not. -/
theorem witness_ReadDatetime :
    ready.drv = .ready ∧ ready.tx = .idle ∧
    (∃ c, bcdDecode #v[0x00, 0x30, 0x10, 0x15, 0x03, 0x04, 0x24] = .ok c) ∧
    (∃ e, bcdDecode #v[0x60, 0x00, 0x00, 0x01, 0x01, 0x00, 0x00] = .error e) :=
  ⟨rfl, rfl, ⟨_, rfl⟩, ⟨_, rfl⟩⟩

theorem witness_ReadDatetimeAnswersDate :
    let img := encodeImage 2024 2 29 10 30 0
    let s := answering (bytesLevels img.toList ++ []) ready
    fieldsValid 2024 2 29 10 30 0 ∧ s.drv = .ready ∧ s.tx = .idle ∧ s.env.periph = none ∧
      s.env.answers = bytesLevels img.toList ++ [] := ⟨fields_valid.2.2, rfl, rfl, rfl, rfl⟩

theorem witness_WriteDatetime : ready.drv = .ready ∧ ready.tx = .idle ∧ fieldsValid 2000 1 1 0 0 0 :=
  ⟨rfl, rfl, fields_valid.1⟩

/-- The clauses are those of `witness_BcdEncodeRangeError`. -/
theorem witness_WriteDatetimeRangeError :
    ready.drv = .ready ∧ ready.tx = .idle ∧ ¬ (2000 ≤ (1999 : BitVec 12).toNat ∧ (1999 : BitVec 12).toNat ≤ 2099) ∧
    23 < (24 : BitVec 5).toNat ∧ 59 < (60 : BitVec 6).toNat := ⟨rfl, rfl, by decide, by decide, by decide⟩

theorem witness_ReadRam :
    let s := answering (bytesLevels (Vector.replicate 31 (0xA5 : Byte)).toList ++ []) ready
    s.drv = .ready ∧ s.tx = .idle ∧ s.env.periph = none ∧
      s.env.answers = bytesLevels (Vector.replicate 31 (0xA5 : Byte)).toList ++ [] := ⟨rfl, rfl, rfl, rfl⟩

theorem witness_WriteRam :
    ready.drv = .ready ∧ ready.tx = .idle ∧ 31 ≤ (31 : BitVec 8).toNat ∧ 31 ≤ (255 : BitVec 8).toNat :=
  ⟨rfl, rfl, by decide, by decide⟩

theorem witness_Close :
    (ready.drv = .ready ∧ ready.tx = .idle) ∧ (opened.drv = .ready ∧ opened.tx = .opened) ∧
    ({ ready with drv := .closed } : State).drv = .closed ∧ State.reset.drv = .uninitialized :=
  ⟨⟨rfl, rfl⟩, ⟨rfl, rfl⟩, rfl, rfl⟩

theorem witness_DriverStateGates :
    ready.drv ≠ .uninitialized ∧ State.reset.drv ≠ .ready ∧ ({ ready with drv := .closed } : State).drv ≠ .ready := by
  decide

theorem witness_OpenLaunchGates :
    opened.tx = .opened ∧ opened.drv = .ready ∧
    ({ opened with drv := .uninitialized } : State).drv = .uninitialized := ⟨rfl, rfl, rfl⟩

/-- CLOSE, asked for, leaves Ready; reset leaves Closed; INIT is `witness_ConfigWrittenByInitOnly`. -/
theorem witness_DriverTransitions :
    (∃ t, step (asked .h [6] ready) = .next t ∧ t.drv ≠ ready.drv) ∧
    (let s : State := { ready with drv := .closed, port := { requests := [], resetIn := some 0, direct := false } }
     ∃ t, step s = .next t ∧ t.drv ≠ s.drv) := ⟨⟨_, rfl, by decide⟩, ⟨_, rfl, by decide⟩⟩

/-- INIT with delay 5 takes a fresh engine to Ready and to another configuration. -/
theorem witness_ConfigWrittenByInitOnly :
    nextSat (step (asked .h [1, 11, 13, 15, 5, 0, 0, 0, 0, 0] State.reset)) (fun t =>
      t.cfg ≠ State.reset.cfg && t.drv ≠ State.reset.drv) = true := by decide +kernel

/-- CLOSE emits its events. -/
theorem witness_RestKeptByStep :
    hostOnly (asked .h [6] ready) ∧ engineIdle (asked .h [6] ready) ∧ linesAtRest (asked .h [6] ready) ∧
    ∃ t, step (asked .h [6] ready) = .next t ∧ t.env.trace ≠ ready.env.trace :=
  ⟨.inl rfl, ⟨rfl, rfl⟩, ⟨rfl, rfl, rfl, rfl, rfl, rfl, rfl⟩, _, rfl, by decide⟩

/-- An error before any event, and a MalformedRegisterError. -/
theorem witness_ErrorsLeaveState :
    (∃ t r, exec .txOpen opened = .next t ∧ t.resp = some r ∧ r.err ≠ 0 ∧ r.err ≠ 4) ∧
    (∃ t r, exec (.bcdDecode (Vector.replicate 7 0)) ready = .next t ∧ t.resp = some r ∧ r.err = 4) :=
  ⟨⟨_, _, rfl, rfl, by decide, by decide⟩, ⟨_, _, rfl, rfl, by decide⟩⟩

theorem witness_ResultsIndependentOfConfig :
    opened.env.periph = none ∧ Instr.readByte ≠ .txOpen ∧ ∃ t, exec .readByte opened = .next t :=
  ⟨rfl, by decide, _, rfl⟩

theorem witness_PeripheralAfterInit :
    let s := attached (peripheral true) State.reset
    linesAtRest s ∧ s.drv = .uninitialized ∧ s.env.periph = some (peripheral true) ∧ (peripheral true).waiting ∧
      (11 : PinId) ≠ 13 ∧ (11 : PinId) ≠ 15 ∧ (13 : PinId) ≠ 15 ∧ 11 ∈ s.env.validPins ∧ 13 ∈ s.env.validPins ∧
      15 ∈ s.env.validPins :=
  ⟨⟨rfl, rfl, rfl, rfl, rfl, rfl, rfl⟩, rfl, rfl, ⟨rfl, rfl, rfl⟩, by decide, by decide, by decide, by decide,
    by decide, by decide⟩

/-- The hypotheses the three statements share, for both values of the write-protect flag. -/
theorem peripheral_ready (wp : Bool) :
    let s := attached (peripheral wp) ready
    linesAtRest s ∧ s.drv = .ready ∧ s.env.periph = some (peripheral wp) ∧ (peripheral wp).waiting ∧
      (peripheral wp).wp = wp :=
  ⟨⟨rfl, rfl, rfl, rfl, rfl, rfl, rfl⟩, rfl, rfl, ⟨rfl, rfl, rfl⟩, rfl⟩

theorem witness_PeripheralDatetime :
    (let s := attached (peripheral false) ready
     linesAtRest s ∧ s.drv = .ready ∧ s.env.periph = some (peripheral false) ∧ (peripheral false).waiting ∧
      (peripheral false).wp = false) ∧ fieldsValid 2099 12 31 23 59 59 := ⟨peripheral_ready false, fields_valid.2.1⟩

theorem witness_PeripheralRam :
    let s := attached (peripheral false) ready
    linesAtRest s ∧ s.drv = .ready ∧ s.env.periph = some (peripheral false) ∧ (peripheral false).waiting ∧
      (peripheral false).wp = false := peripheral_ready false

theorem witness_PeripheralProtected :
    (let s := attached (peripheral true) ready
     linesAtRest s ∧ s.drv = .ready ∧ s.env.periph = some (peripheral true) ∧ (peripheral true).waiting ∧
      (peripheral true).wp = true) ∧ fieldsValid 2000 1 1 0 0 0 := ⟨peripheral_ready true, fields_valid.1⟩

end Sys2Proof.Tests
end

section
/-! PROOFS. 10_state.md: reset (R50), who writes `drv` and `cfg` (R21, R27), the invariant between operations (R33).
Three layers: what a step makes of the state (`Stepped`), what the host operations leave of the lines
(`EndedAtRest`), and the obligations, each a case split over the first. -/

namespace Sys2Proof.Machine

/-! ### Reset -/

/-- The engine part of a reset machine is the table of 10_state.md R50. -/
theorem atReset_engineReset (s : State) : atReset s.engineReset :=
  ⟨rfl, rfl, rfl, rfl, rfl, rfl, rfl, rfl, rfl⟩

theorem linesAtRest_engineReset (s : State) : linesAtRest s.engineReset := ⟨rfl, rfl, rfl, rfl, rfl, rfl, rfl⟩

theorem engineIdle_engineReset (s : State) : engineIdle s.engineReset := ⟨rfl, rfl⟩

/-- Settles O1: every row of R50 holds of `State.reset` by computation. -/
theorem resetState : Obligations.ResetState := ⟨atReset_engineReset State.reset, rfl⟩

/-- Settles O53: at reset the host is at the port, the engine is idle and the lines are those of Uninitialized. -/
theorem restAtReset : Obligations.RestAtReset :=
  ⟨.inl rfl, engineIdle_engineReset State.reset, linesAtRest_engineReset State.reset⟩

/-! ### What a step makes of the state -/

/-- The three effects a step can have: none, a reset, or one request run to its response. -/
inductive Stepped (s t : State) : Prop
  /-- The engine waits. -/
  | waited (ht : t = s)
  /-- The engine is reset, at once or in the middle of an operation `v`; only the latter has emitted anything. -/
  | reset (u : State) (hr : s.port.resetIn ≠ none) (ht : t = u.engineReset)
      (hp : u.port = s.port ∨ u.port = s.takeRequest.port)
      (he : u.env.trace ≠ s.env.trace → ∃ v, Ran s v ∧ v.env.trace ≠ s.env.trace)
  /-- The next request is run; a reset that was pending may have become due. -/
  | ran (u : State) (k : Option Nat) (hu : Ran s u) (ht : t = { u with port := { u.port with resetIn := k } })

/-- An operation that has emitted events has changed the trace. -/
theorem trace_ne_of_eventsBetween {s t : State} {k : Nat} (h : k < (eventsBetween s t).length) :
    t.env.trace ≠ s.env.trace := by
  intro he
  simp [eventsBetween, he] at h

theorem step_stepped {s t : State} (h : step s = .next t) : Stepped s t := by
  rcases step_cases h with ⟨hr, ht⟩ | ht | ⟨-, -, hran⟩ | ⟨k, u, -, hr, hran, ht⟩
  · exact .reset s (by simp [hr]) ht (.inl rfl) fun he => absurd rfl he
  · exact .waited ht
  · exact .ran t t.port.resetIn hran rfl
  · unfold State.abandonAfter at ht
    split at ht
    · next hk => exact .reset _ (by simp [hr]) ht (.inr rfl) fun _ => ⟨u, hran, trace_ne_of_eventsBetween hk⟩
    · exact .ran u (some 0) hran ht

/-! ### Who writes `drv` and `cfg` -/

/-- A request that moves the driver state is an INIT that answers success, or a CLOSE (10_state.md R21). -/
theorem ran_changes_drv {s u : State} (h : Ran s u) (hne : u.drv ≠ s.drv) :
    (s.drv = .uninitialized ∧ u.drv = .ready ∧
      ∃ r rest extra clkId ioId ceId clkDelay settleDelay order pull, s.port.requests = r :: rest ∧
        decode r.format r.bytes = .ok (.init clkId ioId ceId clkDelay settleDelay order pull, extra) ∧
        u.resp = some { err := 0, info := 0, value := .none }) ∨
    (s.drv = .ready ∧ u.drv = .closed ∧
      ∃ r rest extra, s.port.requests = r :: rest ∧ decode r.format r.bytes = .ok (.close, extra)) := by
  cases h with
  | illegal r rest hr ht => subst ht; exact absurd rfl hne
  | operation r rest i extra hr hf hdec he hx =>
    cases he with
    | refused e hcode ht => subst ht; exact absurd rfl hne
    | malformed e v hcode ht hi hd => subst ht; exact absurd hd hne
    | done v hresp hq hd =>
      rcases hd with hd | ⟨rfl, hs, hu⟩ | ⟨a, b, c, d, e, f, g, rfl, hs, hu, rfl, -⟩
      · exact absurd hd hne
      · exact .inr ⟨hs, hu, r, rest, extra, hr, hdec⟩
      · exact .inl ⟨hs, hu, r, rest, extra, a, b, c, d, e, f, g, hr, hdec, hresp⟩

/-- A request that writes the configuration is an INIT that succeeds, and writes its operands (10_state.md R27). -/
theorem ran_changes_cfg {s u : State} (h : Ran s u) (hne : u.cfg ≠ s.cfg) :
    s.drv = .uninitialized ∧ u.drv = .ready ∧
      ∃ r rest extra clkId ioId ceId clkDelay settleDelay order pull, s.port.requests = r :: rest ∧
        decode r.format r.bytes = .ok (.init clkId ioId ceId clkDelay settleDelay order pull, extra) ∧
        u.cfg =
          { clkDelay, settleDelay, dataResetOrder := order, ioPull := pull, pins := { clkId, ioId, ceId } } := by
  cases h with
  | illegal r rest hr ht => subst ht; exact absurd rfl hne
  | operation r rest i extra hr hf hdec he hx =>
    cases he with
    | refused e hcode ht => subst ht; exact absurd rfl hne
    | malformed e v hcode ht hi hd hc => subst ht; exact absurd hc hne
    | done v hresp hq hd hc =>
      rcases hc with hc | ⟨a, b, c, d, e, f, g, rfl, hs, hu, hcfg⟩
      · exact absurd hc hne
      · exact ⟨hs, hu, r, rest, extra, a, b, c, d, e, f, g, hr, hdec, hcfg⟩

/-- Settles O51: a step that waits keeps `drv`, a reset is the third case, and a request run is one of the first two
(`ran_changes_drv`). -/
theorem driverTransitions : Obligations.DriverTransitions := by
  intro s t h hne
  cases step_stepped h with
  | waited ht => exact absurd (congrArg State.drv ht) hne
  | reset u hr ht => subst ht; exact .inr (.inr ⟨rfl, hr, atReset_engineReset u⟩)
  | ran u k hu ht =>
    subst ht
    rcases ran_changes_drv hu hne with hinit | hclose
    · exact .inl hinit
    · exact .inr (.inl hclose)

/-- Settles O52: a step that waits keeps `cfg`, a reset is the second case, and a request run is the first
(`ran_changes_cfg`). -/
theorem configWrittenByInitOnly : Obligations.ConfigWrittenByInitOnly := by
  intro s t h hne
  cases step_stepped h with
  | waited ht => exact absurd (congrArg State.cfg ht) hne
  | reset u hr ht => subst ht; exact .inr ⟨hr, atReset_engineReset u⟩
  | ran u k hu ht =>
    subst ht
    obtain ⟨hs, hready, hinit⟩ := ran_changes_cfg hu hne
    exact .inl ⟨hs, hready, hinit⟩

/-! ### The host's requests -/

/-- A host code names a host operation (30_encoding.md R110). -/
theorem decode_host_format {bytes extra : List Byte} {i : Instr} (h : decode .h bytes = .ok (i, extra)) :
    i.format = .h := by
  cases bytes with
  | nil => cases h
  | cons code r =>
    simp only [decode, Decode.host] at h
    split at h
    case h_2 =>
      repeat obtain ⟨_, -, h⟩ := decode_bind_ok h
      cases h; rfl
    case h_4 => obtain ⟨_, _, _, _, _, _, rfl, -⟩ := takeCalendar_ok h; rfl
    case h_6 =>
      repeat obtain ⟨_, -, h⟩ := decode_bind_ok h
      cases h; rfl
    all_goals cases h
    all_goals rfl

/-- Where host operations only can run, the request a step takes is one of format H (30_encoding.md R100). -/
theorem hostOnly_takes {s : State} {r : Request} {rest : List Request} (hs : hostOnly s)
    (hr : s.port.requests = r :: rest) (hf : r.format = .h ∨ s.port.direct = true) : r.format = .h := by
  rcases hs with hdirect | hall
  · rcases hf with hf | hf
    · exact hf
    · exact absurd (hdirect.symm.trans hf) (by decide)
  · exact hall r (by simp [hr])

/-- The port may lose requests and a reset, and still host operations only can run. -/
theorem hostOnly_of_port {s t : State} (hs : hostOnly s) (hd : t.port.direct = s.port.direct)
    (hr : t.port.requests ⊆ s.port.requests) : hostOnly t := by
  rcases hs with hdirect | hall
  · exact .inl (hd.trans hdirect)
  · exact .inr fun r hmem => hall r (hr hmem)

theorem hostOnly_takeRequest {s : State} (hs : hostOnly s) : hostOnly s.takeRequest :=
  hostOnly_of_port hs rfl (List.tail_subset _)

/-! ### The lines at rest -/

/-- The invariant of 10_state.md R33 is about four components of the state. -/
theorem linesAtRest_of_eq {s t : State} (hl : linesAtRest s) (hd : t.drv = s.drv) (ht : t.tx = s.tx)
    (hp : t.pin = s.pin) (hc : t.cfg = s.cfg) : linesAtRest t := by
  unfold linesAtRest at *
  rwa [hd, ht, hp, hc]

/-- In Ready, TX_CLOSE puts the lines back at rest (41_framing.md R145), whatever the data latch. -/
theorem linesAtRest_closed {s t : State} {l : Level} (hl : linesAtRest s) (hs : s.drv = .ready)
    (hd : t.drv = s.drv) (ht : t.tx = s.tx) (hp : t.pin = s.pin.closed s.cfg.ioPull l) (hc : t.cfg = s.cfg) :
    linesAtRest t := by
  unfold linesAtRest at *
  rw [hs] at hl
  obtain ⟨htx, hclkDir, -, hceDir, -⟩ := hl
  rw [hd, hs, ht, hp, hc]
  exact ⟨htx, hclkDir, rfl, hceDir, rfl, rfl, rfl⟩

theorem linesAtRest_afterInit {s : State} (cfg : Cfg) (ht : s.tx = .idle) : linesAtRest (s.afterInit cfg) :=
  ⟨ht, rfl, rfl, rfl, rfl, rfl, rfl⟩

/-- How a host operation launched in `s` ends: the engine idle, the lines at rest, the port as it was. -/
structure EndedAtRest (s t : State) : Prop where
  idle : engineIdle t
  lines : linesAtRest t
  port : t.port = s.port

theorem endedAtRest_refusedWith {s u : State} (e : EngineError) (hl : linesAtRest u) (hp : u.port = s.port) :
    EndedAtRest s (refusedWith e u) :=
  ⟨⟨rfl, rfl⟩, linesAtRest_of_eq hl rfl rfl rfl rfl, hp⟩

theorem endedAtRest_finishedWith {s u : State} (v : Value) (hl : linesAtRest u) (hp : u.port = s.port) :
    EndedAtRest s (finishedWith v u) :=
  ⟨⟨rfl, rfl⟩, linesAtRest_of_eq hl rfl rfl rfl rfl, hp⟩

/-- The gate of the data operations refuses, or lets them start in Ready with no transaction open. -/
theorem readyGate_error_or_ready (s : State) :
    (∃ e, readyGate s = .error e) ∨ (s.drv = .ready ∧ s.tx = .idle) := by
  rcases readyGate_cases s with ⟨-, hg⟩ | ⟨-, -, hg⟩ | ⟨hd, ht, -⟩
  · exact .inl ⟨_, hg⟩
  · exact .inl ⟨_, hg⟩
  · exact .inr ⟨hd, ht⟩

theorem execInit_endedAtRest {s t : State} {a b c : PinId} {d e : BitVec 16} {f : DataResetOrder} {g : Pull}
    (hl : linesAtRest s) (h : execInit a b c d e f g s = .next t) : EndedAtRest s t := by
  rcases initGate_cases a b c s with ⟨er, -, -, hg⟩ | ⟨hd, htx, hn, hv⟩
  · rw [execInit_error d e f g hg] at h
    exact next_inj h ▸ endedAtRest_refusedWith er hl rfl
  · rw [execInit_ok d e f g hd htx hn hv] at h
    exact next_inj h ▸ endedAtRest_finishedWith _ (linesAtRest_afterInit _ htx) rfl

theorem execReadDatetime_endedAtRest {s t : State} (hl : linesAtRest s) (h : execReadDatetime s = .next t) :
    EndedAtRest s t := by
  rcases readyGate_error_or_ready s with ⟨er, hg⟩ | ⟨hd, htx⟩
  · rw [(execDataOp_gate hg).1] at h
    exact next_inj h ▸ endedAtRest_refusedWith er hl rfl
  · rw [execReadDatetime_ok hd htx] at h
    dsimp only at h
    generalize s.env.frameRead s.cfg 0xBF 7 s.pin = q at h
    cases hdec : bcdDecode (loadFront s.buf.img q.1) with
    | ok c =>
      rw [hdec] at h
      exact next_inj h ▸ endedAtRest_finishedWith _ (linesAtRest_closed hl hd rfl rfl rfl rfl) rfl
    | error e =>
      rw [hdec] at h
      exact next_inj h ▸ endedAtRest_refusedWith e (linesAtRest_closed hl hd rfl rfl rfl rfl) rfl

theorem execWriteDatetime_endedAtRest {s t : State} {y : BitVec 12} {mo : BitVec 4} {d hh : BitVec 5}
    {mi sec : BitVec 6} (hl : linesAtRest s) (h : execWriteDatetime y mo d hh mi sec s = .next t) :
    EndedAtRest s t := by
  rcases readyGate_error_or_ready s with ⟨er, hg⟩ | ⟨hd, htx⟩
  · rw [(execDataOp_gate hg).2.2.1] at h
    exact next_inj h ▸ endedAtRest_refusedWith er hl rfl
  · cases hb : encodeBounds y.toNat mo.toNat d.toNat hh.toNat mi.toNat sec.toNat with
    | none =>
      rw [execWriteDatetime_ok hd htx hb] at h
      exact next_inj h ▸ endedAtRest_finishedWith _ (linesAtRest_closed hl hd rfl rfl rfl rfl) rfl
    | some f =>
      rw [execWriteDatetime_error hd htx hb] at h
      exact next_inj h ▸ endedAtRest_refusedWith _ hl rfl

theorem execReadRam_endedAtRest {s t : State} (hl : linesAtRest s) (h : execReadRam s = .next t) :
    EndedAtRest s t := by
  rcases readyGate_error_or_ready s with ⟨er, hg⟩ | ⟨hd, htx⟩
  · rw [(execDataOp_gate hg).2.1] at h
    exact next_inj h ▸ endedAtRest_refusedWith er hl rfl
  · rw [execReadRam_ok hd htx] at h
    generalize s.env.frameRead s.cfg 0xFF 31 s.pin = q at h
    exact next_inj h ▸ endedAtRest_finishedWith _ (linesAtRest_closed hl hd rfl rfl rfl rfl) rfl

theorem execWriteRam_endedAtRest {s t : State} {len : BitVec 8} {image : Vector Byte 31} (hl : linesAtRest s)
    (h : execWriteRam len image s = .next t) : EndedAtRest s t := by
  rcases readyGate_error_or_ready s with ⟨er, hg⟩ | ⟨hd, htx⟩
  · rw [(execDataOp_gate hg).2.2.2] at h
    exact next_inj h ▸ endedAtRest_refusedWith er hl rfl
  · rw [execWriteRam_ok len image hd htx] at h
    exact next_inj h ▸ endedAtRest_finishedWith _ (linesAtRest_closed hl hd rfl rfl rfl rfl) rfl

theorem execClose_endedAtRest {s t : State} (hl : linesAtRest s) (h : execClose s = .next t) :
    EndedAtRest s t := by
  cases hd : s.drv with
  | uninitialized =>
    rw [execClose_uninitialized hd] at h
    exact next_inj h ▸ endedAtRest_refusedWith _ hl rfl
  | closed =>
    rw [execClose_closed hd] at h
    exact next_inj h ▸ endedAtRest_finishedWith _ hl rfl
  | ready =>
    obtain ⟨htx, -⟩ := hl
    rw [execClose_ready hd htx] at h
    exact next_inj h ▸ endedAtRest_finishedWith _ ⟨htx, rfl, rfl, rfl, rfl⟩ rfl

/-- Every host operation, launched at rest, ends at rest (45_driver_operations.md R209). -/
theorem exec_host_endedAtRest {i : Instr} {s t : State} (hi : i.format = .h) (hl : linesAtRest s)
    (h : exec i s = .next t) : EndedAtRest s t := by
  cases i with
  | init => exact execInit_endedAtRest hl h
  | readDatetime => exact execReadDatetime_endedAtRest hl h
  | writeDatetime => exact execWriteDatetime_endedAtRest hl h
  | readRam => exact execReadRam_endedAtRest hl h
  | writeRam => exact execWriteRam_endedAtRest hl h
  | close => exact execClose_endedAtRest hl h
  | cmdWp | cmdTcs | cmdClkWr | cmdClkRd | cmdRamWr | cmdRamRd | txOpen | txClose | writeByte | readByte | bcdPack
  | bcdUnpack | dow | bcdEncode | bcdDecode | regWrite | burstRead | burstWrite | dir | wr | rd | dly | rel => cases hi

/-! ### The invariant between operations -/

/-- The next request, where host operations only can run, ends at rest. -/
theorem ran_endedAtRest {s u : State} (hs : hostOnly s) (hl : linesAtRest s) (h : Ran s u) :
    EndedAtRest s.takeRequest u := by
  have hl' : linesAtRest s.takeRequest := linesAtRest_of_eq hl rfl rfl rfl rfl
  cases h with
  | illegal r rest hr ht => subst ht; exact endedAtRest_refusedWith _ hl' rfl
  | operation r rest i extra hr hf hdec he hx =>
    rw [hostOnly_takes hs hr hf] at hdec
    exact exec_host_endedAtRest (decode_host_format hdec) hl' hx

/-- The next request is an INIT. -/
def initRequested (s : State) : Prop :=
  ∃ r rest extra clkId ioId ceId clkDelay settleDelay order pull, s.port.requests = r :: rest ∧
    decode r.format r.bytes = .ok (.init clkId ioId ceId clkDelay settleDelay order pull, extra)

/-- A request the host makes emits pin events in Ready, or is INIT (40_pin_primitives.md R130). -/
theorem ran_emits {s u : State} (hs : hostOnly s) (h : Ran s u) (hne : u.env.trace ≠ s.env.trace) :
    s.drv = .ready ∨ (s.drv = .uninitialized ∧ initRequested s) := by
  cases h with
  | illegal r rest hr ht => subst ht; exact absurd rfl hne
  | operation r rest i extra hr hf hdec he hx =>
    have hi : i.format = .h := by
      rw [hostOnly_takes hs hr hf] at hdec
      exact decode_host_format hdec
    by_contra hcon
    obtain ⟨hready, hinit⟩ := not_or.mp hcon
    refine hne (congrArg Env.trace (exec_host_silent (s := s.takeRequest) hi hready ?_ hx))
    rintro hu ⟨a, b, c, d, e, f, g, rfl⟩
    exact hinit ⟨hu, r, rest, extra, a, b, c, d, e, f, g, hr, hdec⟩

/-- Settles O54: a step that waits keeps the invariant, a reset establishes it (`linesAtRest_engineReset`), and so does
every host operation (`ran_endedAtRest`); the events are those of the request run (`ran_emits`). -/
theorem restKeptByStep : Obligations.RestKeptByStep := by
  intro s t hs hidle hl h
  cases step_stepped h with
  | waited ht => subst ht; exact ⟨hs, hidle, hl, fun hne => absurd rfl hne⟩
  | reset u hr ht hp he =>
    subst ht
    refine ⟨?_, engineIdle_engineReset u, linesAtRest_engineReset u, fun hne => ?_⟩
    · rcases hp with hp | hp
      · exact hostOnly_of_port hs (by simp [hp]) (by simp [hp])
      · exact hostOnly_of_port (hostOnly_takeRequest hs) (by simp [hp]) (by simp [hp])
    · obtain ⟨v, hv, hvne⟩ := he hne
      exact ran_emits hs hv hvne
  | ran u k hu ht =>
    subst ht
    obtain ⟨hidle', hl', hp⟩ := ran_endedAtRest hs hl hu
    refine ⟨?_, hidle', linesAtRest_of_eq hl' rfl rfl rfl rfl, fun hne => ran_emits hs hu hne⟩
    exact hostOnly_of_port (hostOnly_takeRequest hs) (by simp [hp]) (by simp [hp])

end Sys2Proof.Machine
end

section
/-! PROOFS. 20_memory.md: the bits of a write frame (R64, R65), and the engine against the reference peripheral (R91,
R92). The latter goes through one predicate, `ServedBy`, that INIT establishes and every data operation keeps, and one
lemma per data operation that says what it answers and what it makes of the peripheral's storage. -/

namespace Sys2Proof.Machine

/-! ### The bits on IO at the rising edges -/

@[simp] theorem ioAtClkHigh_append (r : PinRegs) (a b : List PinEvent) :
    ioAtClkHigh r (a ++ b) = ioAtClkHigh r a ++ ioAtClkHigh (r.applyAll a) b := by
  induction a generalizing r with
  | nil => rfl
  | cons ev a ih => simp [ioAtClkHigh, ih]

/-- Events that never raise CLK carry no bit. -/
theorem ioAtClkHigh_eq_nil (r : PinRegs) {evs : List PinEvent} (h : .wr .clk .high ∉ evs) :
    ioAtClkHigh r evs = [] := by
  induction evs generalizing r with
  | nil => rfl
  | cons ev evs ih =>
    obtain ⟨hev, hevs⟩ := not_or.mp (mt List.mem_cons.mpr h)
    rw [ioAtClkHigh, if_neg (Ne.symm hev), ih _ hevs, List.nil_append]

theorem clkHigh_not_mem_txOpenEvents (cfg : Cfg) : .wr .clk .high ∉ txOpenEvents cfg := by
  unfold txOpenEvents dataLineReset
  cases cfg.dataResetOrder <;> by_cases hs : cfg.settleDelay = 0 <;> simp [hs]

theorem clkHigh_not_mem_txCloseEvents (cfg : Cfg) : .wr .clk .high ∉ txCloseEvents cfg := by simp [txCloseEvents]

/-- One bit of WRITE_BYTE carries its level (42_byte_shift.md R150). -/
theorem ioAtClkHigh_writeBitEvents (r : PinRegs) (d : BitVec 16) (l : Level) :
    ioAtClkHigh r (writeBitEvents d l) = [l] := by
  simp [writeBitEvents, ioAtClkHigh, PinRegs.apply]

theorem ioAtClkHigh_writeBits (d : BitVec 16) (ls : List Level) (r : PinRegs) :
    ioAtClkHigh r (ls.flatMap (writeBitEvents d)) = ls := by
  induction ls generalizing r with
  | nil => rfl
  | cons l ls ih => rw [List.flatMap_cons, ioAtClkHigh_append, ioAtClkHigh_writeBitEvents, ih, List.singleton_append]

/-- WRITE_BYTE carries the byte's bits, bit 0 first (20_memory.md R64). -/
theorem ioAtClkHigh_writeByteEvents (r : PinRegs) (d : BitVec 16) (v : Byte) :
    ioAtClkHigh r (writeByteEvents d v) = byteLevels v := by
  simp [writeByteEvents, ioAtClkHigh, ioAtClkHigh_writeBits]

theorem ioAtClkHigh_writeBytes (d : BitVec 16) (bytes : List Byte) (r : PinRegs) :
    ioAtClkHigh r (bytes.flatMap (writeByteEvents d)) = bytesLevels bytes := by
  induction bytes generalizing r with
  | nil => rfl
  | cons v bytes ih => rw [List.flatMap_cons, ioAtClkHigh_append, ioAtClkHigh_writeByteEvents, ih]; rfl

/-- Settles O37: TX_OPEN and TX_CLOSE carry no bit, and between them stand the bytes (`ioAtClkHigh_writeBytes`). -/
theorem frameBits : Obligations.FrameBits := by
  intro r cfg c bytes
  rw [writeFrame, ioAtClkHigh_append, ioAtClkHigh_append, ioAtClkHigh_eq_nil _ (clkHigh_not_mem_txOpenEvents cfg),
    ioAtClkHigh_eq_nil _ (clkHigh_not_mem_txCloseEvents cfg), ioAtClkHigh_writeBytes, List.nil_append, List.append_nil]
  rfl

/-! ### A Ready engine and the reference peripheral -/

/-- A Ready engine at rest with the reference peripheral `p` on the lines, waiting for a frame (20_memory.md R82). -/
structure ServedBy (s : State) (p : Periph) : Prop where
  lines : linesAtRest s
  ready : s.drv = .ready
  periph : s.env.periph = some p
  waiting : p.waiting

theorem ServedBy.idle {s : State} {p : Periph} (h : ServedBy s p) : s.tx = .idle := by
  obtain ⟨htx, -⟩ := h.lines
  exact htx

/-- In Ready the engine drives CLK and CE (10_state.md R33). -/
theorem ServedBy.driven {s : State} {p : Periph} (h : ServedBy s p) :
    s.pin.clkDir = .output ∧ s.pin.ceDir = .output := by
  obtain ⟨-, hl⟩ := h.lines
  rw [h.ready] at hl
  obtain ⟨hclk, -, hce, -⟩ := hl
  exact ⟨hclk, hce⟩

/-- A host operation that ends in Ready, with the peripheral waiting again, leaves the next one what it needs: the
lines are at rest after every host operation (`exec_host_endedAtRest`). -/
theorem ServedBy.of_exec {i : Instr} {s t : State} {q : Periph} (hl : linesAtRest s) (hi : i.format = .h)
    (hx : exec i s = .next t) (hd : t.drv = .ready) (hq : t.env.periph = some q) (hw : q.waiting) : ServedBy t q :=
  ⟨(exec_host_endedAtRest hi hl hx).lines, hd, hq, hw⟩

/-! ### INIT -/

/-- INIT's set-up of the pins, seen by a peripheral that is not in a frame (45_driver_operations.md R200,
20_memory.md R84). -/
theorem Env.seeAll_pinSetup {e : Env} {p : Periph} (h : e.periph = some p) (r : PinRegs) (hp : p.waiting) :
    e.seeAll r pinSetupEvents = e.with pinSetupEvents p.shut := by
  obtain ⟨-, -, hact⟩ := hp
  simp only [pinSetupEvents, Env.seeAll_cons, Env.seeAll_nil]
  rw [Env.see_ignored h _ _ (by simp), Env.see_clkLow (Env.with_periph _ _ _) _ rfl (.inl hact), Env.with_with,
    Env.with_see_dir, Env.see_ce (Env.with_periph _ _ _) _ rfl, Env.with_with]
  rfl

/-- What INIT's events make of the peripheral: the set-up of the pins, then the two maintenance frames. -/
theorem afterInit_periph (cfg : Cfg) {s : State} {p : Periph} (h : s.env.periph = some p) (hp : p.waiting) :
    ∃ q, (s.afterInit cfg).env.periph = some q ∧ q.waiting ∧ q.wp = false ∧ q.tcs = 0 ∧ q.clkreg = p.clkreg ∧
      q.ram = p.ram := by
  have hsetup := Env.seeAll_pinSetup h s.pin hp
  obtain ⟨q₁, hwp, hw₁, hwp₁, hclk₁, hram₁⟩ := Env.wp_frame cfg (Env.with_periph s.env pinSetupEvents p.shut)
    (s.pin.applyAll pinSetupEvents) ⟨rfl, rfl⟩ ⟨rfl, rfl, rfl⟩
  obtain ⟨q₂, htcs, hw₂, hwp₂, htcs₂, hclk₂, hram₂⟩ := Env.tcs_frame cfg
    (Env.with_periph (s.env.with pinSetupEvents p.shut) (writeFrame cfg 0x8E [0]) q₁)
    (s.pin.applyAll (pinSetupEvents ++ writeFrame cfg 0x8E [0]))
    (by rw [PinRegs.applyAll_append, applyAll_writeFrame]; exact ⟨rfl, rfl⟩) hw₁ hwp₁
  refine ⟨q₂, ?_, hw₂, hwp₂, htcs₂, hclk₂.trans hclk₁, hram₂.trans hram₁⟩
  show (s.env.seeAll s.pin (pinSetupEvents ++ writeFrame cfg 0x8E [0] ++ writeFrame cfg 0x90 [0])).periph = some q₂
  rw [Env.seeAll_append, Env.seeAll_append, hsetup, hwp, htcs]
  rfl

/-- Settles O57: INIT passes its checks (`execInit_ok`), and its events are `afterInit_periph`'s. -/
theorem peripheralAfterInit : Obligations.PeripheralAfterInit := by
  intro clkId ioId ceId clkDelay settleDelay order pull s p hl hd hp hw h1 h2 h3 v1 v2 v3
  obtain ⟨q, hq, hstored⟩ := afterInit_periph
    { clkDelay, settleDelay, dataResetOrder := order, ioPull := pull, pins := { clkId, ioId, ceId } } hp hw
  exact ⟨_, q, execInit_ok clkDelay settleDelay order pull hd hl.1 ⟨h1, h2, h3⟩ ⟨v1, v2, v3⟩, rfl, hq, hstored⟩

/-! ### The data operations -/

/-- WRITE_DATETIME reports success; it stores the encoded date unless write protect is set (20_memory.md R91(b), R92). -/
theorem ServedBy.writeDatetime {s : State} {p : Periph} (hs : ServedBy s p) {y : BitVec 12} {mo : BitVec 4}
    {d h : BitVec 5} {mi sec : BitVec 6}
    (hb : InBounds y.toNat mo.toNat d.toNat h.toNat mi.toNat sec.toNat) :
    ∃ t q, exec (.writeDatetime y mo d h mi sec) s = .next t ∧
      t.resp = some { err := 0, info := 0, value := .none } ∧ ServedBy t q ∧
      q.clkreg = (if p.wp then p.clkreg
        else encodeImage y.toNat mo.toNat d.toNat h.toNat mi.toNat sec.toNat) ∧
      q.ram = p.ram ∧ q.wp = p.wp ∧ q.tcs = p.tcs := by
  obtain ⟨q, hframe, hw, hstored⟩ := Env.clkWrite_frame s.cfg
    (encodeImage y.toNat mo.toNat d.toNat h.toNat mi.toNat sec.toNat) hs.periph s.pin hs.driven hs.waiting
  have hx : exec (.writeDatetime y mo d h mi sec) s = _ :=
    execWriteDatetime_ok hs.ready hs.idle (encodeBounds_none.mpr hb)
  exact ⟨_, q, hx, rfl, .of_exec hs.lines rfl hx hs.ready (congrArg Env.periph hframe) hw, hstored⟩

/-- WRITE_RAM reports success; it stores the bytes it sends unless write protect is set (20_memory.md R91(c), R92). -/
theorem ServedBy.writeRam {s : State} {p : Periph} (hs : ServedBy s p) (len : BitVec 8) (image : Vector Byte 31) :
    ∃ t q, exec (.writeRam len image) s = .next t ∧
      t.resp = some { err := 0, info := 0, value := .none } ∧ ServedBy t q ∧
      q.ram = (if p.wp then p.ram else loadFront p.ram (image.toList.take (min len.toNat 31))) ∧
      q.clkreg = p.clkreg ∧ q.wp = p.wp ∧ q.tcs = p.tcs := by
  obtain ⟨q, hframe, hw, hstored⟩ := Env.ramWrite_frame s.cfg (image.toList.take (min len.toNat 31)) (by simp)
    hs.periph s.pin hs.driven hs.waiting
  have hx : exec (.writeRam len image) s = _ := execWriteRam_ok len image hs.ready hs.idle
  exact ⟨_, q, hx, rfl, .of_exec hs.lines rfl hx hs.ready (congrArg Env.periph hframe) hw, hstored⟩

/-- A buffer wholly loaded from another vector is that vector. -/
theorem loadFront_toList {n : Nat} (v w : Vector Byte n) : loadFront v w.toList = w :=
  Vector.toList_inj.mp (loadFront_full v w.toList (by simp))

/-- A buffer loaded with the front of another vector. -/
theorem loadFront_take_getElem {n m : Nat} (v w : Vector Byte n) (hm : m ≤ n) (k : Nat) (hk : k < n) :
    (loadFront v (w.toList.take m))[k] = if k < m then w[k] else v[k] := by
  have hlen : (w.toList.take m).length = m := by simp [hm]
  rw [loadFront_getElem _ _ (hlen.trans_le hm)]
  by_cases hlt : k < m
  · rw [dif_pos (by rwa [hlen]), if_pos hlt, List.getElem_take, Vector.getElem_toList]
  · rw [dif_neg (by rwa [hlen]), if_neg hlt]

/-- READ_DATETIME answers the date stored, where the stored bytes decode to one (20_memory.md R91(b)). -/
theorem ServedBy.readDatetime {s : State} {p : Periph} (hs : ServedBy s p) {c : Calendar}
    (hc : bcdDecode p.clkreg = .ok c) :
    ∃ t, exec .readDatetime s = .next t ∧ t.resp = some { err := 0, info := 0, value := .calendar c } := by
  obtain ⟨q, hframe, -⟩ := Env.clkRead_frame s.cfg hs.periph s.pin hs.driven hs.waiting
  have hx : exec .readDatetime s = _ := execReadDatetime_ok hs.ready hs.idle
  simp only [hframe, loadFront_toList, hc] at hx
  exact ⟨_, hx, rfl⟩

/-- READ_RAM answers the bytes stored, and changes nothing stored (20_memory.md R91(c)). -/
theorem ServedBy.readRam {s : State} {p : Periph} (hs : ServedBy s p) :
    ∃ t q, exec .readRam s = .next t ∧ t.resp = some { err := 0, info := 0, value := .ram p.ram } ∧
      t.env.periph = some q ∧ q.clkreg = p.clkreg ∧ q.ram = p.ram ∧ q.wp = p.wp ∧ q.tcs = p.tcs := by
  obtain ⟨q, hframe, -, hstored⟩ := Env.ramRead_frame s.cfg hs.periph s.pin hs.driven hs.waiting
  have hx : exec .readRam s = _ := execReadRam_ok hs.ready hs.idle
  simp only [hframe, loadFront_toList] at hx
  exact ⟨_, q, hx, rfl, rfl, hstored⟩

/-! ### The statements of R91 and R92 -/

/-- Settles O58: the image WRITE_DATETIME stores is the one READ_DATETIME decodes, and decoding undoes encoding
(`bcdDecode_encodeImage`). -/
theorem peripheralDatetime : Obligations.PeripheralDatetime := by
  intro y mo d h mi sec s p hl hd hp hw hwp y1 y2 m1 m2 d1 d2 hh hmi hsec
  have hb : InBounds y.toNat mo.toNat d.toNat h.toNat mi.toNat sec.toNat :=
    ⟨⟨y1, y2⟩, ⟨m1, m2⟩, ⟨d1, d2⟩, hh, hmi, hsec⟩
  obtain ⟨t, q, hwrite, -, hserved, hclk, -⟩ := ServedBy.writeDatetime ⟨hl, hd, hp, hw⟩ hb
  have hdec := bcdDecode_encodeImage hb
  rw [hwp, if_neg Bool.false_ne_true] at hclk
  rw [← hclk] at hdec
  obtain ⟨u, hread, hresp⟩ := hserved.readDatetime hdec
  exact ⟨t, u, _, hwrite, hread, weekdayOf_toNat _ _ _, hresp⟩

/-- Settles O59: READ_RAM answers the storage WRITE_RAM has left, its front replaced (`loadFront_take_getElem`). -/
theorem peripheralRam : Obligations.PeripheralRam := by
  intro len image s p hl hd hp hw hwp
  obtain ⟨t, q, hwrite, -, hserved, hram, -⟩ := ServedBy.writeRam ⟨hl, hd, hp, hw⟩ len image
  obtain ⟨u, -, hread, hresp, -⟩ := hserved.readRam
  refine ⟨t, u, q.ram, hwrite, hread, hresp, fun k hk => ?_⟩
  rw [hwp, if_neg Bool.false_ne_true] at hram
  simp only [hram]
  exact loadFront_take_getElem p.ram image (Nat.min_le_right _ _) k hk

/-- Settles O60: each write leaves the storage of a protected peripheral as it was, and the read answers it. -/
theorem peripheralProtected : Obligations.PeripheralProtected := by
  intro y mo d h mi sec len image s p hl hd hp hw hwp y1 y2 m1 m2 d1 d2 hh hmi hsec
  obtain ⟨a, qa, hxa, hra, hsa, hclka, hrama, hwpa, htcsa⟩ :=
    ServedBy.writeDatetime ⟨hl, hd, hp, hw⟩ ⟨⟨y1, y2⟩, ⟨m1, m2⟩, ⟨d1, d2⟩, hh, hmi, hsec⟩
  obtain ⟨b, qb, hxb, hrb, hsb, hramb, hclkb, hwpb, htcsb⟩ := hsa.writeRam len image
  obtain ⟨c, qc, hxc, hrc, hqc, hclkc, hramc, hwpc, htcsc⟩ := hsb.readRam
  rw [if_pos hwp] at hclka
  rw [if_pos (hwpa.trans hwp)] at hramb
  have hram : qb.ram = p.ram := hramb.trans hrama
  exact ⟨a, b, c, qc, hxa, hxb, hxc, hra, hrb, hram ▸ hrc, hqc, hclkc.trans (hclkb.trans hclka), hramc.trans hram,
    hwpc.trans (hwpb.trans (hwpa.trans hwp)), htcsc.trans (htcsb.trans htcsa)⟩

end Sys2Proof.Machine
end

section
/-! PROOFS. 30_encoding.md: requests decode to what they encode and to nothing else (R100, R101, R109 to R112), the
step's answer to a request (R111, R113), the image inside its masks (R105, R107), and what an operation asked for by
itself leaves alone (R112). Decoding is inverted format by format through one predicate, `Spells`. -/

namespace Sys2Proof

/-! ### Decoding an encoding -/

theorem checked_of_wellFormed {i : Instr} (h : i.wellFormed = true) (r : List Byte) :
    Decode.checked i r = .ok (i, r) := if_pos h

/-- Each operation's arm of the decoder reads its operand fields back in turn. -/
theorem decode_encode {i : Instr} (h : i.wellFormed = true) (rest : List Byte) :
    decode i.format (encode i ++ rest) = .ok (i, rest) := by
  cases i with
  | init a b c d e f g =>
    simp [Instr.format, encode, decode, Decode.host, takeIdent_ident, takeWord_word]
  | writeDatetime y mo d hh mi s =>
    simp [Instr.format, encode, decode, Decode.host, takeCalendar_calendar]
  | writeRam len image => simp [Instr.format, encode, decode, Decode.host, takeBits_bits, takeBytes_toList]
  | readDatetime | readRam | close => simp [Instr.format, encode, decode, Decode.host]
  | cmdRamWr len => simp [Instr.format, encode, decode, Decode.wire, takeBits_bits]
  | cmdWp | cmdTcs | cmdClkWr | cmdClkRd | cmdRamRd => simp [Instr.format, encode, decode, Decode.wire]
  | bcdPack v => simp [Instr.format, encode, decode, Decode.micro, takeBits_bits, checked_of_wellFormed h]
  | dow y m d =>
    simp [Instr.format, encode, decode, Decode.micro, takeWord_word, takeBits_bits, checked_of_wellFormed h]
  | bcdEncode y mo d hh mi s => simp [Instr.format, encode, decode, Decode.micro, takeCalendar_calendar]
  | bcdDecode image => simp [Instr.format, encode, decode, Decode.micro, takeBytes_toList]
  | burstWrite c n data =>
    simp [Instr.format, encode, decode, Decode.micro, takeBits_bits, takeBytes_toList]
  | writeByte | bcdUnpack | regWrite | burstRead =>
    simp [Instr.format, encode, decode, Decode.micro, takeBits_bits]
  | txOpen | txClose | readByte => simp [Instr.format, encode, decode, Decode.micro]
  | rd p => simp [Instr.format, encode, decode, Decode.pinEvent, checked_of_wellFormed h]
  | dly t => simp [Instr.format, encode, decode, Decode.pinEvent, takeWord_word]
  | dir | wr | rel => simp [Instr.format, encode, decode, Decode.pinEvent]

/-- Settles O8: `decode_encode`. -/
theorem decodeEncode : Obligations.DecodeEncode := fun _ rest h => decode_encode h rest

/-- Settles O7: each of the words is the encoding of its operation, written out. -/
theorem wordsDecode : Obligations.WordsDecode :=
  ⟨decode_encode (i := .init 11 13 15 10 256 .afterCe .pullUp) rfl [],
    decode_encode (i := .init 300 13 15 0 0 .none .none) rfl [],
    decode_encode (i := .writeDatetime 2024 3 15 10 30 0) rfl [],
    decode_encode (i := .close) rfl [],
    decode_encode (i := .cmdClkRd) rfl [],
    decode_encode (i := .txOpen) rfl [],
    decode_encode (i := .txClose) rfl [],
    decode_encode (i := .regWrite 0x8E 0x00) rfl [],
    decode_encode (i := .dir .io .input .pullUp) rfl [],
    decode_encode (i := .dly 65535) rfl []⟩

/-! ### What decodes -/

/-- The bytes are the encoding of a well-formed operation `i` of format `f`, and then `rest`. -/
structure Spells (f : Format) (bytes : List Byte) (i : Instr) (rest : List Byte) : Prop where
  format : i.format = f
  wellFormed : i.wellFormed = true
  bytes : bytes = encode i ++ rest

/-- The bytes are an INIT with `data_reset_order` 3, "unassigned and treated as NONE" (30_encoding.md R111). -/
def SpellsInitOrder3 (bytes : List Byte) (i : Instr) (rest : List Byte) : Prop :=
  ∃ clkId ioId ceId clkDelay settleDelay pull, i = .init clkId ioId ceId clkDelay settleDelay .none pull ∧
    bytes = [1] ++ Encode.ident clkId ++ Encode.ident ioId ++ Encode.ident ceId ++ Encode.word clkDelay ++
      Encode.word settleDelay ++ [3] ++ Encode.pull pull ++ rest

theorem byte_eq_of_toNat {b : Byte} {n : Nat} (h : b.toNat = n) : b = BitVec.ofNat 8 n := by
  rw [← h, BitVec.ofNat_toNat, BitVec.setWidth_eq]

theorem checked_ok {i j : Instr} {l r : List Byte} (h : Decode.checked i l = .ok (j, r)) :
    i.wellFormed = true ∧ i = j ∧ l = r := by
  unfold Decode.checked at h
  split at h
  · next hw => cases h; exact ⟨hw, rfl, rfl⟩
  · cases h

/-- INIT's operands (30_encoding.md R111): the order is the one field with two spellings. -/
theorem host_init_ok {l rest : List Byte} {i : Instr} (h : Decode.host 1 l = .ok (i, rest)) :
    Spells .h (1 :: l) i rest ∨ SpellsInitOrder3 (1 :: l) i rest := by
  simp only [Decode.host] at h
  obtain ⟨⟨clkId, l1⟩, hclk, h⟩ := decode_bind_ok h
  obtain ⟨⟨ioId, l2⟩, hio, h⟩ := decode_bind_ok h
  obtain ⟨⟨ceId, l3⟩, hce, h⟩ := decode_bind_ok h
  obtain ⟨⟨clkDelay, l4⟩, hdelay, h⟩ := decode_bind_ok h
  obtain ⟨⟨settleDelay, l5⟩, hsettle, h⟩ := decode_bind_ok h
  obtain ⟨⟨order, l6⟩, horder, h⟩ := decode_bind_ok h
  obtain ⟨⟨pull, l7⟩, hpull, h⟩ := decode_bind_ok h
  dsimp only at hio hce hdelay hsettle horder hpull
  cases h
  have hl : l = Encode.ident clkId ++ (Encode.ident ioId ++ (Encode.ident ceId ++ (Encode.word clkDelay ++
      (Encode.word settleDelay ++ l5)))) := by
    rw [takeIdent_ok hclk, takeIdent_ok hio, takeIdent_ok hce, takeWord_ok hdelay, takeWord_ok hsettle]
  have hl6 := takePull_ok hpull
  rcases takeOrder_ok horder with hl5 | ⟨rfl, hl5⟩
  · exact .inl ⟨rfl, rfl, by simp [encode, hl, hl5, hl6]⟩
  · exact .inr ⟨clkId, ioId, ceId, clkDelay, settleDelay, pull, rfl, by simp [hl, hl5, hl6]⟩

/-- Format H (30_encoding.md R110). -/
theorem host_ok {code : Byte} {l rest : List Byte} {i : Instr} (h : Decode.host code.toNat l = .ok (i, rest)) :
    Spells .h (code :: l) i rest ∨ SpellsInitOrder3 (code :: l) i rest := by
  unfold Decode.host at h
  split at h
  case h_2 hc => rw [byte_eq_of_toNat hc]; exact host_init_ok h
  case h_4 hc =>
    obtain ⟨y, mo, d, hh, mi, s, rfl, rfl⟩ := takeCalendar_ok h
    exact .inl ⟨rfl, rfl, by rw [byte_eq_of_toNat hc]; rfl⟩
  case h_6 hc =>
    obtain ⟨⟨len, l1⟩, hlen, h⟩ := decode_bind_ok h
    obtain ⟨⟨image, l2⟩, himage, h⟩ := decode_bind_ok h
    cases h
    exact .inl ⟨rfl, rfl, by simp [encode, byte_eq_of_toNat hc, takeBits_ok (by decide) hlen, takeBytes_ok himage]⟩
  case h_3 hc | h_5 hc | h_7 hc => cases h; exact .inl ⟨rfl, rfl, by rw [byte_eq_of_toNat hc]; rfl⟩
  case h_1 | h_8 | h_9 => cases h

/-- Format W (30_encoding.md R101). -/
theorem wire_ok {code : Byte} {l rest : List Byte} {i : Instr} (h : Decode.wire code.toNat l = .ok (i, rest)) :
    Spells .w (code :: l) i rest := by
  unfold Decode.wire at h
  split at h
  case h_5 hc =>
    obtain ⟨⟨len, l1⟩, hlen, h⟩ := decode_bind_ok h
    cases h
    exact ⟨rfl, rfl, by simp [encode, byte_eq_of_toNat hc, takeBits_ok (by decide) hlen]⟩
  case h_1 hc | h_2 hc | h_3 hc | h_4 hc | h_6 hc =>
    cases h; exact ⟨rfl, rfl, by rw [byte_eq_of_toNat hc]; rfl⟩
  case h_7 => cases h

/-- Format U (30_encoding.md R112); BCD_PACK and DOW decode on their domain only. -/
theorem micro_ok {code : Byte} {l rest : List Byte} {i : Instr} (h : Decode.micro code.toNat l = .ok (i, rest)) :
    Spells .u (code :: l) i rest := by
  unfold Decode.micro at h
  split at h
  case h_1 hc | h_2 hc | h_4 hc => cases h; exact ⟨rfl, rfl, by rw [byte_eq_of_toNat hc]; rfl⟩
  case h_3 hc =>
    obtain ⟨⟨v, l1⟩, hv, h⟩ := decode_bind_ok h
    cases h
    exact ⟨rfl, rfl, by simp [encode, byte_eq_of_toNat hc, takeBits_ok (by decide) hv]⟩
  case h_5 hc =>
    obtain ⟨⟨v, l1⟩, hv, h⟩ := decode_bind_ok h
    obtain ⟨hw, rfl, rfl⟩ := checked_ok h
    exact ⟨rfl, hw, by simp [encode, byte_eq_of_toNat hc, takeBits_ok (by decide) hv]⟩
  case h_7 hc =>
    obtain ⟨⟨y, l1⟩, hy, h⟩ := decode_bind_ok h
    obtain ⟨⟨m, l2⟩, hm, h⟩ := decode_bind_ok h
    obtain ⟨⟨d, l3⟩, hd, h⟩ := decode_bind_ok h
    obtain ⟨hw, rfl, rfl⟩ := checked_ok h
    exact ⟨rfl, hw, by simp [encode, byte_eq_of_toNat hc, takeWord_ok hy, takeBits_ok (by decide) hm,
      takeBits_ok (by decide) hd]⟩
  case h_8 hc =>
    obtain ⟨y, mo, d, hh, mi, s, rfl, rfl⟩ := takeCalendar_ok h
    exact ⟨rfl, rfl, by rw [byte_eq_of_toNat hc]; rfl⟩
  case h_9 hc =>
    obtain ⟨⟨image, l1⟩, himage, h⟩ := decode_bind_ok h
    cases h
    exact ⟨rfl, rfl, by simp [encode, byte_eq_of_toNat hc, takeBytes_ok himage]⟩
  case h_6 hc | h_10 hc | h_11 hc =>
    obtain ⟨⟨a, l1⟩, ha, h⟩ := decode_bind_ok h
    obtain ⟨⟨b, l2⟩, hb, h⟩ := decode_bind_ok h
    cases h
    exact ⟨rfl, rfl, by simp [encode, byte_eq_of_toNat hc, takeBits_ok (by decide) ha, takeBits_ok (by decide) hb]⟩
  case h_12 hc =>
    obtain ⟨⟨c, l1⟩, hcmd, h⟩ := decode_bind_ok h
    obtain ⟨⟨n, l2⟩, hn, h⟩ := decode_bind_ok h
    obtain ⟨⟨data, l3⟩, hdata, h⟩ := decode_bind_ok h
    cases h
    exact ⟨rfl, rfl, by simp [encode, byte_eq_of_toNat hc, takeBits_ok (by decide) hcmd, takeBits_ok (by decide) hn,
      takeBytes_ok hdata]⟩
  case h_13 => cases h

/-- Format P (30_encoding.md R112); RD decodes for IO only. -/
theorem pinEvent_ok {code : Byte} {l rest : List Byte} {i : Instr}
    (h : Decode.pinEvent code.toNat l = .ok (i, rest)) : Spells .p (code :: l) i rest := by
  unfold Decode.pinEvent at h
  split at h
  case h_1 hc =>
    obtain ⟨⟨p, l1⟩, hp, h⟩ := decode_bind_ok h
    obtain ⟨⟨m, l2⟩, hm, h⟩ := decode_bind_ok h
    obtain ⟨⟨u, l3⟩, hu, h⟩ := decode_bind_ok h
    cases h
    exact ⟨rfl, rfl, by simp [encode, byte_eq_of_toNat hc, takePin_ok hp, takeMode_ok hm, takePull_ok hu]⟩
  case h_2 hc =>
    obtain ⟨⟨p, l1⟩, hp, h⟩ := decode_bind_ok h
    obtain ⟨⟨v, l2⟩, hv, h⟩ := decode_bind_ok h
    cases h
    exact ⟨rfl, rfl, by simp [encode, byte_eq_of_toNat hc, takePin_ok hp, takeLevel_ok hv]⟩
  case h_3 hc =>
    obtain ⟨⟨p, l1⟩, hp, h⟩ := decode_bind_ok h
    obtain ⟨hw, rfl, rfl⟩ := checked_ok h
    exact ⟨rfl, hw, by simp [encode, byte_eq_of_toNat hc, takePin_ok hp]⟩
  case h_4 hc =>
    obtain ⟨⟨t, l1⟩, ht, h⟩ := decode_bind_ok h
    cases h
    exact ⟨rfl, rfl, by simp [encode, byte_eq_of_toNat hc, takeWord_ok ht]⟩
  case h_5 hc =>
    obtain ⟨⟨p, l1⟩, hp, h⟩ := decode_bind_ok h
    cases h
    exact ⟨rfl, rfl, by simp [encode, byte_eq_of_toNat hc, takePin_ok hp]⟩
  case h_6 => cases h

/-- Everything that decodes, of every format. -/
theorem decode_ok {f : Format} {bytes rest : List Byte} {i : Instr} (h : decode f bytes = .ok (i, rest)) :
    Spells f bytes i rest ∨ (f = .h ∧ SpellsInitOrder3 bytes i rest) := by
  cases bytes with
  | nil => cases h
  | cons code l =>
    cases f with
    | h => exact (host_ok h).imp_right fun h3 => ⟨rfl, h3⟩
    | w => exact .inl (wire_ok h)
    | u => exact .inl (micro_ok h)
    | p => exact .inl (pinEvent_ok h)

/-- Settles O9: `decode_ok`; an INIT is of format H and well formed, however its order was spelled. -/
theorem decodeSound : Obligations.DecodeSound := by
  intro f bytes i rest h
  rcases decode_ok h with ⟨hf, hw, hb⟩ | ⟨rfl, h3⟩
  · exact ⟨hf, hw, .inl hb⟩
  · obtain ⟨clkId, ioId, ceId, clkDelay, settleDelay, pull, rfl, hb⟩ := h3
    exact ⟨rfl, rfl, .inr ⟨clkId, ioId, ceId, clkDelay, settleDelay, pull, rfl, hb⟩⟩

end Sys2Proof

namespace Sys2Proof.Machine

/-! ### The step's answer to a request -/

/-- An idle engine, no reset pending, with `r` presented next (30_encoding.md R111). -/
structure Presented (s : State) (r : Request) (rest : List Request) : Prop where
  noReset : s.port.resetIn = none
  notBusy : s.status.busy = false
  noOp : s.seq.op = none
  requests : s.port.requests = r :: rest

section
variable {s : State} {r : Request} {rest : List Request}

theorem Presented.idle (h : Presented s r rest) : s.idle = true := by
  simp [State.idle, h.notBusy, h.noOp]

theorem Presented.withReset_eq (h : Presented s r rest) (o : Host.Outcome State Fault Refusal) :
    withReset s.takeRequest o = o := by
  simp [withReset, h.noReset]

theorem Presented.takeRequest_eq (h : Presented s r rest) :
    s.takeRequest = { s with port := { s.port with requests := rest } } := by
  simp [State.takeRequest, h.requests]

/-- The operation the request decodes to is run (45_driver_operations.md R209). -/
theorem Presented.step_operation (h : Presented s r rest) (ht : r.format = .h ∨ s.port.direct = true) {i : Instr}
    {extra : List Byte} (hd : decode r.format r.bytes = .ok (i, extra)) : step s = exec i s.takeRequest := by
  simp [step, h.noReset, h.idle, h.requests, Port.takes, ht, hd, h.withReset_eq]

/-- A request of a format the port takes that is no operation is rejected (30_encoding.md R113). -/
theorem Presented.step_reject (h : Presented s r rest) (ht : r.format = .h ∨ s.port.direct = true) {e : DecodeError}
    (hd : decode r.format r.bytes = .error e) : step s = rejectRequest e s.takeRequest := by
  simp [step, h.noReset, h.idle, h.requests, Port.takes, ht, hd, h.withReset_eq]

/-- The host can ask for format H only (30_encoding.md R100, R112). -/
theorem Presented.step_notForTheHost (h : Presented s r rest) (hf : r.format ≠ .h) (hp : s.port.direct = false) :
    step s = .refused .notForTheHost := by
  simp [step, h.noReset, h.idle, h.requests, Port.takes, hf, hp]

end

/-- Settles O4: `Presented.step_operation`. -/
theorem stepRunsRequest : Obligations.StepRunsRequest := by
  intro s r rest i extra hres hbusy hop hreq ht hd
  have h : Presented s r rest := ⟨hres, hbusy, hop, hreq⟩
  rw [h.step_operation ht hd, h.takeRequest_eq]

/-! ### Codes that name no operation -/

theorem decode_illegalHostCode {c : Byte} (h : c = 0 ∨ c = 7) (l : List Byte) :
    decode .h (c :: l) = .error .illegalHostCode := by
  rcases h with rfl | rfl <;> rfl

theorem decode_hostCodeTooWide {c : Byte} (h : 7 < c.toNat) (l : List Byte) :
    decode .h (c :: l) = .error .hostCodeTooWide := by
  simp only [decode, Decode.host]
  split
  case h_9 => rfl
  all_goals omega

theorem decode_unknownCommandByte {c : Byte} (h : c ∉ [0x8E, 0x90, 0xBE, 0xBF, 0xFE, 0xFF]) (l : List Byte) :
    decode .w (c :: l) = .error .unknownCommandByte := by
  simp only [decode, Decode.wire]
  split
  case h_7 => rfl
  all_goals next hc => simp [byte_eq_of_toNat hc] at h

theorem decode_unassignedMicroOperation {c : Byte} (h : 12 ≤ c.toNat) (l : List Byte) :
    decode .u (c :: l) = .error .unassignedMicroOperation := by
  simp only [decode, Decode.micro]
  split
  case h_13 => rfl
  all_goals omega

theorem decode_unassignedPinEvent {c : Byte} (h : 5 ≤ c.toNat) (l : List Byte) :
    decode .p (c :: l) = .error .unassignedPinEvent := by
  simp only [decode, Decode.pinEvent]
  split
  case h_6 => rfl
  all_goals omega

/-- Settles O5: per clause, why the code names no operation, and how the step rejects it. -/
theorem stepRejectsUnassigned : Obligations.StepRejectsUnassigned := by
  intro s f c l rest hres hbusy hop hreq
  have h : Presented s _ rest := ⟨hres, hbusy, hop, hreq⟩
  refine ⟨?illegal, ?wide, fun hf hp => h.step_notForTheHost hf hp,
    fun hp => ⟨?command, ?micro, ?pinEvent⟩⟩
  case illegal =>
    rintro rfl hc
    rw [h.step_reject (.inl rfl) (decode_illegalHostCode hc l), h.takeRequest_eq]
    rfl
  case wide => rintro rfl hc; exact h.step_reject (.inl rfl) (decode_hostCodeTooWide hc l)
  case command => rintro rfl hc; exact h.step_reject (.inr hp) (decode_unknownCommandByte hc l)
  case micro => rintro rfl hc; exact h.step_reject (.inr hp) (decode_unassignedMicroOperation hc l)
  case pinEvent => rintro rfl hc; exact h.step_reject (.inr hp) (decode_unassignedPinEvent hc l)

/-! ### Operations asked for by themselves -/

theorem EngineError.code_ne_zero (e : EngineError) : e.code ≠ 0 := by cases e <;> simp [EngineError.code]

/-- Settles O39: an operation that does not fail has succeeded, and INIT and CLOSE, which write `drv` and `cfg`, are
host operations (`exec_ended`). -/
theorem operationsAskedForByThemselves : Obligations.OperationsAskedForByThemselves := by
  intro i s t r hi hx hresp herr
  have failed {e : EngineError} {u : State} (ht : t = refusedWith e u) : False := by
    subst ht
    cases hresp
    exact e.code_ne_zero herr
  cases exec_ended hx with
  | refused e _ ht => exact (failed ht).elim
  | malformed e u _ ht => exact (failed ht).elim
  | done v hr hq hd hc hs =>
    cases hr.symm.trans hresp
    obtain ⟨hstatus, hport⟩ := hs hi
    have hdrv : t.drv = s.drv := by
      rcases hd with hd | ⟨rfl, -⟩ | ⟨_, _, _, _, _, _, _, rfl, -⟩
      · exact hd
      · exact absurd rfl hi
      · exact absurd rfl hi
    have hcfg : t.cfg = s.cfg := by
      rcases hc with hc | ⟨_, _, _, _, _, _, _, rfl, -⟩
      · exact hc
      · exact absurd rfl hi
    exact ⟨rfl, hstatus, hq, hdrv, hcfg, hport⟩

/-! ### Images and their masks -/

/-- A byte below `2 ^ k` has no bit from `k` on. -/
theorem and_high_mask_eq_zero {b : Byte} {k : Nat} (h : b.toNat < 2 ^ k) : b &&& (BitVec.allOnes 8 <<< k) = 0 := by
  ext j hj
  by_cases hjk : j < k
  · simp [hjk]
  · have hlt : b.toNat < 2 ^ j := h.trans_le (Nat.pow_le_pow_right (by decide) (not_lt.mp hjk))
    simp [BitVec.getElem_eq_testBit_toNat, Nat.testBit_lt_two_pow hlt]

/-- No byte has a bit outside the mask of its field, and the weekday is 0 to 6 (30_encoding.md R104, R105). -/
def InsideMasks (img : Vector Byte 7) : Prop :=
  img[0] &&& 0x80 = 0 ∧ img[1] &&& 0x80 = 0 ∧ img[2] &&& 0xC0 = 0 ∧ img[3] &&& 0xC0 = 0 ∧ img[4] &&& 0xE0 = 0 ∧
    img[5].toNat ≤ 6 ∧ img[6].toNat ≤ 0x99

/-- Within the bounds of BCD_ENCODE, a field's tens digit is inside its mask. -/
theorem insideMasks_encodeImage {y m d h mi s : Nat} (hb : InBounds y m d h mi s) :
    InsideMasks (encodeImage y m d h mi s) := by
  have hdays := daysInMonth_le y m
  have hbytes := encodeImage_bytes hb
  have hdow := dayOfWeek_lt y m d
  obtain ⟨⟨hy, hy'⟩, ⟨-, hm⟩, ⟨-, hd⟩, hh, hmi, hs⟩ := hb
  simp only [encodeImage_toList, List.map_cons, List.map_nil, List.cons.injEq, and_true] at hbytes
  obtain ⟨b0, b1, b2, b3, b4, b5, b6⟩ := hbytes
  refine ⟨?_, ?_, ?_, ?_, ?_, ?_, ?_⟩
  · exact and_high_mask_eq_zero (k := 7) (b0.trans_lt (by omega))
  · exact and_high_mask_eq_zero (k := 7) (b1.trans_lt (by omega))
  · exact and_high_mask_eq_zero (k := 6) (b2.trans_lt (by omega))
  · exact and_high_mask_eq_zero (k := 6) (b3.trans_lt (by omega))
  · exact and_high_mask_eq_zero (k := 5) (b4.trans_lt (by omega))
  · exact b5.trans_le (by omega)
  · exact b6.trans_le (by omega)

/-- Settles O29: a BCD_ENCODE that answers no error has written `encodeImage` of fields inside the bounds. -/
theorem encodedBytesInsideMasks : Obligations.EncodedBytesInsideMasks := by
  intro y mo d h mi sec s t r hx hresp herr
  simp only [exec] at hx
  cases hb : encodeBounds y.toNat mo.toNat d.toNat h.toNat mi.toNat sec.toNat with
  | none =>
    rw [execBcdEncode_ok s hb] at hx
    cases next_inj hx
    cases hresp
    exact ⟨rfl, insideMasks_encodeImage (encodeBounds_none.mp hb)⟩
  | some f =>
    rw [execBcdEncode_error s hb] at hx
    cases next_inj hx
    cases hresp
    exact absurd herr (EngineError.range f).code_ne_zero

/-- The images agree in the decoded fields, inside each tens mask and units nibble (30_encoding.md R104, R105). -/
def AgreeInsideMasks (a b : Vector Byte 7) : Prop :=
  ∀ f ∈ decodedFields, imageByte a f &&& (f.tensMask ||| 0x0F) = imageByte b f &&& (f.tensMask ||| 0x0F)

/-- BCD_UNPACK looks at a byte inside the mask and the units nibble only (43_bcd_codec.md R161). -/
theorem digits_of_agree {x y m : Byte} (h : x &&& (m ||| 0x0F) = y &&& (m ||| 0x0F)) :
    tensDigit x m = tensDigit y m ∧ unitsDigit x = unitsDigit y := by
  have inside (k : Byte) (hk : (m ||| 0x0F) &&& k = k) : x &&& k = y &&& k := by
    rw [← hk, ← BitVec.and_assoc, h, BitVec.and_assoc]
  have htens : x &&& m = y &&& m := inside m (by ext j hj; simp +contextual)
  have hunits : x &&& 0x0F = y &&& 0x0F := inside 0x0F (by ext j hj; simp +contextual)
  exact ⟨by rw [tensDigit, tensDigit, htens], by rw [unitsDigit, unitsDigit, hunits]⟩

/-- BCD_DECODE reads an image through the digits of its decoded fields (43_bcd_codec.md R166). -/
theorem AgreeInsideMasks.bcdDecode_eq {a b : Vector Byte 7} (h : AgreeInsideMasks a b) : bcdDecode a = bcdDecode b := by
  have hvalid : firstBadDigit a = firstBadDigit b := by
    refine List.find?_congr fun f hf => ?_
    obtain ⟨htens, hunits⟩ := digits_of_agree (h f hf)
    simp only [digitsValid, htens, hunits]
  have hvalue (f : ImgIndex) (hf : f ∈ decodedFields) : imageValue a f = imageValue b f := by
    obtain ⟨htens, hunits⟩ := digits_of_agree (h f hf)
    simp only [imageValue, bcdValue, htens, hunits]
  simp only [bcdDecode, imageCalendar, hvalid, hvalue .second (by decide), hvalue .minute (by decide),
    hvalue .hour (by decide), hvalue .day (by decide), hvalue .month (by decide), hvalue .year (by decide)]

/-- Settles O30: the masks of the statement are those of the decoded fields, and all of the year's byte. -/
theorem decodeIgnoresOutsideMasks : Obligations.DecodeIgnoresOutsideMasks := by
  intro a b s h0 h1 h2 h3 h4 h6
  have h : AgreeInsideMasks a b := by
    simp only [AgreeInsideMasks, decodedFields, List.forall_mem_cons, List.not_mem_nil, false_implies, implies_true,
      and_true]
    exact ⟨h0, h1, h2, h3, h4, congrArg (· &&& _) h6⟩
  simp only [exec, execBcdDecode, h.bcdDecode_eq]

end Sys2Proof.Machine
end

section
/-! PROOFS. 40_pin_primitives.md: the pin events asked for by themselves (R131 to R135). What the environment makes of
an event or a sample is said first, then what each pin event makes of the whole state, then the obligations. -/

namespace Sys2Proof.Machine

/-! ### The environment of one event -/

/-- With or without a peripheral, every event but a write to CLK or CE leaves its trace only (20_memory.md R82). -/
theorem Env.see_eq_record {ev : PinEvent} (hw : ∀ l, ev ≠ .wr .clk l ∧ ev ≠ .wr .ce l) (r : PinRegs) (e : Env) :
    e.see r ev = e.record ev := by
  cases h : e.periph with
  | none => exact Env.see_none h r ev
  | some p => rw [Env.see_ignored h r ev hw, Env.with, Env.record, ← h]

/-- A draw takes the next level the environment has fixed (20_memory.md R75). -/
theorem Env.draw_of_answers {e : Env} {l : Level} {rest : List Level} (h : e.answers = l :: rest) :
    e.draw = (l, { e with answers := rest }) := by
  simp [Env.draw, h]

/-- The level the peripheral drives on IO is the level sampled there (20_memory.md R89). -/
theorem Env.sample_of_out {e : Env} {q : Periph} {l : Level} (hp : e.periph = some q) (ho : q.out = some l)
    (r : PinRegs) : e.sample r .io = (l, e) := by
  simp [Env.sample, hp, ho]

/-! ### The state after one event -/

/-- An event that is no write to CLK or CE: the pins and the trace, nothing else. -/
theorem deliver_emit_eq {ev : PinEvent} (hw : ∀ l, ev ≠ .wr .clk l ∧ ev ≠ .wr .ce l) (v : Value) (s : State) :
    (s.emit ev).deliver v = answeredWith v { s with pin := s.pin.apply ev, env := s.env.record ev } := by
  rw [← Env.see_eq_record hw (s.pin.apply ev), deliver_eq]
  rfl

theorem exec_dir (p : Pin) (m : PinMode) (u : Pull) (s : State) :
    exec (.dir p m u) s = .next (answeredWith .none { s with
      pin := s.pin.apply (.dir p m u), env := s.env.record (.dir p m u) }) :=
  congrArg _ (deliver_emit_eq (by simp) .none s)

theorem exec_rel (p : Pin) (s : State) :
    exec (.rel p) s = .next (answeredWith .none { s with
      pin := s.pin.apply (.rel p), env := s.env.record (.rel p) }) :=
  congrArg _ (deliver_emit_eq (by simp) .none s)

theorem exec_dly (d : BitVec 16) (s : State) :
    exec (.dly d) s = .next (answeredWith .none { s with env := s.env.record (.dly d) }) :=
  congrArg _ (deliver_emit_eq (by simp) .none s)

theorem exec_wr (p : Pin) (l : Level) (s : State) :
    exec (.wr p l) s = .next (answeredWith .none { s with
      pin := s.pin.apply (.wr p l), env := s.env.see (s.pin.apply (.wr p l)) (.wr p l) }) := rfl

theorem exec_rd (p : Pin) (s : State) :
    exec (.rd p) s = .next (answeredWith (.level (s.env.sample s.pin p).1) { s with
      env := (s.env.sample s.pin p).2.record (.rd p (s.env.sample s.pin p).1) }) := rfl

/-! ### The obligations -/

/-- Settles O10: `exec_dir` and `exec_rel`, with `PinRegs.apply` read off pin by pin. -/
theorem pinDirectionEvents : Obligations.PinDirectionEvents := fun m u s =>
  ⟨exec_dir .clk m u s, exec_dir .ce m u s, exec_dir .io m u s, exec_rel .clk s, exec_rel .ce s, exec_rel .io s⟩

/-- Settles O11: `exec_wr`; a write to IO reaches no peripheral (`Env.see_eq_record`). -/
theorem pinWriteEvents : Obligations.PinWriteEvents := by
  intro p l s pin
  have hpin : pin = s.pin.apply (.wr p l) := by cases p <;> rfl
  refine ⟨hpin ▸ exec_wr p l s, Env.see_trace .., Env.see_validPins .., ?_⟩
  rintro (h | rfl)
  · exact Env.see_none h pin _
  · exact Env.see_eq_record (by simp) pin s.env

/-- Settles O12: the level and the environment are those of `Env.sample`; the two clauses that name the level are
`Env.draw_of_answers` and `Env.sample_of_out`. -/
theorem pinReadEvents : Obligations.PinReadEvents := by
  intro p s
  refine ⟨(s.env.sample s.pin p).1, (s.env.sample s.pin p).2.record (.rd p (s.env.sample s.pin p).1),
    by simp, by simp, by simp, ?fixed, ?driven, exec_rd p s⟩
  case fixed =>
    intro a rest hp ha
    rw [Env.sample_none hp, Env.draw_of_answers ha]
    exact ⟨rfl, rfl⟩
  case driven =>
    rintro q a rfl hp ho
    rw [Env.sample_of_out hp ho]
    exact ⟨rfl, rfl⟩

/-- Settles O13: `exec_dly`. -/
theorem pinDelayEvent : Obligations.PinDelayEvent := exec_dly

end Sys2Proof.Machine
end

section
/-! PROOFS. 41_framing.md: TX_OPEN and TX_CLOSE (R140, R143), and that no result depends on the configuration (R141).
The latter is a simulation: `State.Agree` relates two states that differ in the configuration, the pull of IO and the
trace, each operation of the model keeps it, and the obligation reads it off the outcomes. -/

namespace Sys2Proof.Machine

/-! ### Framing -/

theorem execTxOpen_nested {s : State} (h : s.tx = .opened) :
    execTxOpen s = .next (refusedWith (.usage .nestedOpen) s) := by
  rw [execTxOpen, txOpen_nested h]
  rfl

/-! ### Agreement of environments -/

/-- No peripheral on the lines, and the same but for the trace. -/
structure Env.Agree (e f : Env) : Prop where
  answers : e.answers = f.answers
  drawn : e.drawn = f.drawn
  validPins : e.validPins = f.validPins
  periph : e.periph = none
  periph' : f.periph = none

theorem Env.Agree.record {e f : Env} (h : e.Agree f) (a b : PinEvent) : (e.record a).Agree (f.record b) := { h with }

theorem Env.Agree.see {e f : Env} (h : e.Agree f) (r q : PinRegs) (a b : PinEvent) :
    (e.see r a).Agree (f.see q b) := by
  rw [Env.see_none h.periph, Env.see_none h.periph']
  exact h.record a b

theorem Env.Agree.seeAll {e f : Env} (h : e.Agree f) (r q : PinRegs) (a b : List PinEvent) :
    (e.seeAll r a).Agree (f.seeAll q b) := by
  rw [Env.seeAll_none h.periph, Env.seeAll_none h.periph']
  exact { h with }

/-- The same value, with related environments or states left. -/
def SameValue {α σ : Type} (R : σ → σ → Prop) (p q : α × σ) : Prop := p.1 = q.1 ∧ R p.2 q.2

/-- A draw looks at the answers fixed and the counter only (20_memory.md R75). -/
theorem Env.Agree.draw {e f : Env} (h : e.Agree f) : SameValue Env.Agree e.draw f.draw := by
  unfold Env.draw
  rw [← h.answers]
  split
  · exact ⟨rfl, { h with answers := rfl }⟩
  · exact ⟨congrArg Config.draw h.drawn, { h with answers := rfl, drawn := congrArg (· + 1) h.drawn }⟩

/-- Every sample is a draw, whatever the pins. -/
theorem Env.Agree.sample {e f : Env} (h : e.Agree f) (r q : PinRegs) (p : Pin) :
    SameValue Env.Agree (e.sample r p) (f.sample q p) := by
  rw [Env.sample_none h.periph, Env.sample_none h.periph']
  exact h.draw

section
variable {e f : Env} (r q : PinRegs) (d d' : BitVec 16) (u u' : Pull)

theorem Env.Agree.readBit (h : e.Agree f) : SameValue Env.Agree (e.readBit r d) (f.readBit q d') := by
  obtain ⟨hl, he⟩ := (h.seeAll r q (readPulseEvents d) (readPulseEvents d')).sample
    (r.applyAll (readPulseEvents d)) (q.applyAll (readPulseEvents d')) .io
  exact ⟨hl, he.record _ _⟩

theorem Env.Agree.readBits (n : Nat) (h : e.Agree f) : SameValue Env.Agree (e.readBits d n r) (f.readBits d' n q) := by
  induction n generalizing e f r q with
  | zero => exact ⟨rfl, h⟩
  | succ n ih =>
    obtain ⟨hl, he⟩ := h.readBit r q d d'
    obtain ⟨hls, hes⟩ := ih { r with clkO := .low } { q with clkO := .low } he
    exact ⟨congrArg₂ List.cons hl hls, hes⟩

theorem Env.Agree.readByte (h : e.Agree f) : SameValue Env.Agree (e.readByte d u r) (f.readByte d' u' q) := by
  obtain ⟨hls, he⟩ := (h.see { r with ioDir := .input, ioPull := u } { q with ioDir := .input, ioPull := u' }
    (.dir .io .input u) (.dir .io .input u')).readBits
      { r with ioDir := .input, ioPull := u } { q with ioDir := .input, ioPull := u' } d d' 8
  exact ⟨congrArg (levelsAt 0) hls, he⟩

theorem Env.Agree.readBytes (n : Nat) (h : e.Agree f) :
    SameValue Env.Agree (e.readBytes d u n r) (f.readBytes d' u' n q) := by
  induction n generalizing e f r q with
  | zero => exact ⟨rfl, h⟩
  | succ n ih =>
    obtain ⟨hb, he⟩ := h.readByte r q d d' u u'
    obtain ⟨hbs, hes⟩ := ih { r with ioDir := .input, ioPull := u, clkO := .low }
      { q with ioDir := .input, ioPull := u', clkO := .low } he
    exact ⟨congrArg₂ List.cons hb hbs, hes⟩

/-- A read frame returns the bytes the environment answers, whatever the configuration. -/
theorem Env.Agree.frameRead (cfg cfg' : Cfg) (c : Byte) (n : Nat) (h : e.Agree f) :
    SameValue Env.Agree (e.frameRead cfg c n r) (f.frameRead cfg' c n q) := by
  obtain ⟨hbs, he⟩ := (h.seeAll r q (txOpenEvents cfg ++ writeByteEvents cfg.clkDelay c)
    (txOpenEvents cfg' ++ writeByteEvents cfg'.clkDelay c)).readBytes _ _ _ _ _ _ n
  exact ⟨hbs, he.seeAll _ _ _ _⟩

end

/-! ### Agreement of states -/

/-- The same but for the direction and the pull of IO. -/
structure PinRegs.AgreeButIo (r q : PinRegs) : Prop where
  clkDir : r.clkDir = q.clkDir
  clkO : r.clkO = q.clkO
  ceDir : r.ceDir = q.ceDir
  ceO : r.ceO = q.ceO
  ioO : r.ioO = q.ioO

/-- The same but for the configuration, the direction and the pull of IO, and the trace; no peripheral on the lines. -/
structure State.AgreeButIo (s t : State) : Prop where
  drv : s.drv = t.drv
  tx : s.tx = t.tx
  x : s.x = t.x
  buf : s.buf = t.buf
  status : s.status = t.status
  seq : s.seq = t.seq
  port : s.port = t.port
  resp : s.resp = t.resp
  pin : s.pin.AgreeButIo t.pin
  env : s.env.Agree t.env

/-- The same but for the configuration, the pull of IO and the trace; no peripheral on the lines. -/
structure State.Agree (s t : State) : Prop extends State.AgreeButIo s t where
  ioDir : s.pin.ioDir = t.pin.ioDir

theorem PinRegs.AgreeButIo.apply {r q : PinRegs} (h : r.AgreeButIo q) (ev : PinEvent) :
    (r.apply ev).AgreeButIo (q.apply ev) :=
  match ev with
  | .dir .clk _ _ | .rel .clk => { h with clkDir := rfl }
  | .dir .ce _ _ | .rel .ce => { h with ceDir := rfl }
  | .wr .clk _ => { h with clkO := rfl }
  | .wr .ce _ => { h with ceO := rfl }
  | .wr .io _ => { h with ioO := rfl }
  | .dir .io _ _ | .rel .io | .rd _ _ | .dly _ => { h with }

theorem PinRegs.AgreeButIo.closed {r q : PinRegs} (h : r.AgreeButIo q) (u u' : Pull) (l : Level) :
    (r.closed u l).AgreeButIo (q.closed u' l) := { h with clkO := rfl, ceO := rfl, ioO := rfl }

theorem PinRegs.apply_ioDir_congr {r q : PinRegs} (h : r.ioDir = q.ioDir) (ev : PinEvent) :
    (r.apply ev).ioDir = (q.apply ev).ioDir :=
  match ev with
  | .dir .io _ _ | .rel .io => rfl
  | .dir .clk _ _ | .dir .ce _ _ | .wr .clk _ | .wr .ce _ | .wr .io _ | .rd _ _ | .dly _ | .rel .clk | .rel .ce => h

/-- The configuration alone makes no difference to agreement. -/
theorem State.agree_cfg {s : State} (h : s.env.periph = none) (c : Cfg) : State.Agree { s with cfg := c } s :=
  ⟨⟨rfl, rfl, rfl, rfl, rfl, rfl, rfl, rfl, ⟨rfl, rfl, rfl, rfl, rfl⟩, ⟨rfl, rfl, rfl, h, h⟩⟩, rfl⟩

section
variable {s t : State} (h : s.Agree t)
include h

/-- The same event keeps agreement; TX_OPEN and the frames, whose events depend on the configuration, are taken whole
below. -/
theorem State.Agree.emit (ev : PinEvent) : (s.emit ev).Agree (t.emit ev) :=
  { h with
    pin := h.pin.apply ev
    env := h.env.see _ _ _ _
    seq := congrArg Seq.advance h.seq
    ioDir := PinRegs.apply_ioDir_congr h.ioDir ev }

theorem State.Agree.emitAll (evs : List PinEvent) : (s.emitAll evs).Agree (t.emitAll evs) := by
  induction evs generalizing s t with
  | nil => exact h
  | cons ev evs ih => exact ih (h.emit ev)

theorem State.Agree.atPhase (p : Phase) : (s.atPhase p).Agree (t.atPhase p) :=
  { h with seq := congrArg (fun q : Seq => { q with phase := some p, sub := 0 }) h.seq }

theorem State.Agree.setImg (image : Vector Byte 7) : (s.setImg image).Agree (t.setImg image) :=
  { h with buf := congrArg (fun b : Buffers => { b with img := image }) h.buf }

theorem State.Agree.setCal (c : Calendar) : (s.setCal c).Agree (t.setCal c) :=
  { h with buf := congrArg (fun b : Buffers => { b with cal := c }) h.buf }

theorem State.Agree.loadRam (bytes : List Byte) : (s.loadRam bytes).Agree (t.loadRam bytes) :=
  { h with buf := congrArg (fun b : Buffers => { b with ram := loadFront b.ram bytes }) h.buf }

theorem State.Agree.accept (op : HostOp) : (s.accept op).Agree (t.accept op) :=
  { h with status := congrArg (fun q : Status => { q with busy := true }) h.status, seq := rfl }

theorem State.Agree.raise (e : EngineError) : (s.raise e).Agree (t.raise e) :=
  { h with status := rfl, seq := rfl, resp := rfl }

theorem State.Agree.respond (v : Value) : (s.respond v).Agree (t.respond v) :=
  { h with status := rfl, seq := rfl, resp := rfl }

theorem State.Agree.deliver (v : Value) : (s.deliver v).Agree (t.deliver v) :=
  { h with seq := rfl, resp := rfl }

theorem State.Agree.readyGate_eq : readyGate s = readyGate t := by
  unfold readyGate
  rw [h.drv, h.tx]

theorem State.Agree.initGate_eq (a b c : PinId) : initGate a b c s = initGate a b c t := by
  unfold initGate pinValid
  rw [h.drv, h.tx, h.env.validPins]

end

/-! ### Agreement of results -/

/-- The same error, or related results. -/
inductive SameResult {α : Type} (R : α → α → Prop) : Except EngineError α → Except EngineError α → Prop
  | ok {a b : α} (h : R a b) : SameResult R (.ok a) (.ok b)
  | error (e : EngineError) : SameResult R (.error e) (.error e)

theorem SameResult.map {α β : Type} {R : α → α → Prop} {S : β → β → Prop} {x y : Except EngineError α} {f g : α → β}
    (h : SameResult R x y) (hf : ∀ a b, R a b → S (f a) (g b)) : SameResult S (x.map f) (y.map g) := by
  cases h with
  | ok h => exact .ok (hf _ _ h)
  | error e => exact .error e

theorem SameResult.bind {α β : Type} {R : α → α → Prop} {S : β → β → Prop} {x y : Except EngineError α}
    {f g : α → Except EngineError β} (h : SameResult R x y) (hf : ∀ a b, R a b → SameResult S (f a) (g b)) :
    SameResult S (x >>= f) (y >>= g) := by
  cases h with
  | ok h => exact hf _ _ h
  | error e => exact .error e

theorem SameResult.refl {α : Type} (x : Except EngineError α) : SameResult Eq x x := by
  cases x with
  | ok a => exact .ok rfl
  | error e => exact .error e

/-- What an operation hands to its end: agreeing states, the same value. -/
def State.SameEnd (p q : State × Value) : Prop := p.1.Agree q.1 ∧ p.2 = q.2

/-- Next states related by `R`, or the same refusal. -/
inductive SameOutcome (R : State → State → Prop) :
    Host.Outcome State Fault Refusal → Host.Outcome State Fault Refusal → Prop
  | next {s t : State} (h : R s t) : SameOutcome R (.next s) (.next t)
  | refused (r : Refusal) : SameOutcome R (.refused r) (.refused r)

theorem SameOutcome.exists_next {R : State → State → Prop} {o : Host.Outcome State Fault Refusal} {t : State}
    (h : SameOutcome R o (.next t)) : ∃ s, o = .next s ∧ R s t := by
  cases h with
  | next h => exact ⟨_, rfl, h⟩

section
variable {s t : State} (h : s.Agree t)
include h

theorem State.Agree.endOperation {x y : Except EngineError (State × Value)} (hr : SameResult State.SameEnd x y) :
    SameOutcome State.Agree (endOperation s x) (endOperation t y) := by
  cases hr with
  | error e => exact .next (h.raise e)
  | ok hpq =>
    obtain ⟨hstate, hvalue⟩ := hpq
    exact .next (hvalue ▸ hstate.deliver _)

theorem State.Agree.endHostOp {x y : Except EngineError (State × Value)} (hr : SameResult State.SameEnd x y) :
    SameOutcome State.Agree (endHostOp s x) (endHostOp t y) := by
  cases hr with
  | error e => exact .next (h.raise e)
  | ok hpq =>
    obtain ⟨hstate, hvalue⟩ := hpq
    exact .next (hvalue ▸ hstate.respond _)

/-! ### Framing, bytes and frames -/

theorem State.Agree.emitRead (p : Pin) : SameValue State.Agree (s.emitRead p) (t.emitRead p) := by
  obtain ⟨hl, he⟩ := h.env.sample s.pin t.pin p
  exact ⟨hl, { h with env := he.record _ _, seq := congrArg Seq.advance h.seq }⟩

theorem State.Agree.txClose : (txClose s).Agree (txClose t) := by
  rw [txClose_eq, txClose_eq, applyAll_txCloseEvents, applyAll_txCloseEvents, h.pin.ioO]
  exact { h with
    tx := rfl
    pin := h.pin.closed _ _ _
    env := h.env.seeAll _ _ _ _
    seq := by rw [h.seq]
    ioDir := rfl }

/-- The data-line reset of TX_OPEN sets the direction of IO (41_framing.md R140): it may differ afterwards. -/
theorem State.Agree.execTxOpen : SameOutcome State.AgreeButIo (execTxOpen s) (execTxOpen t) := by
  cases ht : t.tx with
  | opened =>
    rw [execTxOpen_nested ht, execTxOpen_nested (h.tx.trans ht)]
    exact .next (h.raise (.usage .nestedOpen)).toAgreeButIo
  | idle =>
    rw [execTxOpen_ok ht, execTxOpen_ok (h.tx.trans ht), applyAll_txOpenEvents, applyAll_txOpenEvents]
    exact .next { h with
      tx := rfl
      pin := { h.pin with clkO := rfl, ceO := rfl }
      env := h.env.seeAll _ _ _ _
      seq := rfl
      resp := rfl }

theorem State.Agree.writeByte (v : Byte) : SameResult State.Agree (writeByte v s) (writeByte v t) := by
  cases ht : t.tx with
  | idle =>
    rw [writeByte_idle v ht, writeByte_idle v (h.tx.trans ht)]
    exact .error _
  | opened =>
    rw [writeByte_ok v ht, writeByte_ok v (h.tx.trans ht), shiftOut_eq, shiftOut_eq]
    exact .ok { h with
      pin := { h.pin with clkO := rfl, ioO := rfl }
      env := h.env.seeAll _ _ _ _
      x := by rw [h.x]
      seq := by rw [h.seq]
      ioDir := rfl }

theorem State.Agree.readByte : SameResult (SameValue State.Agree) (readByte s) (readByte t) := by
  cases ht : t.tx with
  | idle =>
    rw [readByte_idle ht, readByte_idle (h.tx.trans ht)]
    exact .error _
  | opened =>
    obtain ⟨hv, he⟩ := h.env.readByte s.pin t.pin s.cfg.clkDelay t.cfg.clkDelay s.cfg.ioPull t.cfg.ioPull
    rw [readByte_ok ht, readByte_ok (h.tx.trans ht), shiftIn_eq, shiftIn_eq]
    exact .ok ⟨hv, { h with
      pin := { h.pin with clkO := rfl }
      env := he
      x := by rw [h.x, hv]
      seq := by rw [h.seq]
      ioDir := rfl }⟩

/-- A write frame leaves agreeing states, or is nested in both. -/
theorem State.Agree.burstWrite (c : Byte) (bytes : List Byte) :
    SameResult State.Agree (burstWrite c bytes s) (burstWrite c bytes t) := by
  cases ht : t.tx with
  | opened =>
    rw [burstWrite_nested c bytes ht, burstWrite_nested c bytes (h.tx.trans ht)]
    exact .error _
  | idle =>
    rw [burstWrite_ok c bytes ht, burstWrite_ok c bytes (h.tx.trans ht)]
    exact .ok { h with
      pin := h.pin.closed _ _ _
      env := h.env.seeAll _ _ _ _
      x := rfl
      seq := by rw [h.seq]
      ioDir := rfl }

/-- A read frame returns the same bytes and leaves agreeing states, or is nested in both. -/
theorem State.Agree.burstRead (c : Byte) (n : Nat) :
    SameResult (SameValue State.Agree) (burstRead c n s) (burstRead c n t) := by
  cases ht : t.tx with
  | opened =>
    rw [burstRead_nested c n ht, burstRead_nested c n (h.tx.trans ht)]
    exact .error _
  | idle =>
    obtain ⟨hv, he⟩ := h.env.frameRead s.pin t.pin s.cfg t.cfg c n
    rw [burstRead_ok c n ht, burstRead_ok c n (h.tx.trans ht)]
    exact .ok ⟨hv, { h with
      pin := h.pin.closed _ _ _
      env := he
      x := by rw [hv]
      seq := by rw [h.seq]
      ioDir := rfl }⟩

theorem State.Agree.regWrite (c v : Byte) : SameResult State.Agree (regWrite c v s) (regWrite c v t) := by
  rw [regWrite_eq, regWrite_eq]
  exact h.burstWrite c [v]

theorem State.Agree.clockWrite : SameResult State.Agree (clockWrite s) (clockWrite t) := by
  rw [Machine.clockWrite, Machine.clockWrite, h.buf]
  exact h.burstWrite _ _

theorem State.Agree.ramWrite (len : BitVec 8) : SameResult State.Agree (ramWrite len s) (ramWrite len t) := by
  rw [Machine.ramWrite, Machine.ramWrite, h.buf]
  exact h.burstWrite _ _

theorem State.Agree.clockRead : SameResult State.Agree (clockRead s) (clockRead t) := by
  refine (h.burstRead _ _).bind fun p q ⟨hv, hq⟩ => .ok ?_
  rw [hv, hq.buf]
  exact hq.setImg _

theorem State.Agree.ramRead : SameResult State.Agree (ramRead s) (ramRead t) := by
  refine (h.burstRead _ _).bind fun p q ⟨hv, hq⟩ => .ok ?_
  rw [hv]
  exact hq.loadRam _

/-! ### Operations -/

theorem State.Agree.bcdEncode (y : BitVec 12) (mo : BitVec 4) (d hh : BitVec 5) (mi sec : BitVec 6) :
    SameResult State.Agree (bcdEncode y mo d hh mi sec s) (bcdEncode y mo d hh mi sec t) := by
  cases hb : encodeBounds y.toNat mo.toNat d.toNat hh.toNat mi.toNat sec.toNat with
  | some f =>
    rw [bcdEncode_error s hb, bcdEncode_error t hb]
    exact .error _
  | none =>
    rw [bcdEncode_ok s hb, bcdEncode_ok t hb]
    exact .ok (((h.atPhase _).setImg _).setCal _)

theorem State.Agree.initBody (c c' : Cfg) : SameResult State.Agree (initBody c s) (initBody c' t) := by
  have hset : State.Agree { s with cfg := c } { t with cfg := c' } := { h with }
  exact ((((hset.atPhase _).emitAll _).atPhase _).regWrite _ _).bind fun _ _ h =>
    ((h.atPhase _).regWrite _ _).bind fun _ _ h => .ok { h with drv := rfl }

theorem State.Agree.closeBody : (closeBody s).Agree (closeBody t) := by
  have hopen : (if s.tx = .opened then Machine.txClose s else s).Agree
      (if t.tx = .opened then Machine.txClose t else t) := by
    rw [h.tx]
    split
    · exact h.txClose
    · exact h
  exact { (hopen.atPhase .release).emitAll releaseEvents with drv := rfl }

theorem State.Agree.execInit (a b c : PinId) (d e : BitVec 16) (f : DataResetOrder) (g : Pull) :
    SameOutcome State.Agree (execInit a b c d e f g s) (execInit a b c d e f g t) := by
  refine h.endHostOp ?_
  rw [h.initGate_eq]
  exact (SameResult.refl _).bind fun _ _ _ => ((h.accept _).initBody _ _).bind fun _ _ h => .ok ⟨h, rfl⟩

theorem State.Agree.execReadDatetime : SameOutcome State.Agree (execReadDatetime s) (execReadDatetime t) := by
  have hread : SameResult State.Agree ((readyGate s).bind fun _ => Machine.clockRead (s.accept .readDatetime))
      ((readyGate t).bind fun _ => Machine.clockRead (t.accept .readDatetime)) := by
    rw [h.readyGate_eq]
    exact (SameResult.refl _).bind fun _ _ _ => (h.accept _).clockRead
  unfold Machine.execReadDatetime
  generalize (readyGate s).bind _ = x at hread ⊢
  generalize (readyGate t).bind _ = y at hread ⊢
  cases hread with
  | error e => exact .next (h.raise e)
  | ok hq =>
    dsimp only
    rw [hq.buf]
    exact hq.endHostOp ((SameResult.refl _).map fun _ _ hc => hc ▸ ⟨hq.setCal _, rfl⟩)

theorem State.Agree.execWriteDatetime (y : BitVec 12) (mo : BitVec 4) (d hh : BitVec 5) (mi sec : BitVec 6) :
    SameOutcome State.Agree (execWriteDatetime y mo d hh mi sec s) (execWriteDatetime y mo d hh mi sec t) := by
  refine h.endHostOp ?_
  rw [h.readyGate_eq]
  exact (SameResult.refl _).bind fun _ _ _ => ((h.accept _).bcdEncode ..).bind fun _ _ h =>
    h.clockWrite.bind fun _ _ h => .ok ⟨h, rfl⟩

theorem State.Agree.execReadRam : SameOutcome State.Agree (execReadRam s) (execReadRam t) := by
  refine h.endHostOp ?_
  rw [h.readyGate_eq]
  exact (SameResult.refl _).bind fun _ _ _ => (h.accept _).ramRead.bind fun _ _ h => .ok ⟨h, by rw [h.buf]⟩

theorem State.Agree.execWriteRam (len : BitVec 8) (image : Vector Byte 31) :
    SameOutcome State.Agree (execWriteRam len image s) (execWriteRam len image t) := by
  refine h.endHostOp ?_
  rw [h.readyGate_eq]
  exact (SameResult.refl _).bind fun _ _ _ => (((h.accept _).loadRam _).ramWrite _).bind fun _ _ h => .ok ⟨h, rfl⟩

theorem State.Agree.execClose : SameOutcome State.Agree (execClose s) (execClose t) := by
  unfold Machine.execClose
  rw [h.drv]
  split
  · exact .next (h.respond _)
  · exact .next (h.raise _)
  · exact .next ((h.accept _).closeBody.respond _)

theorem State.Agree.execRd (p : Pin) : SameOutcome State.Agree (execRd p s) (execRd p t) := by
  obtain ⟨hl, hs⟩ := h.emitRead p
  unfold Machine.execRd
  rw [hl]
  exact .next (hs.deliver _)

/-- Every operation but TX_OPEN keeps agreement. -/
theorem State.Agree.exec {i : Instr} (hi : i ≠ .txOpen) : SameOutcome State.Agree (exec i s) (exec i t) := by
  cases i with
  | init a b c d e f g => exact h.execInit a b c d e f g
  | readDatetime => exact h.execReadDatetime
  | writeDatetime y mo d hh mi sec => exact h.execWriteDatetime y mo d hh mi sec
  | readRam => exact h.execReadRam
  | writeRam len image => exact h.execWriteRam len image
  | close => exact h.execClose
  | cmdWp | cmdTcs => exact h.endOperation ((h.regWrite _ _).map fun _ _ h => ⟨h, rfl⟩)
  | cmdClkWr => exact h.endOperation (h.clockWrite.map fun _ _ h => ⟨h, rfl⟩)
  | cmdClkRd => exact h.endOperation (h.clockRead.map fun _ _ h => ⟨h, by rw [h.buf]⟩)
  | cmdRamWr len => exact h.endOperation ((h.ramWrite len).map fun _ _ h => ⟨h, rfl⟩)
  | cmdRamRd => exact h.endOperation (h.ramRead.map fun _ _ h => ⟨h, by rw [h.buf]⟩)
  | txOpen => exact absurd rfl hi
  | txClose => exact .next (h.txClose.deliver _)
  | writeByte v => exact h.endOperation ((h.writeByte v).map fun _ _ h => ⟨h, rfl⟩)
  | readByte => exact h.endOperation (h.readByte.map fun _ _ ⟨hv, h⟩ => ⟨h, by rw [hv]⟩)
  | bcdPack v =>
    simp only [Machine.exec, execBcdPack]
    split
    · exact .next (h.deliver _)
    · exact .refused _
  | bcdUnpack b m => exact .next (h.deliver _)
  | dow y mo d =>
    simp only [Machine.exec, execDow]
    split
    · exact .next (h.deliver _)
    · exact .refused _
  | bcdEncode y mo d hh mi sec =>
    exact h.endOperation ((h.bcdEncode y mo d hh mi sec).map fun _ _ h => ⟨h, by rw [h.buf]⟩)
  | bcdDecode img => exact h.endOperation ((SameResult.refl _).map fun _ _ hc => hc ▸ ⟨h.setCal _, rfl⟩)
  | regWrite c v => exact h.endOperation ((h.regWrite c v).map fun _ _ h => ⟨h, rfl⟩)
  | burstRead c n => exact h.endOperation ((h.burstRead c _).map fun _ _ ⟨hv, h⟩ => ⟨h, by rw [hv]⟩)
  | burstWrite c n data => exact h.endOperation ((h.burstWrite c _).map fun _ _ h => ⟨h, rfl⟩)
  | rd p => exact h.execRd p
  | dir | wr | dly | rel => exact .next ((h.emit _).deliver _)

end

end Sys2Proof.Machine

/-! ### The obligations

In a namespace of their own: `Sys2Proof.Machine.txOpen` and `txClose` are the model's. -/

namespace Sys2Proof.Machine.Framing

/-- Settles O14: `execTxOpen_ok` with the pins of `applyAll_txOpenEvents`, and `execTxOpen_nested`. -/
theorem txOpen : Obligations.TxOpen := fun s =>
  ⟨fun h => ⟨_, execTxOpen_ok h, rfl, applyAll_txOpenEvents s.pin s.cfg, rfl, rfl, rfl, rfl, rfl⟩, execTxOpen_nested⟩

/-- Settles O15: `execTxClose_ok`. -/
theorem txClose : Obligations.TxClose := fun s =>
  ⟨_, execTxClose_ok s, rfl, rfl, rfl, rfl, rfl, rfl, rfl⟩

/-- Settles O56: the two engines agree at the start (`State.agree_cfg`), so they do at the end. -/
theorem resultsIndependentOfConfig : Obligations.ResultsIndependentOfConfig := by
  intro i s t c hp hx
  have h := State.agree_cfg hp c
  obtain ⟨u, hu, ha, hio⟩ :
      ∃ u, exec i { s with cfg := c } = .next u ∧ u.AgreeButIo t ∧ (i ≠ .txOpen → u.pin.ioDir = t.pin.ioDir) := by
    by_cases hi : i = .txOpen
    · subst hi
      have hopen : SameOutcome State.AgreeButIo (exec .txOpen { s with cfg := c }) (exec .txOpen s) := h.execTxOpen
      obtain ⟨u, hu, ha⟩ := (hx ▸ hopen).exists_next
      exact ⟨u, hu, ha, fun hne => absurd rfl hne⟩
    · obtain ⟨u, hu, ha⟩ := (hx ▸ h.exec hi).exists_next
      exact ⟨u, hu, ha.toAgreeButIo, fun _ => ha.ioDir⟩
  exact ⟨u, hu, ha.resp, ha.status, ha.drv, ha.tx, ha.x, ha.buf, ha.seq, ha.port, ha.pin.clkDir, ha.pin.clkO,
    ha.pin.ceDir, ha.pin.ceO, ha.pin.ioO, hio, ha.env.answers, ha.env.drawn, ha.env.validPins,
    ha.env.periph.trans ha.env.periph'.symm⟩

end Sys2Proof.Machine.Framing
end

section
/-! PROOFS. 42_byte_shift.md: WRITE_BYTE and READ_BYTE asked for by themselves (R150, R152, R153) and the bits on IO
(R155). The events of a byte are said bit by bit first, then the operations in Idle, then the obligations. -/

namespace Sys2Proof.Machine

/-! ### The events of a byte, bit by bit -/

theorem writeByteEvents_eq (d : BitVec 16) (v : Byte) :
    writeByteEvents d v = .dir .io .output .none ::
      eightBits.flatMap fun i =>
        [.wr .clk .low, .dly d, .wr .io (lvl (v.getLsbD i)), .wr .clk .high, .dly d] := by
  rw [writeByteEvents, byteLevels, List.flatMap_map]
  rfl

theorem readByteEvents_eq (d : BitVec 16) (u : Pull) (v : Byte) :
    readByteEvents d u v = .dir .io .input u ::
      eightBits.flatMap fun i =>
        [.wr .clk .high, .dly d, .wr .clk .low, .dly d, .rd .io (lvl (v.getLsbD i))] := by
  rw [readByteEvents, byteLevels, List.flatMap_map]
  rfl

/-- Bit `i` weighs `2 ^ i` (20_memory.md R64): each bit is the quotient by its weight, modulo 2. -/
theorem toNat_eq_weighedBits (v : Byte) :
    v.toNat =
      (v.getLsbD 0).toNat * 1 + (v.getLsbD 1).toNat * 2 + (v.getLsbD 2).toNat * 4 + (v.getLsbD 3).toNat * 8 +
        (v.getLsbD 4).toNat * 16 + (v.getLsbD 5).toNat * 32 + (v.getLsbD 6).toNat * 64 +
        (v.getLsbD 7).toNat * 128 := by
  have hv : v.toNat < 256 := v.isLt
  simp only [BitVec.getLsbD, Nat.toNat_testBit]
  omega

/-! ### The operations in Idle -/

theorem execWriteByte_idle (v : Byte) {s : State} (h : s.tx = .idle) :
    execWriteByte v s = .next (failedWith 3 3 s) := by
  rw [execWriteByte, writeByte_idle v h]
  rfl

theorem execReadByte_idle {s : State} (h : s.tx = .idle) : execReadByte s = .next (failedWith 3 3 s) := by
  rw [execReadByte, readByte_idle h]
  rfl

/-! ### What WRITE_BYTE has emitted -/

/-- WRITE_BYTE appends `writeByteEvents` to the trace, whatever the environment makes of them. -/
theorem eventsBetween_execWriteByte {v : Byte} {s t : State} (h : s.tx = .opened)
    (ht : execWriteByte v s = .next t) : eventsBetween s t = writeByteEvents s.cfg.clkDelay v := by
  rw [execWriteByte_ok v h] at ht
  rw [← next_inj ht, eventsBetween, answeredWith_env, Env.seeAll_trace, List.drop_left]

end Sys2Proof.Machine

/-! ### The obligations

In a namespace of their own: `Sys2Proof.Machine.writeByte` and `readByte` are the model's. -/

namespace Sys2Proof.Machine.ByteShift

/-- Settles O16: `execWriteByte_ok` with its events bit by bit, and `execWriteByte_idle`. -/
theorem writeByte : Obligations.WriteByte := fun v s =>
  ⟨fun h => writeByteEvents_eq s.cfg.clkDelay v ▸ execWriteByte_ok v h, execWriteByte_idle v⟩

/-- Settles O17: the levels are `byteLevels v` (`ioAtClkHigh_writeByteEvents`), and each stands for its bit. -/
theorem writeByteRoundTrip : Obligations.WriteByteRoundTrip := by
  intro v s t h ht
  have hio : ioAtClkHigh s.pin (eventsBetween s t) = byteLevels v := by
    rw [eventsBetween_execWriteByte h ht, ioAtClkHigh_writeByteEvents]
  refine ⟨_, _, _, _, _, _, _, _, hio, ?_⟩
  simp only [bit_lvl]
  exact toNat_eq_weighedBits v

/-- Settles O18: the byte and the environment are those of `Env.readByte` (`execReadByte_ok`), and the byte the
environment has fixed is the one it answers (`Env.readByte_answers`). -/
theorem readByte : Obligations.ReadByte := by
  refine fun s => ⟨fun h => ?_, execReadByte_idle⟩
  refine ⟨(s.env.readByte s.cfg.clkDelay s.cfg.ioPull s.pin).1, (s.env.readByte s.cfg.clkDelay s.cfg.ioPull s.pin).2,
    ?trace, Env.readByte_validPins .., ?fixed, execReadByte_ok h⟩
  case trace =>
    rw [Env.readByte_trace, readByteEvents_eq]
    rfl
  case fixed =>
    intro w rest hp ha
    rw [Env.readByte_answers _ _ _ w hp ha]
    exact ⟨rfl, rfl, rfl⟩

end Sys2Proof.Machine.ByteShift
end

section
/-! PROOFS. 43_bcd_codec.md: BCD_PACK and BCD_UNPACK (R160, R161), the calendar (R162, R163), BCD_ENCODE and its bounds
(R164, R165), BCD_DECODE and its checks (R166, R167), and that it undoes BCD_ENCODE (R168). The digits and the values of
a byte are said as the rules write them first, then the calendar, then each outcome of the two codecs. -/

namespace Sys2Proof.Machine

/-! ### Nibbles -/

theorem toNat_highNibble (b : Byte) : (b >>> 4).toNat = b.toNat / 16 := by
  rw [BitVec.toNat_ushiftRight, Nat.shiftRight_eq_div_pow]

theorem toNat_lowNibble (b : Byte) : (b &&& 0x0f).toNat = b.toNat % 16 := by
  rw [BitVec.toNat_and]
  exact Nat.and_two_pow_sub_one_eq_mod b.toNat 4

theorem nibbles_bcdPackByte {v : Nat} (h : v ≤ 99) :
    (bcdPackByte v >>> 4).toNat = v / 10 ∧ (bcdPackByte v &&& 0x0f).toNat = v % 10 := by
  rw [toNat_highNibble, toNat_lowNibble, bcdPackByte_toNat h]
  omega

/-! ### BCD_PACK, BCD_UNPACK and DOW -/

theorem execBcdPack_ok {v : BitVec 7} (h : v.toNat ≤ 99) (s : State) :
    execBcdPack v s = .next (answeredWith (.byte (bcdPackByte v.toNat)) s) := if_pos (decide_eq_true h)

theorem execBcdPack_refused {v : BitVec 7} (h : 99 < v.toNat) (s : State) :
    execBcdPack v s = .refused .packOutsideDomain := if_neg (by simpa [bcdPackDefined] using h)

theorem execBcdUnpack_congr {b b' m : Byte} (h : b' &&& (m ||| 0x0F) = b &&& (m ||| 0x0F)) (s : State) :
    execBcdUnpack b' m s = execBcdUnpack b m s := by
  obtain ⟨htens, hunits⟩ := digits_of_agree h
  rw [execBcdUnpack, execBcdUnpack, htens, hunits]

theorem execDow_ok {y : BitVec 12} {m : BitVec 4} {d : BitVec 5} (h : dateValid y.toNat m.toNat d.toNat = true)
    (s : State) : execDow y m d s = .next (answeredWith (.weekday (weekdayOf y.toNat m.toNat d.toNat)) s) := if_pos h

theorem execDow_refused {y : BitVec 12} {m : BitVec 4} {d : BitVec 5}
    (h : ¬ dateValid y.toNat m.toNat d.toNat = true) (s : State) :
    execDow y m d s = .refused .dateOutsideDomain := if_neg h

/-! ### The calendar -/

theorem dateValid_iff {y m d : Nat} :
    dateValid y m d = true ↔ (2000 ≤ y ∧ y ≤ 2099) ∧ (1 ≤ m ∧ m ≤ 12) ∧ (1 ≤ d ∧ d ≤ daysInMonth y m) := by
  simp [dateValid, and_assoc]

/-- The table of R162, for the months there are. -/
theorem daysInMonth_eq (y : Nat) {m : Nat} (h : 1 ≤ m) (h' : m ≤ 12) :
    daysInMonth y m =
      if m = 2 then (if (y - 2000) % 4 = 0 then 29 else 28)
      else if m = 4 ∨ m = 6 ∨ m = 9 ∨ m = 11 then 30 else 31 := by
  interval_cases m <;> simp [daysInMonth, leap]

/-- `N` of R163, with the leap rule written out. -/
theorem dayNumber_eq (y m d : Nat) :
    dayNumber y m d = 365 * (y - 2000) + (y - 2000 + 3) / 4 +
      (cumulativeDays.getD (m - 1) 0 + if (y - 2000) % 4 = 0 ∧ 3 ≤ m then 1 else 0) + (d - 1) := by
  simp [dayNumber, daysBeforeMonth, leap]

/-- `CUM` adds the lengths of the months up. -/
theorem daysBeforeMonth_succ (y : Nat) {m : Nat} (h : 1 ≤ m) (h' : m < 12) :
    daysBeforeMonth y (m + 1) = daysBeforeMonth y m + daysInMonth y m := by
  interval_cases m <;> cases hl : leap y <;> simp [daysBeforeMonth, daysInMonth, cumulativeDays, hl]

theorem dayNumber_nextDay (y m : Nat) {d : Nat} (h : 1 ≤ d) : dayNumber y m (d + 1) = dayNumber y m d + 1 := by
  unfold dayNumber
  omega

theorem dayNumber_nextMonth (y : Nat) {m : Nat} (h : 1 ≤ m) (h' : m < 12) (hd : 1 ≤ daysInMonth y m) :
    dayNumber y (m + 1) 1 = dayNumber y m (daysInMonth y m) + 1 := by
  rw [dayNumber, dayNumber, daysBeforeMonth_succ y h h']
  omega

/-- A year has 365 days, and one more every fourth year from 2000 on. -/
theorem dayNumber_nextYear {y : Nat} (h : 2000 ≤ y) :
    dayNumber (y + 1) 1 1 = dayNumber y 12 (daysInMonth y 12) + 1 := by
  obtain ⟨k, rfl⟩ := Nat.exists_eq_add_of_le h
  simp only [dayNumber_eq, daysInMonth, cumulativeDays, Nat.add_assoc, Nat.add_sub_cancel_left]
  by_cases hleap : k % 4 = 0 <;> simp [hleap] <;> omega

theorem dayOfWeek_next {y m d y' m' d' : Nat} (h : dayNumber y' m' d' = dayNumber y m d + 1) :
    dayOfWeek y' m' d' = (dayOfWeek y m d + 1) % 7 := by
  rw [dayOfWeek, dayOfWeek, h]
  omega

/-! ### The bounds of BCD_ENCODE, in the order of R165 -/

section
variable {y m d h mi s : Nat}

theorem encodeBounds_year (hy : ¬ (2000 ≤ y ∧ y ≤ 2099)) : encodeBounds y m d h mi s = some .year := if_pos hy

theorem encodeBounds_month (hy : 2000 ≤ y ∧ y ≤ 2099) (hm : ¬ (1 ≤ m ∧ m ≤ 12)) :
    encodeBounds y m d h mi s = some .month := by
  rw [encodeBounds, if_neg (not_not.mpr hy), if_pos hm]

theorem encodeBounds_day (hy : 2000 ≤ y ∧ y ≤ 2099) (hm : 1 ≤ m ∧ m ≤ 12) (hd : ¬ (1 ≤ d ∧ d ≤ daysInMonth y m)) :
    encodeBounds y m d h mi s = some .day := by
  rw [encodeBounds, if_neg (not_not.mpr hy), if_neg (not_not.mpr hm), if_pos hd]

/-- With a valid date, the checks left are those of the time. -/
theorem encodeBounds_validDate (hy : 2000 ≤ y ∧ y ≤ 2099) (hm : 1 ≤ m ∧ m ≤ 12) (hd : 1 ≤ d ∧ d ≤ daysInMonth y m) :
    encodeBounds y m d h mi s =
      if ¬ h ≤ 23 then some .hour else if ¬ mi ≤ 59 then some .minute else if ¬ s ≤ 59 then some .second else none := by
  rw [encodeBounds, if_neg (not_not.mpr hy), if_neg (not_not.mpr hm), if_neg (not_not.mpr hd)]

theorem encodeBounds_hour (hy : 2000 ≤ y ∧ y ≤ 2099) (hm : 1 ≤ m ∧ m ≤ 12) (hd : 1 ≤ d ∧ d ≤ daysInMonth y m)
    (hh : 23 < h) : encodeBounds y m d h mi s = some .hour := by
  rw [encodeBounds_validDate hy hm hd, if_pos (not_le.mpr hh)]

theorem encodeBounds_minute (hy : 2000 ≤ y ∧ y ≤ 2099) (hm : 1 ≤ m ∧ m ≤ 12) (hd : 1 ≤ d ∧ d ≤ daysInMonth y m)
    (hh : h ≤ 23) (hmi : 59 < mi) : encodeBounds y m d h mi s = some .minute := by
  rw [encodeBounds_validDate hy hm hd, if_neg (not_not.mpr hh), if_pos (not_le.mpr hmi)]

theorem encodeBounds_second (hy : 2000 ≤ y ∧ y ≤ 2099) (hm : 1 ≤ m ∧ m ≤ 12) (hd : 1 ≤ d ∧ d ≤ daysInMonth y m)
    (hh : h ≤ 23) (hmi : mi ≤ 59) (hs : 59 < s) : encodeBounds y m d h mi s = some .second := by
  rw [encodeBounds_validDate hy hm hd, if_neg (not_not.mpr hh), if_neg (not_not.mpr hmi), if_pos (not_le.mpr hs)]

/-! ### The bounds of BCD_DECODE, in the order of R167 -/

theorem decodeBounds_second (hs : 59 < s) : decodeBounds y m d h mi s = some .second := if_pos (not_le.mpr hs)

theorem decodeBounds_minute (hs : s ≤ 59) (hmi : 59 < mi) : decodeBounds y m d h mi s = some .minute := by
  rw [decodeBounds, if_neg (not_not.mpr hs), if_pos (not_le.mpr hmi)]

theorem decodeBounds_hour (hs : s ≤ 59) (hmi : mi ≤ 59) (hh : 23 < h) : decodeBounds y m d h mi s = some .hour := by
  rw [decodeBounds, if_neg (not_not.mpr hs), if_neg (not_not.mpr hmi), if_pos (not_le.mpr hh)]

/-- With a valid time, the checks left are those of the date, the month before the day. -/
theorem decodeBounds_validTime (hs : s ≤ 59) (hmi : mi ≤ 59) (hh : h ≤ 23) :
    decodeBounds y m d h mi s =
      if ¬ (1 ≤ m ∧ m ≤ 12) then some .month else if ¬ (1 ≤ d ∧ d ≤ daysInMonth y m) then some .day else none := by
  rw [decodeBounds, if_neg (not_not.mpr hs), if_neg (not_not.mpr hmi), if_neg (not_not.mpr hh)]

theorem decodeBounds_month (hs : s ≤ 59) (hmi : mi ≤ 59) (hh : h ≤ 23) (hm : ¬ (1 ≤ m ∧ m ≤ 12)) :
    decodeBounds y m d h mi s = some .month := by
  rw [decodeBounds_validTime hs hmi hh, if_pos hm]

theorem decodeBounds_day (hs : s ≤ 59) (hmi : mi ≤ 59) (hh : h ≤ 23) (hm : 1 ≤ m ∧ m ≤ 12)
    (hd : ¬ (1 ≤ d ∧ d ≤ daysInMonth y m)) : decodeBounds y m d h mi s = some .day := by
  rw [decodeBounds_validTime hs hmi hh, if_neg (not_not.mpr hm), if_pos hd]

theorem decodeBounds_none (hb : InBounds y m d h mi s) : decodeBounds y m d h mi s = none := by
  rw [decodeBounds_validTime hb.second hb.minute hb.hour, if_neg (not_not.mpr hb.month), if_neg (not_not.mpr hb.day)]

end

/-! ### The fields of an image -/

/-- Both masked nibbles of a field are decimal digits, as R166 writes them. -/
def FieldDigits (img : Vector Byte 7) (f : ImgIndex) : Prop :=
  ((imageByte img f &&& f.tensMask) >>> 4).toNat ≤ 9 ∧ (imageByte img f &&& 0x0f).toNat ≤ 9

/-- The two-digit value of a field, as R161 and R166 write it. -/
def fieldValue (img : Vector Byte 7) (f : ImgIndex) : Nat :=
  ((imageByte img f &&& f.tensMask) >>> 4).toNat * 10 + (imageByte img f &&& 0x0f).toNat

theorem digitsValid_iff (img : Vector Byte 7) (f : ImgIndex) :
    digitsValid (imageByte img f) f.tensMask = true ↔ FieldDigits img f := by
  simp only [digitsValid, FieldDigits, tensDigit_toNat, unitsDigit_toNat, Bool.and_eq_true, decide_eq_true_eq]

theorem imageValue_eq (img : Vector Byte 7) (f : ImgIndex) : imageValue img f = fieldValue img f := by
  rw [imageValue, bcdValue, tensDigit_toNat, unitsDigit_toNat, fieldValue]

theorem FieldDigits.value_le {img : Vector Byte 7} {f : ImgIndex} (h : FieldDigits img f) : fieldValue img f ≤ 99 := by
  obtain ⟨htens, hunits⟩ := h
  unfold fieldValue
  omega

/-- The range check of R167 on the values of an image. -/
def imageBounds (img : Vector Byte 7) : Option ImgIndex :=
  decodeBounds (fieldValue img .year + 2000) (fieldValue img .month) (fieldValue img .day)
    (fieldValue img .hour) (fieldValue img .minute) (fieldValue img .second)

/-- The values of an image are within the bounds. -/
def ImageInBounds (img : Vector Byte 7) : Prop :=
  InBounds (fieldValue img .year + 2000) (fieldValue img .month) (fieldValue img .day)
    (fieldValue img .hour) (fieldValue img .minute) (fieldValue img .second)

theorem ImageInBounds.imageBounds_none {img : Vector Byte 7} (h : ImageInBounds img) : imageBounds img = none :=
  decodeBounds_none h

/-! ### The outcomes of BCD_DECODE -/

section
variable {img : Vector Byte 7}

theorem firstBadDigit_none (hd : decodedFields.Forall (FieldDigits img)) : firstBadDigit img = none := by
  refine List.find?_eq_none.mpr fun f hf => ?_
  simpa [digitsValid_iff] using List.forall_iff_forall_mem.mp hd f hf

/-- The digit checks stop at the first field that fails (R166). -/
theorem bcdDecode_malformedDigit {pre post : List ImgIndex} {f : ImgIndex} (hf : decodedFields = pre ++ f :: post)
    (hpre : pre.Forall (FieldDigits img)) (hbad : ¬ FieldDigits img f) :
    bcdDecode img = .error (.malformedDigit f) := by
  have hfirst : firstBadDigit img = some f := by
    refine List.find?_eq_some_iff_append.mpr ⟨by simpa [← digitsValid_iff] using hbad, pre, post, hf, fun g hg => ?_⟩
    simpa [digitsValid_iff] using List.forall_iff_forall_mem.mp hpre g hg
  simp only [bcdDecode, hfirst]

theorem bcdDecode_malformedRange {f : ImgIndex} (hd : decodedFields.Forall (FieldDigits img))
    (hb : imageBounds img = some f) : bcdDecode img = .error (.malformedRange f) := by
  unfold imageBounds at hb
  simp only [bcdDecode, firstBadDigit_none hd, imageValue_eq, hb]

theorem bcdDecode_ok (hd : decodedFields.Forall (FieldDigits img)) (hb : ImageInBounds img) :
    bcdDecode img = .ok (imageCalendar img) := by
  have hnone := hb.imageBounds_none
  unfold imageBounds at hnone
  simp only [bcdDecode, firstBadDigit_none hd, imageValue_eq, hnone]

/-- Within the bounds no field is cut by its port. -/
theorem imageCalendar_toNat (hb : ImageInBounds img) :
    (imageCalendar img).second.toNat = fieldValue img .second ∧
      (imageCalendar img).minute.toNat = fieldValue img .minute ∧
      (imageCalendar img).hour.toNat = fieldValue img .hour ∧
      (imageCalendar img).day.toNat = fieldValue img .day ∧
      (imageCalendar img).month.toNat = fieldValue img .month ∧
      (imageCalendar img).year.toNat = fieldValue img .year + 2000 ∧
      (imageCalendar img).weekday.toNat =
        dayOfWeek (fieldValue img .year + 2000) (fieldValue img .month) (fieldValue img .day) := by
  have hdays := daysInMonth_le (fieldValue img .year + 2000) (fieldValue img .month)
  obtain ⟨⟨-, hy⟩, ⟨-, hm⟩, ⟨-, hd⟩, hh, hmi, hs⟩ := hb
  simp only [imageCalendar, imageValue_eq, BitVec.toNat_ofNat, weekdayOf_toNat, and_true]
  omega

theorem execBcdDecode_ok {c : Calendar} (h : bcdDecode img = .ok c) (s : State) :
    execBcdDecode img s = .next (answeredWith (.calendar c) (s.setCal c)) := by
  rw [execBcdDecode, h]
  rfl

theorem execBcdDecode_error {e : EngineError} (h : bcdDecode img = .error e) (s : State) :
    execBcdDecode img s = .next (refusedWith e s) := by
  rw [execBcdDecode, h]
  rfl

end

end Sys2Proof.Machine

/-! ### The obligations

In a namespace of their own: `Sys2Proof.Machine.bcdEncode` and `bcdDecode` are the model's. -/

namespace Sys2Proof.Machine.Codec

/-- Settles O19: the request is the encoding of BCD_PACK, and the byte is `bcdPackByte` (`nibbles_bcdPackByte`). -/
theorem bcdPack : Obligations.BcdPack := by
  refine fun v s => ⟨fun h rest => ?_, fun h => ?_, fun h => execBcdPack_refused h s⟩
  · exact decode_encode (i := .bcdPack v) (decide_eq_true h) rest
  · obtain ⟨htens, hunits⟩ := nibbles_bcdPackByte h
    exact ⟨_, _, execBcdPack_ok h s, rfl, htens, hunits, rfl, rfl, rfl, rfl, rfl, rfl, rfl⟩

/-- Settles O20: the digits are `tensDigit` and `unitsDigit`, which see no bit outside the masks
(`execBcdUnpack_congr`). -/
theorem bcdUnpack : Obligations.BcdUnpack := by
  refine fun b m s => ⟨fun rest => ?_, ?_, fun b' h => execBcdUnpack_congr h s⟩
  · simpa [encode, Encode.bits, Instr.format] using decode_encode (i := .bcdUnpack b m) rfl rest
  · exact ⟨_, _, _, rfl, rfl, tensDigit_toNat b m, unitsDigit_toNat b, rfl, rfl, rfl, rfl, rfl, rfl, rfl⟩

/-- Settles O21: the statement's domain is `dateValid` with the month lengths of `daysInMonth_eq`, and its formula is
`dayOfWeek` with `dayNumber_eq`. -/
theorem dowFormula : Obligations.DowFormula := by
  intro y m d s days valid
  have hdays : 1 ≤ m.toNat → m.toNat ≤ 12 → daysInMonth y.toNat m.toNat = days := fun h h' => by
    rw [daysInMonth_eq _ h h']
    simp only [days, ← BitVec.toNat_inj]
    rfl
  have hvalid : valid ↔ dateValid y.toNat m.toNat d.toNat = true := by
    rw [dateValid_iff]
    constructor
    · rintro ⟨hy, hy', hm, hm', hd, hd'⟩
      exact ⟨⟨hy, hy'⟩, ⟨hm, hm'⟩, hd, hdays hm hm' ▸ hd'⟩
    · rintro ⟨⟨hy, hy'⟩, ⟨hm, hm'⟩, hd, hd'⟩
      exact ⟨hy, hy', hm, hm', hd, hdays hm hm' ▸ hd'⟩
  refine ⟨fun h => ⟨_, execDow_ok (hvalid.mp h) s, ?_⟩, fun h => execDow_refused (h ∘ hvalid.mpr) s⟩
  rw [weekdayOf_toNat, dayOfWeek, dayNumber_eq, cumulativeDays]

/-- Settles O22: the next day, the first of the next month and the first of the next year are each one day on. -/
theorem dowRunsOn : Obligations.DowRunsOn := by
  refine ⟨fun y m _ _ hm hm' => daysInMonth_eq y hm hm', by decide, fun y m d hv => ?_⟩
  obtain ⟨⟨hy, -⟩, ⟨hm, -⟩, hd, -⟩ := dateValid_iff.mp hv
  refine ⟨fun _ => ?day, ?month, ?year⟩
  case day => exact dayOfWeek_next (dayNumber_nextDay y m hd)
  case month =>
    rintro rfl hm'
    exact dayOfWeek_next (dayNumber_nextMonth y hm hm' hd)
  case year =>
    rintro rfl rfl _
    exact dayOfWeek_next (dayNumber_nextYear hy)

/-- Settles O23: `execBcdEncode_ok` with the bytes of `encodeImage_bytes`. -/
theorem bcdEncode : Obligations.BcdEncode := by
  intro y mo d h mi sec s hy hy' hmo hmo' hd hd' hh hmi hsec
  have hb : InBounds y.toNat mo.toNat d.toNat h.toNat mi.toNat sec.toNat :=
    ⟨⟨hy, hy'⟩, ⟨hmo, hmo'⟩, ⟨hd, hd'⟩, hh, hmi, hsec⟩
  exact ⟨_, _, encodeImage_bytes hb, weekdayOf_toNat .., execBcdEncode_ok s (encodeBounds_none.mpr hb)⟩

/-- Settles O24: `execBcdEncode_error` with the first bound that fails. -/
theorem bcdEncodeRangeError : Obligations.BcdEncodeRangeError := by
  intro y mo d h mi sec s yearOk monthOk dayOk raises
  refine ⟨fun hy => ?_, fun hy hmo => ?_, fun hy hmo hd => ?_, fun hy hmo hd hh => ?_, fun hy hmo hd hh hmi => ?_,
    fun hy hmo hd hh hmi hsec => ?_⟩
  · exact execBcdEncode_error s (encodeBounds_year hy)
  · exact execBcdEncode_error s (encodeBounds_month hy hmo)
  · exact execBcdEncode_error s (encodeBounds_day hy hmo hd)
  · exact execBcdEncode_error s (encodeBounds_hour hy hmo hd hh)
  · exact execBcdEncode_error s (encodeBounds_minute hy hmo hd hh hmi)
  · exact execBcdEncode_error s (encodeBounds_second hy hmo hd hh hmi hsec)

/-- Settles O25: the calendar is `imageCalendar`, whose fields are the values of the image. -/
theorem bcdDecode : Obligations.BcdDecode := by
  intro img s value digits d0 d1 d2 d3 d4 d6 hs hmi hh hm hm' hd hd'
  have hyear : fieldValue img .year ≤ 99 := FieldDigits.value_le d6
  have hb : ImageInBounds img := ⟨by omega, ⟨hm, hm'⟩, ⟨hd, hd'⟩, hh, hmi, hs⟩
  exact ⟨_, execBcdDecode_ok (bcdDecode_ok ⟨d0, d1, d2, d3, d4, d6⟩ hb) s, imageCalendar_toNat hb⟩

/-- Settles O26: `bcdDecode_malformedDigit`, with the fields before the first bad one. -/
theorem bcdDecodeDigitError : Obligations.BcdDecodeDigitError := by
  intro img s digits raises
  have raise (pre : List ImgIndex) (f : ImgIndex) (post : List ImgIndex) (hf : decodedFields = pre ++ f :: post)
      (hpre : pre.Forall (FieldDigits img)) (hbad : ¬ FieldDigits img f) :
      exec (.bcdDecode img) s = .next (refusedWith (.malformedDigit f) s) :=
    execBcdDecode_error (bcdDecode_malformedDigit hf hpre hbad) s
  refine ⟨?_, ?_, ?_, ?_, ?_, ?_⟩
  · exact raise [] .second _ rfl trivial
  · exact fun d0 => raise [.second] .minute _ rfl d0
  · exact fun d0 d1 => raise [.second, .minute] .hour _ rfl ⟨d0, d1⟩
  · exact fun d0 d1 d2 => raise [.second, .minute, .hour] .day _ rfl ⟨d0, d1, d2⟩
  · exact fun d0 d1 d2 d3 => raise [.second, .minute, .hour, .day] .month _ rfl ⟨d0, d1, d2, d3⟩
  · exact fun d0 d1 d2 d3 d4 => raise [.second, .minute, .hour, .day, .month] .year _ rfl ⟨d0, d1, d2, d3, d4⟩

/-- Settles O27: `bcdDecode_malformedRange` with the first range that fails. -/
theorem bcdDecodeRangeError : Obligations.BcdDecodeRangeError := by
  intro img s value digits monthOk raises d0 d1 d2 d3 d4 d6
  have raise {f : ImgIndex} (hb : imageBounds img = some f) :
      exec (.bcdDecode img) s = .next (refusedWith (.malformedRange f) s) :=
    execBcdDecode_error (bcdDecode_malformedRange ⟨d0, d1, d2, d3, d4, d6⟩ hb) s
  refine ⟨fun hs => ?_, fun hs hmi => ?_, fun hs hmi hh => ?_, fun hs hmi hh hm => ?_, fun hs hmi hh hm hd => ?_⟩
  · exact raise (decodeBounds_second hs)
  · exact raise (decodeBounds_minute hs hmi)
  · exact raise (decodeBounds_hour hs hmi hh)
  · exact raise (decodeBounds_month hs hmi hh hm)
  · exact raise (decodeBounds_day hs hmi hh hm hd)

/-- Settles O28: BCD_DECODE undoes `encodeImage` (`bcdDecode_encodeImage`), and CAL holds the calendar already. -/
theorem codecRoundTrip : Obligations.CodecRoundTrip := by
  intro y mo d h mi sec s hy hy' hmo hmo' hd hd' hh hmi hsec
  have hb : InBounds y.toNat mo.toNat d.toNat h.toNat mi.toNat sec.toNat :=
    ⟨⟨hy, hy'⟩, ⟨hmo, hmo'⟩, ⟨hd, hd'⟩, hh, hmi, hsec⟩
  exact ⟨_, _, execBcdEncode_ok s (encodeBounds_none.mpr hb), weekdayOf_toNat ..,
    execBcdDecode_ok (bcdDecode_encodeImage hb) _⟩

end Sys2Proof.Machine.Codec
end

section
/-! PROOFS. 44_burst_transactions.md: the transactions and the wire commands asked for by themselves (R181 to R189), and
the counts of a frame (R190). A count of events is summed over the parts of a frame (`PartCounts`); the edges of CLK are
followed through it, from one level of CLK to the next (`ClockRun`). -/

namespace Sys2Proof.Machine

/-! ### Transactions from Open -/

/-- An operation whose transaction is nested ends in UsageError(NestedOpen), and nothing else changes
(60_exceptions.md R231). -/
theorem endOperation_nested {α : Type} {x : Except EngineError α} (h : x = .error (.usage .nestedOpen))
    (f : α → State × Value) (s : State) : endOperation s (x.map f) = .next (failedWith 3 2 s) := by
  subst h
  rfl

theorem regWrite_nested (c v : Byte) {s : State} (h : s.tx = .opened) :
    regWrite c v s = .error (.usage .nestedOpen) := by
  rw [regWrite_eq, burstWrite_nested c [v] h]

theorem clockRead_nested {s : State} (h : s.tx = .opened) : clockRead s = .error (.usage .nestedOpen) := by
  rw [clockRead, burstRead_nested _ _ h]
  rfl

theorem ramRead_nested {s : State} (h : s.tx = .opened) : ramRead s = .error (.usage .nestedOpen) := by
  rw [ramRead, burstRead_nested _ _ h]
  rfl

/-! ### The bytes of a read frame -/

/-- The environment after a read frame that took the levels of `data` from the answers fixed (20_memory.md R75). -/
theorem Env.frameRead_of_answers (cfg : Cfg) (c : Byte) {data : List Byte} {n : Nat} {rest : List Level} (r : PinRegs)
    {e : Env} (hp : e.periph = none) (hn : data.length = n) (ha : e.answers = bytesLevels data ++ rest) :
    (e.frameRead cfg c n r).1 = data ∧ (e.frameRead cfg c n r).2.answers = rest ∧
      (e.frameRead cfg c n r).2.drawn = e.drawn := by
  subst hn
  rw [Env.frameRead_answers cfg c data rest r hp ha]
  exact ⟨rfl, rfl, rfl⟩

/-- The bytes a read frame returns, as the buffer they fill. -/
theorem Env.frameRead_image (cfg : Cfg) (c : Byte) (n : Nat) (r : PinRegs) (e : Env) :
    ∃ w : Vector Byte n, (e.frameRead cfg c n r).1 = w.toList ∧
      (e.frameRead cfg c n r).2.trace = e.trace ++ readFrame cfg c w.toList ∧
      ∀ (data : Vector Byte n) rest, e.periph = none → e.answers = bytesLevels data.toList ++ rest →
        w = data ∧ (e.frameRead cfg c n r).2.answers = rest ∧ (e.frameRead cfg c n r).2.drawn = e.drawn := by
  obtain ⟨w, hw⟩ : ∃ w : Vector Byte n, w.toList = (e.frameRead cfg c n r).1 :=
    ⟨⟨⟨(e.frameRead cfg c n r).1⟩, by simp⟩, rfl⟩
  refine ⟨w, hw.symm, hw ▸ Env.frameRead_trace cfg c n r e, fun data rest hp ha => ?_⟩
  obtain ⟨hbytes, henv⟩ := Env.frameRead_of_answers cfg c (n := n) r hp (by simp) ha
  exact ⟨Vector.toList_inj.mp (hw.trans hbytes), henv⟩

theorem State.loadRam_toList (w : Vector Byte 31) (s : State) :
    s.loadRam w.toList = { s with buf := { s.buf with ram := w } } := by
  rw [State.loadRam, loadFront_toList]

/-! ### Events of a frame -/

/-- Where each part satisfies `p` equally often, the sum is a product. -/
theorem countP_flatMap_const {α β : Type} {p : β → Bool} {g : α → List β} {k : Nat}
    (h : ∀ a, (g a).countP p = k) (l : List α) : (l.flatMap g).countP p = k * l.length := by
  induction l with
  | nil => rfl
  | cons a l ih => rw [List.flatMap_cons, List.countP_append, h, ih, List.length_cons, Nat.mul_add_one, Nat.add_comm]

/-- TX_OPEN: two events of the literal contract, one for a data-line reset, one for a settle delay (41_framing.md
R140). -/
theorem countP_txOpenEvents (p : PinEvent → Bool) (cfg : Cfg) :
    (txOpenEvents cfg).countP p =
      [.wr .clk .low, .wr .ce .high].countP p +
        (if cfg.dataResetOrder = .none then 0 else [.dir .io .input cfg.ioPull].countP p) +
        (if cfg.settleDelay = 0 then 0 else [.dly cfg.settleDelay].countP p) := by
  unfold txOpenEvents dataLineReset
  cases cfg.dataResetOrder <;> simp [List.countP_cons, apply_ite (List.countP p)] <;> omega

/-- How many events satisfy `p`: `o` in the framing of a transaction, `d` at a `DIR` of IO, `w` in a written bit, `r` in
a read bit. -/
structure PartCounts (p : PinEvent → Bool) (cfg : Cfg) (o d w r : Nat) : Prop where
  framing : (txOpenEvents cfg).countP p + (txCloseEvents cfg).countP p = o
  dirIo : ∀ m u, [PinEvent.dir .io m u].countP p = d
  writeBit : ∀ l, (writeBitEvents cfg.clkDelay l).countP p = w
  readBit : ∀ l, (readPulseEvents cfg.clkDelay ++ [PinEvent.rd .io l]).countP p = r

section
variable {p : PinEvent → Bool} {cfg : Cfg} {o d w r : Nat}

/-- WRITE_BYTE is a `DIR` and eight bits (42_byte_shift.md R150). -/
theorem PartCounts.writeByte (h : PartCounts p cfg o d w r) (v : Byte) :
    (writeByteEvents cfg.clkDelay v).countP p = d + w * 8 := by
  rw [writeByteEvents, ← List.singleton_append, List.countP_append, h.dirIo, countP_flatMap_const h.writeBit,
    byteLevels_length]

/-- READ_BYTE is a `DIR` and eight bits (42_byte_shift.md R152). -/
theorem PartCounts.readByte (h : PartCounts p cfg o d w r) (v : Byte) :
    (readByteEvents cfg.clkDelay cfg.ioPull v).countP p = d + r * 8 := by
  rw [readByteEvents, ← List.singleton_append, List.countP_append, h.dirIo, countP_flatMap_const h.readBit,
    byteLevels_length]

theorem PartCounts.writeFrame (h : PartCounts p cfg o d w r) (c : Byte) (bytes : List Byte) :
    (writeFrame cfg c bytes).countP p = o + (d + w * 8) * (1 + bytes.length) := by
  rw [Machine.writeFrame, List.countP_append, List.countP_append, countP_flatMap_const h.writeByte, ← h.framing,
    List.length_cons]
  ring

theorem PartCounts.readFrame (h : PartCounts p cfg o d w r) (c : Byte) (bytes : List Byte) :
    (readFrame cfg c bytes).countP p = o + (d + w * 8) + (d + r * 8) * bytes.length := by
  rw [Machine.readFrame, List.countP_append, List.countP_append, List.countP_append, countP_flatMap_const h.readByte,
    h.writeByte, ← h.framing]
  ring

end

/-! ### The counts of each kind of event (44_burst_transactions.md R190) -/

theorem partCounts_all (cfg : Cfg) : PartCounts (fun _ => true) cfg (5 + openExtra cfg) 1 5 5 :=
  ⟨by simp +arith [countP_txOpenEvents, txCloseEvents, openExtra], fun _ _ => rfl, fun _ => rfl, fun _ => rfl⟩

theorem partCounts_clkHigh (cfg : Cfg) : PartCounts (· == .wr .clk .high) cfg 0 0 1 1 :=
  ⟨by simp [countP_txOpenEvents, txCloseEvents], by simp, by simp [writeBitEvents], by simp [readPulseEvents]⟩

theorem partCounts_clkLow (cfg : Cfg) : PartCounts (· == .wr .clk .low) cfg 2 0 1 1 :=
  ⟨by simp [countP_txOpenEvents, txCloseEvents], by simp, by simp [writeBitEvents], by simp [readPulseEvents]⟩

theorem partCounts_clkDelay {cfg : Cfg} (h : cfg.settleDelay = 0) : PartCounts (· == .dly cfg.clkDelay) cfg 0 0 2 2 :=
  ⟨by simp [countP_txOpenEvents, txCloseEvents, h], by simp, by simp [writeBitEvents], by simp [readPulseEvents]⟩

theorem partCounts_isDly (cfg : Cfg) : PartCounts isDly cfg (if cfg.settleDelay = 0 then 0 else 1) 0 2 2 :=
  ⟨by simp [countP_txOpenEvents, txCloseEvents, isDly], fun _ _ => rfl, fun _ => rfl, fun _ => rfl⟩

theorem partCounts_isWr_io (cfg : Cfg) : PartCounts (isWr .io) cfg 0 0 1 0 :=
  ⟨by simp [countP_txOpenEvents, txCloseEvents, isWr], fun _ _ => rfl, fun _ => rfl, fun _ => rfl⟩

theorem partCounts_isRd (cfg : Cfg) : PartCounts isRd cfg 0 0 0 1 :=
  ⟨by simp [countP_txOpenEvents, txCloseEvents, isRd], fun _ _ => rfl, fun _ => rfl, fun _ => rfl⟩

theorem partCounts_isDir_io (cfg : Cfg) :
    PartCounts (isDir .io) cfg (1 + if cfg.dataResetOrder = .none then 0 else 1) 1 0 0 :=
  ⟨by simp [countP_txOpenEvents, txCloseEvents, isDir, Nat.add_comm], fun _ _ => rfl, fun _ => rfl, fun _ => rfl⟩

theorem partCounts_isWr_ce (cfg : Cfg) : PartCounts (isWr .ce) cfg 2 0 0 0 :=
  ⟨by simp [countP_txOpenEvents, txCloseEvents, isWr], fun _ _ => rfl, fun _ => rfl, fun _ => rfl⟩

/-! ### Edges of CLK -/

@[simp] theorem countInFrame_append (f : PinRegs → PinEvent → Bool) (r : PinRegs) (a b : List PinEvent) :
    countInFrame f r (a ++ b) = countInFrame f r a + countInFrame f (r.applyAll a) b := by
  induction a generalizing r with
  | nil => simp [countInFrame]
  | cons ev a ih => simp [countInFrame, ih, Nat.add_assoc]

/-- CE is High and the engine drives CLK at the level `l`. -/
structure PinRegs.Clocked (r : PinRegs) (l : Level) : Prop where
  ce : r.ceO = .high
  clkDir : r.clkDir = .output
  clk : r.clkO = l

/-- With CE High, the events take CLK from `l` to `m` over `a` rising and `b` falling edges. -/
structure ClockRun (l m : Level) (a b : Nat) (evs : List PinEvent) : Prop where
  ends : ∀ {r : PinRegs}, r.Clocked l → (r.applyAll evs).Clocked m
  rising : ∀ {r : PinRegs}, r.Clocked l → countInFrame PinRegs.risingEdge r evs = a
  falling : ∀ {r : PinRegs}, r.Clocked l → countInFrame PinRegs.fallingEdge r evs = b

theorem ClockRun.nil (l : Level) : ClockRun l l 0 0 [] := ⟨id, fun _ => rfl, fun _ => rfl⟩

theorem ClockRun.append {l m k : Level} {a b a' b' : Nat} {x y : List PinEvent} (hx : ClockRun l m a b x)
    (hy : ClockRun m k a' b' y) : ClockRun l k (a + a') (b + b') (x ++ y) where
  ends h := by rw [PinRegs.applyAll_append]; exact hy.ends (hx.ends h)
  rising h := by rw [countInFrame_append, hx.rising h, hy.rising (hx.ends h)]
  falling h := by rw [countInFrame_append, hx.falling h, hy.falling (hx.ends h)]

/-- A part that leaves CLK where it found it, repeated. -/
theorem ClockRun.flatMap {α : Type} {g : α → List PinEvent} {m : Level} {a b : Nat}
    (h : ∀ v, ClockRun m m a b (g v)) (l : List α) : ClockRun m m (a * l.length) (b * l.length) (l.flatMap g) := by
  induction l with
  | nil => exact .nil m
  | cons v l ih =>
    rw [List.flatMap_cons, List.length_cons, Nat.mul_add_one, Nat.mul_add_one, Nat.add_comm _ a, Nat.add_comm _ b]
    exact (h v).append ih

/-- The first part may find CLK at another level. -/
theorem ClockRun.flatMap_cons {α : Type} {g : α → List PinEvent} {l m : Level} {a b a' b' : Nat}
    (h : ∀ v, ClockRun l m a b (g v)) (h' : ∀ v, ClockRun m m a' b' (g v)) (v : α) (vs : List α) :
    ClockRun l m (a + a' * vs.length) (b + b' * vs.length) ((v :: vs).flatMap g) :=
  (h v).append (.flatMap h' vs)

/-- A `DIR` of IO is no edge. -/
theorem ClockRun.dirIo (l : Level) (m : PinMode) (u : Pull) : ClockRun l l 0 0 [.dir .io m u] where
  ends h := { h with }
  rising _ := by simp [countInFrame, PinRegs.risingEdge]
  falling _ := by simp [countInFrame, PinRegs.fallingEdge]

/-- A written bit raises CLK; it lowers it first where it found it High (42_byte_shift.md R150). -/
theorem ClockRun.writeBit (l : Level) (d : BitVec 16) (v : Level) :
    ClockRun l .high 1 (if l = .high then 1 else 0) (writeBitEvents d v) where
  ends h := ⟨h.ce, h.clkDir, rfl⟩
  rising := by
    rintro r ⟨hce, hdir, rfl⟩
    simp [writeBitEvents, countInFrame, PinRegs.risingEdge, PinRegs.apply, hce, hdir]
  falling := by
    rintro r ⟨hce, hdir, rfl⟩
    simp [writeBitEvents, countInFrame, PinRegs.fallingEdge, PinRegs.apply, hce]

/-- A read bit lowers CLK; it raises it first where it found it Low (42_byte_shift.md R152). -/
theorem ClockRun.readBit (l : Level) (d : BitVec 16) (v : Level) :
    ClockRun l .low (if l = .low then 1 else 0) 1 (readPulseEvents d ++ [.rd .io v]) where
  ends h := ⟨h.ce, h.clkDir, rfl⟩
  rising := by
    rintro r ⟨hce, hdir, rfl⟩
    simp [readPulseEvents, countInFrame, PinRegs.risingEdge, PinRegs.apply, hce, hdir]
  falling := by
    rintro r ⟨hce, hdir, rfl⟩
    simp [readPulseEvents, countInFrame, PinRegs.fallingEdge, PinRegs.apply, hce]

theorem ClockRun.writeByte (l : Level) (d : BitVec 16) (v : Byte) :
    ClockRun l .high 8 (if l = .high then 8 else 7) (writeByteEvents d v) := by
  have bits := ClockRun.flatMap_cons (.writeBit l d) (.writeBit .high d) (lvl (v.getLsbD 0)) (byteLevels v).tail
  cases l <;> exact (dirIo _ .output .none).append bits

theorem ClockRun.readByte (l : Level) (d : BitVec 16) (u : Pull) (v : Byte) :
    ClockRun l .low (if l = .low then 8 else 7) 8 (readByteEvents d u v) := by
  have bits := ClockRun.flatMap_cons (.readBit l d) (.readBit .low d) (lvl (v.getLsbD 0)) (byteLevels v).tail
  cases l <;> exact (dirIo _ .input u).append bits

/-- The bytes of a write frame: the first bit finds CLK Low, every other finds it High. -/
theorem ClockRun.writeBytes (d : BitVec 16) (c : Byte) (bytes : List Byte) :
    ClockRun .low .high (8 + 8 * bytes.length) (7 + 8 * bytes.length) ((c :: bytes).flatMap (writeByteEvents d)) :=
  .flatMap_cons (.writeByte .low d) (.writeByte .high d) c bytes

/-- The data bytes of a read frame: the first bit finds CLK High, every other finds it Low. -/
theorem ClockRun.readBytes (d : BitVec 16) (u : Pull) (b : Byte) (bytes : List Byte) :
    ClockRun .high .low (7 + 8 * bytes.length) (8 + 8 * bytes.length) ((b :: bytes).flatMap (readByteEvents d u)) :=
  .flatMap_cons (.readByte .high d u) (.readByte .low d u) b bytes

/-- TX_OPEN writes CLK before it raises CE only, so it has no edge to count (41_framing.md R140). -/
theorem countInFrame_txOpenEvents {f : PinRegs → PinEvent → Bool}
    (hf : ∀ r ev, (∀ l, ev ≠ .wr .clk l) → f r ev = false) {r : PinRegs} (hce : r.ceO = .low) (cfg : Cfg) :
    countInFrame f r (txOpenEvents cfg) = 0 := by
  unfold txOpenEvents dataLineReset
  cases cfg.dataResetOrder <;> simp [countInFrame, PinRegs.apply, hf, hce, apply_ite (countInFrame f _)]

theorem clocked_txOpenEvents {r : PinRegs} (h : r.clkDir = .output) (cfg : Cfg) :
    (r.applyAll (txOpenEvents cfg)).Clocked .low := by
  rw [applyAll_txOpenEvents]
  exact ⟨rfl, h, rfl⟩

/-- Around the bytes of a frame, TX_OPEN adds no edge, and TX_CLOSE a falling one where they leave CLK High. -/
theorem ClockRun.edges_frame {m : Level} {a b : Nat} {evs : List PinEvent} (h : ClockRun .low m a b evs) (cfg : Cfg)
    {r : PinRegs} (hdir : r.clkDir = .output) (hce : r.ceO = .low) :
    countInFrame PinRegs.risingEdge r (txOpenEvents cfg ++ evs ++ txCloseEvents cfg) = a ∧
      countInFrame PinRegs.fallingEdge r (txOpenEvents cfg ++ evs ++ txCloseEvents cfg) =
        b + if m = .high then 1 else 0 := by
  have hopen := clocked_txOpenEvents hdir cfg
  obtain ⟨hce', hdir', hclk'⟩ := h.ends hopen
  simp only [countInFrame_append, PinRegs.applyAll_append, h.rising hopen, h.falling hopen]
  rw [countInFrame_txOpenEvents (by simp +contextual [PinRegs.risingEdge]) hce,
    countInFrame_txOpenEvents (by simp +contextual [PinRegs.fallingEdge]) hce]
  simp [txCloseEvents, countInFrame, PinRegs.risingEdge, PinRegs.fallingEdge, PinRegs.apply, hce', hclk']

theorem edges_writeFrame {r : PinRegs} (hdir : r.clkDir = .output) (hce : r.ceO = .low) (cfg : Cfg) (c : Byte)
    (bytes : List Byte) :
    countInFrame PinRegs.risingEdge r (writeFrame cfg c bytes) = 8 * (1 + bytes.length) ∧
      countInFrame PinRegs.fallingEdge r (writeFrame cfg c bytes) = 8 * (1 + bytes.length) := by
  obtain ⟨hrise, hfall⟩ := (ClockRun.writeBytes cfg.clkDelay c bytes).edges_frame cfg hdir hce
  exact ⟨hrise.trans (by omega), hfall.trans (by rw [if_pos rfl]; omega)⟩

/-- Without a data byte CLK is High at TX_CLOSE; with one, the first bit read found it High already. -/
theorem edges_readFrame {r : PinRegs} (hdir : r.clkDir = .output) (hce : r.ceO = .low) (cfg : Cfg) (c : Byte)
    (bytes : List Byte) :
    countInFrame PinRegs.risingEdge r (readFrame cfg c bytes) =
        8 * (1 + bytes.length) - (if bytes.length = 0 then 0 else 1) ∧
      countInFrame PinRegs.fallingEdge r (readFrame cfg c bytes) =
        8 * (1 + bytes.length) - (if bytes.length = 0 then 0 else 1) := by
  have hcmd : ClockRun .low .high 8 7 (writeByteEvents cfg.clkDelay c) := .writeByte .low cfg.clkDelay c
  rw [readFrame, List.append_assoc (txOpenEvents cfg)]
  cases bytes with
  | nil => exact (hcmd.append (.nil .high)).edges_frame cfg hdir hce
  | cons b bytes =>
    obtain ⟨hrise, hfall⟩ := (hcmd.append (.readBytes cfg.clkDelay cfg.ioPull b bytes)).edges_frame cfg hdir hce
    rw [List.length_cons, if_neg (Nat.succ_ne_zero _)]
    exact ⟨hrise.trans (by omega), hfall.trans (by rw [if_neg nofun]; omega)⟩

end Sys2Proof.Machine

/-! ### The obligations

In a namespace of their own: `Sys2Proof.Machine.regWrite`, `burstWrite` and `burstRead` are the model's. -/

namespace Sys2Proof.Machine.Transactions

/-- Settles O31: `execRegWrite_ok`, and `regWrite_nested` from Open. -/
theorem regWrite : Obligations.RegWrite := fun c v s =>
  ⟨execRegWrite_ok c v, fun h => endOperation_nested (regWrite_nested c v h) _ s⟩

/-- Settles O32: `execBurstWrite_ok`, and `burstWrite_nested` from Open. -/
theorem burstWrite : Obligations.BurstWrite := fun c n data s =>
  ⟨execBurstWrite_ok c n data, fun h => endOperation_nested (burstWrite_nested c _ h) _ s⟩

/-- Settles O33: the bytes and the environment are those of `Env.frameRead`. -/
theorem burstRead : Obligations.BurstRead := by
  refine fun c n s => ⟨fun h => ?_, fun h => endOperation_nested (burstRead_nested c _ h) _ s⟩
  exact ⟨_, _, Env.frameRead_length .., Env.frameRead_trace .., Env.frameRead_validPins ..,
    fun _ _ => Env.frameRead_of_answers s.cfg c s.pin, execBurstRead_ok c n h⟩

/-- Settles O34: the two commands are REG_WRITE, and the bits are those of `frameBits`. -/
theorem maintenanceCommands : Obligations.MaintenanceCommands := fun s =>
  ⟨fun h => ⟨execCmdWp_ok h, execCmdTcs_ok h, frameBits .., frameBits ..⟩,
    fun h => ⟨endOperation_nested (regWrite_nested _ _ h) _ s, endOperation_nested (regWrite_nested _ _ h) _ s⟩⟩

/-- Settles O35: the two commands are BURST_WRITE of the buffers. -/
theorem writeCommands : Obligations.WriteCommands := fun len s =>
  ⟨fun h => ⟨execCmdClkWr_ok h, execCmdRamWr_ok len h⟩,
    fun h => ⟨endOperation_nested (burstWrite_nested _ _ h) _ s, endOperation_nested (burstWrite_nested _ _ h) _ s⟩⟩

/-- Settles O36: the two commands are BURST_READ, whose bytes fill the buffers (`Env.frameRead_image`). -/
theorem readCommands : Obligations.ReadCommands := by
  refine fun s => ⟨fun h => ?_, fun h =>
    ⟨endOperation_nested (clockRead_nested h) _ s, endOperation_nested (ramRead_nested h) _ s⟩⟩
  obtain ⟨img, himg, htrace, hanswers⟩ := Env.frameRead_image s.cfg 0xBF 7 s.pin s.env
  obtain ⟨ram, hram, htrace', hanswers'⟩ := Env.frameRead_image s.cfg 0xFF 31 s.pin s.env
  refine ⟨img, ram, _, _, htrace, Env.frameRead_validPins .., htrace', Env.frameRead_validPins .., hanswers,
    hanswers', ?clk, ?ram⟩
  case clk =>
    refine (execCmdClkRd_ok h).trans ?_
    rw [himg, loadFront_toList]
    rfl
  case ram =>
    refine (execCmdRamRd_ok h).trans ?_
    rw [hram, loadFront_toList, State.loadRam_toList]
    rfl

/-- Settles O38: the counts of events are sums over the parts of a frame (`PartCounts`), those of edges follow CLK
through it (`ClockRun`). -/
theorem frameCounts : Obligations.FrameCounts := by
  intro r cfg c bytes hdir _ hce n _ _
  obtain ⟨hriseW, hfallW⟩ := edges_writeFrame hdir hce cfg c bytes
  obtain ⟨hriseR, hfallR⟩ := edges_readFrame hdir hce cfg c bytes
  have writes {p o d w b k} (h : PartCounts p cfg o d w b) (hk : o + (d + w * 8) * (1 + n) = k) :
      (writeFrame cfg c bytes).countP p = k := (h.writeFrame c bytes).trans hk
  have reads {p o d w b k} (h : PartCounts p cfg o d w b) (hk : o + (d + w * 8) + (d + b * 8) * n = k) :
      (readFrame cfg c bytes).countP p = k := (h.readFrame c bytes).trans hk
  have length_eq (l : List PinEvent) : l.length = l.countP fun _ => true := by rw [List.countP_true]
  exact ⟨(length_eq _).trans (writes (partCounts_all cfg) (by omega)),
    (length_eq _).trans (reads (partCounts_all cfg) (by omega)),
    writes (partCounts_clkHigh cfg) (by omega), reads (partCounts_clkHigh cfg) (by omega),
    writes (partCounts_clkLow cfg) (by omega), reads (partCounts_clkLow cfg) (by omega),
    hriseW, hriseR, hfallW, hfallR,
    fun hs => ⟨writes (partCounts_clkDelay hs) (by omega), reads (partCounts_clkDelay hs) (by omega)⟩,
    writes (partCounts_isDly cfg) (by omega), reads (partCounts_isDly cfg) (by omega),
    writes (partCounts_isWr_io cfg) (by omega), reads (partCounts_isWr_io cfg) (by omega),
    writes (partCounts_isRd cfg) (by omega), reads (partCounts_isRd cfg) (by omega),
    writes (partCounts_isDir_io cfg) (by omega), reads (partCounts_isDir_io cfg) (by omega),
    writes (partCounts_isWr_ce cfg) (by omega), reads (partCounts_isWr_ce cfg) (by omega)⟩

end Sys2Proof.Machine.Transactions
end

section
/-! PROOFS. 45_driver_operations.md: INIT (R200), READ_DATETIME (R201), WRITE_DATETIME (R202), READ_RAM (R203),
WRITE_RAM (R204) and CLOSE (R205), the gates they pass first (R206, R207), and when the engine accepts no request
(R209). The gates and the outcomes that no operation law says yet come first, then the obligations. -/

namespace Sys2Proof.Machine

/-! ### Gates -/

theorem readyGate_notReady {s : State} (hd : s.drv ≠ .ready) : readyGate s = .error (.usage .notReady) := if_pos hd

theorem readyGate_nestedOpen {s : State} (hd : s.drv = .ready) (ht : s.tx = .opened) :
    readyGate s = .error (.usage .nestedOpen) := by
  rw [readyGate, if_neg (not_not.mpr hd), if_pos ht]

theorem initGate_notAllowed {s : State} (hd : s.drv ≠ .uninitialized) (clkId ioId ceId : PinId) :
    initGate clkId ioId ceId s = .error (.usage .initNotAllowed) := if_pos hd

theorem initGate_nestedOpen {s : State} (hd : s.drv = .uninitialized) (ht : s.tx = .opened) (clkId ioId ceId : PinId) :
    initGate clkId ioId ceId s = .error (.usage .nestedOpen) := by
  rw [initGate, if_neg (not_not.mpr hd), if_pos ht]

/-! ### Read frames -/

/-- A read frame, as the buffer its bytes fill and the environment it leaves. -/
theorem Env.frameRead_result (cfg : Cfg) (c : Byte) (n : Nat) (r : PinRegs) (e : Env) :
    ∃ (w : Vector Byte n) (f : Env), e.frameRead cfg c n r = (w.toList, f) ∧
      f.trace = e.trace ++ readFrame cfg c w.toList ∧ f.validPins = e.validPins ∧
      ∀ (data : Vector Byte n) rest, e.periph = none → e.answers = bytesLevels data.toList ++ rest →
        w = data ∧ f.answers = rest := by
  obtain ⟨w, hbytes, htrace, hanswers⟩ := Env.frameRead_image cfg c n r e
  refine ⟨w, _, Prod.ext hbytes rfl, htrace, Env.frameRead_validPins .., fun data rest hp ha => ?_⟩
  obtain ⟨hdata, hrest, -⟩ := hanswers data rest hp ha
  exact ⟨hdata, hrest⟩

/-! ### READ_DATETIME -/

/-- The state once a read clock burst has returned the image `img` and left the environment `e`, before it is decoded
(45_driver_operations.md R201). -/
def State.afterImageRead (img : Vector Byte 7) (e : Env) (s : State) : State :=
  (s.afterReadFrame 0xBF img.toList e).setImg img

section
variable {s : State} {img : Vector Byte 7} {e : Env}

theorem execReadDatetime_decoded (hd : s.drv = .ready) (ht : s.tx = .idle)
    (hread : s.env.frameRead s.cfg 0xBF 7 s.pin = (img.toList, e)) {c : Calendar} (hc : bcdDecode img = .ok c) :
    execReadDatetime s = .next (finishedWith (.calendar c) ((s.afterImageRead img e).setCal c)) := by
  rw [execReadDatetime_ok hd ht, hread]
  simp only [loadFront_toList, hc]
  rfl

theorem execReadDatetime_malformed (hd : s.drv = .ready) (ht : s.tx = .idle)
    (hread : s.env.frameRead s.cfg 0xBF 7 s.pin = (img.toList, e)) {err : EngineError}
    (herr : bcdDecode img = .error err) :
    execReadDatetime s = .next (refusedWith err (s.afterImageRead img e)) := by
  rw [execReadDatetime_ok hd ht, hread]
  simp only [loadFront_toList, herr]
  rfl

end

/-! ### READ_RAM and WRITE_RAM -/

theorem execReadRam_bytes {s : State} {ram : Vector Byte 31} {e : Env} (hd : s.drv = .ready) (ht : s.tx = .idle)
    (hread : s.env.frameRead s.cfg 0xFF 31 s.pin = (ram.toList, e)) :
    execReadRam s = .next (finishedWith (.ram ram)
      { s.afterReadFrame 0xFF ram.toList e with buf := { s.buf with ram := ram } }) := by
  rw [execReadRam_ok hd ht, hread, loadFront_toList, State.loadRam_toList]
  rfl

/-- The length of a RamImage counts up to 31 only (20_memory.md R63). -/
theorem execWriteRam_congr {len len' : BitVec 8} (h : ramCount len = ramCount len') (image : Vector Byte 31)
    (s : State) : execWriteRam len image s = execWriteRam len' image s := by
  simp only [execWriteRam, ramWrite, h]

theorem ramCount_of_le {len : BitVec 8} (h : 31 ≤ len.toNat) : ramCount len = 31 := Nat.min_eq_right h

/-! ### A step that accepts nothing -/

theorem step_not_idle {s : State} (hr : s.port.resetIn ≠ some 0) (hi : s.idle ≠ true) : step s = .next s := by
  rw [step, if_neg hr, if_neg hi]

theorem step_no_request {s : State} (hr : s.port.resetIn ≠ some 0) (hq : s.port.requests = []) : step s = .next s := by
  by_cases hi : s.idle = true
  · rw [step, if_neg hr, if_pos hi, hq]
  · exact step_not_idle hr hi

/-! ### The obligations -/

/-- Settles O40: `execInit_ok`. -/
theorem initCompletes : Obligations.InitCompletes :=
  fun _ _ _ clkDelay settleDelay order pull _ hd ht hci hcc hic hvc hvi hve =>
    execInit_ok clkDelay settleDelay order pull hd ht ⟨hci, hcc, hic⟩ ⟨hvc, hvi, hve⟩

/-- Settles O42: the image is the one the read frame returns (`Env.frameRead_result`), and READ_DATETIME ends as
BCD_DECODE of it does (`execReadDatetime_decoded`, `execReadDatetime_malformed`). -/
theorem readDatetime : Obligations.ReadDatetime := by
  intro s hd ht
  obtain ⟨img, e, hread, htrace, hvalid, -⟩ := Env.frameRead_result s.cfg 0xBF 7 s.pin s.env
  exact ⟨img, e, htrace, hvalid, fun _ hc => execReadDatetime_decoded hd ht hread hc,
    fun _ herr => ⟨bcdDecode_code herr, execReadDatetime_malformed hd ht hread herr⟩⟩

/-- Settles O43: the read frame returns the image the answers carry (`Env.frameRead_answers`), and decoding undoes
encoding (`bcdDecode_encodeImage`). -/
theorem readDatetimeAnswersDate : Obligations.ReadDatetimeAnswersDate := by
  intro y mo d h mi sec rest s hy hy' hmo hmo' hd hd' hh hmi hsec hdrv htx hp img ha
  have hb : InBounds y.toNat mo.toNat d.toNat h.toNat mi.toNat sec.toNat :=
    ⟨⟨hy, hy'⟩, ⟨hmo, hmo'⟩, ⟨hd, hd'⟩, hh, hmi, hsec⟩
  exact ⟨_, weekdayOf_toNat .., execReadDatetime_decoded hdrv htx
    (Env.frameRead_answers s.cfg 0xBF img.toList rest s.pin hp ha) (bcdDecode_encodeImage hb)⟩

/-- Settles O44: `execWriteDatetime_ok` with the bytes of `encodeImage_bytes`. -/
theorem writeDatetime : Obligations.WriteDatetime := by
  intro y mo d h mi sec s hdrv htx hy hy' hmo hmo' hd hd' hh hmi hsec
  have hb : InBounds y.toNat mo.toNat d.toNat h.toNat mi.toNat sec.toNat :=
    ⟨⟨hy, hy'⟩, ⟨hmo, hmo'⟩, ⟨hd, hd'⟩, hh, hmi, hsec⟩
  exact ⟨_, _, encodeImage_bytes hb, weekdayOf_toNat .., execWriteDatetime_ok hdrv htx (encodeBounds_none.mpr hb)⟩

/-- Settles O46: the bytes are those the read frame returns (`Env.frameRead_result`), and they fill RAMBUF. -/
theorem readRam : Obligations.ReadRam := by
  intro s hd ht
  obtain ⟨ram, e, hread, htrace, hvalid, hanswers⟩ := Env.frameRead_result s.cfg 0xFF 31 s.pin s.env
  exact ⟨ram, e, htrace, hvalid, hanswers, execReadRam_bytes hd ht hread⟩

/-- Settles O47: `execWriteRam_ok`; RAMBUF is what `loadFront` makes of it (`loadFront_take_getElem`), and no length
above 31 differs from 31 (`execWriteRam_congr`). -/
theorem writeRam : Obligations.WriteRam := fun len image s =>
  ⟨fun hd ht => ⟨_, loadFront_take_getElem s.buf.ram image (Nat.min_le_right len.toNat 31),
      execWriteRam_ok len image hd ht⟩,
    fun h => execWriteRam_congr (ramCount_of_le h) image s⟩

/-- Settles O48: the four outcomes of CLOSE. -/
theorem close : Obligations.Close := fun _ =>
  ⟨execClose_ready, execClose_opened, execClose_closed, execClose_uninitialized⟩

/-- Settles O6: an engine with an operation in progress is not idle (`step_not_idle`), and one without a request waits
(`step_no_request`). -/
theorem stepWaits : Obligations.StepWaits := by
  refine fun s hr => ⟨fun hbusy => step_not_idle hr ?_, step_no_request hr⟩
  rcases hbusy with hbusy | hop
  · simp [State.idle, hbusy]
  · simp [State.idle, hop]

/-- Settles O49: the driver state is the first check of both gates. -/
theorem driverStateGates : Obligations.DriverStateGates := fun _ =>
  ⟨fun hd clkId ioId ceId clkDelay settleDelay order pull =>
      execInit_error clkDelay settleDelay order pull (initGate_notAllowed hd clkId ioId ceId),
    fun hd => execDataOp_gate (readyGate_notReady hd)⟩

/-- Settles O50: the transaction state is the second check of both gates. -/
theorem openLaunchGates : Obligations.OpenLaunchGates := fun _ ht =>
  ⟨fun hd clkId ioId ceId clkDelay settleDelay order pull =>
      execInit_error clkDelay settleDelay order pull (initGate_nestedOpen hd ht clkId ioId ceId),
    fun hd => execDataOp_gate (readyGate_nestedOpen hd ht)⟩

end Sys2Proof.Machine
end

section
/-! PROOFS. 60_exceptions.md: what an error leaves of the state (R230, R231), the two causes of GpioAcquisitionError and
that INIT alone raises it (R222), and the RangeError of WRITE_DATETIME (R223). Which error an operation can end with is
`exec_ended`; the checks of INIT that no operation law says yet come first, then the obligations. -/

namespace Sys2Proof.Machine

/-! ### The pin checks of INIT -/

section
variable {clkId ioId ceId : PinId} {s : State}

theorem initGate_pinsNotDistinct (hd : s.drv = .uninitialized) (ht : s.tx = .idle)
    (hn : ¬ (clkId ≠ ioId ∧ clkId ≠ ceId ∧ ioId ≠ ceId)) :
    initGate clkId ioId ceId s = .error (.gpioAcquisition .pinsNotDistinct) := by
  have hsame : clkId = ioId ∨ clkId = ceId ∨ ioId = ceId := by tauto
  simp [initGate, hd, ht, hsame]

theorem initGate_pinInvalid (hd : s.drv = .uninitialized) (ht : s.tx = .idle)
    (hn : clkId ≠ ioId ∧ clkId ≠ ceId ∧ ioId ≠ ceId)
    (hv : ¬ (clkId ∈ s.env.validPins ∧ ioId ∈ s.env.validPins ∧ ceId ∈ s.env.validPins)) :
    initGate clkId ioId ceId s = .error (.gpioAcquisition .pinInvalid) := by
  simp [initGate, hd, ht, hn, pinValid, hv]

end

/-! ### Who raises GpioAcquisitionError -/

theorem eq_init_of_gpioAcquisition {i : Instr} {s t : State} {r : Response} (hx : exec i s = .next t)
    (hr : t.resp = some r) (hcode : r.err = 1) :
    s.drv = .uninitialized ∧ ∃ clkId ioId ceId clkDelay settleDelay order pull,
      i = .init clkId ioId ceId clkDelay settleDelay order pull := by
  cases exec_ended hx with
  | refused e he ht hinit =>
    subst ht
    obtain rfl := Option.some.inj hr
    exact hinit hcode
  | malformed e u he ht =>
    subst ht
    obtain rfl := Option.some.inj hr
    exact absurd (he.symm.trans hcode) (by decide)
  | done v hresp =>
    obtain rfl := Option.some.inj (hresp.symm.trans hr)
    exact absurd hcode (show (0 : BitVec 3) ≠ 1 by decide)

/-! ### The obligations -/

/-- Settles O55: an operation that answers an error was refused in the state it began in, or ends with
MalformedRegisterError in one that has the same `drv`, `cfg`, `tx` and CAL (`exec_ended`). -/
theorem errorsLeaveState : Obligations.ErrorsLeaveState := by
  intro i s t r hx hr hne
  cases exec_ended hx with
  | refused e he ht =>
    subst ht
    obtain rfl := Option.some.inj hr
    exact ⟨rfl, rfl, rfl, fun _ => rfl, fun hcode => absurd hcode he⟩
  | malformed e u he ht hi hdrv hcfg htx hcal =>
    subst ht
    obtain rfl := Option.some.inj hr
    exact ⟨rfl, rfl, rfl, fun hcode => absurd he hcode, fun _ => ⟨hi, hdrv, hcfg, htx, hcal⟩⟩
  | done v hresp =>
    obtain rfl := Option.some.inj (hresp.symm.trans hr)
    exact absurd rfl hne

/-- Settles O41: the distinctness check comes before the validity check, and no operation but INIT has either
(`eq_init_of_gpioAcquisition`). -/
theorem initPinErrors : Obligations.InitPinErrors := by
  refine ⟨fun _ _ _ _ => eq_init_of_gpioAcquisition, ?_⟩
  intro clkId ioId ceId clkDelay settleDelay order pull s hd ht distinct valid raises
  refine ⟨fun hn => ?notDistinct, fun hn hv => ?invalid⟩
  case notDistinct => exact execInit_error clkDelay settleDelay order pull (initGate_pinsNotDistinct hd ht hn)
  case invalid => exact execInit_error clkDelay settleDelay order pull (initGate_pinInvalid hd ht hn hv)

/-- Settles O45: `execWriteDatetime_error` with the first bound that fails. -/
theorem writeDatetimeRangeError : Obligations.WriteDatetimeRangeError := by
  intro y mo d h mi sec s hdrv htx yearOk monthOk dayOk raises
  have raise {f : CalField}
      (hb : encodeBounds y.toNat mo.toNat d.toNat h.toNat mi.toNat sec.toNat = some f) : raises f.info :=
    execWriteDatetime_error hdrv htx hb
  refine ⟨fun hy => ?_, fun hy hmo => ?_, fun hy hmo hd => ?_, fun hy hmo hd hh => ?_, fun hy hmo hd hh hmi => ?_,
    fun hy hmo hd hh hmi hsec => ?_⟩
  · exact raise (encodeBounds_year hy)
  · exact raise (encodeBounds_month hy hmo)
  · exact raise (encodeBounds_day hy hmo hd)
  · exact raise (encodeBounds_hour hy hmo hd hh)
  · exact raise (encodeBounds_minute hy hmo hd hh hmi)
  · exact raise (encodeBounds_second hy hmo hd hh hmi hsec)

end Sys2Proof.Machine
end

section
/-! PROOFS. 70_reset_and_hazards.md section 1: the reset input, when it is due at once (R260) and when it falls in the
middle of an operation (R261). -/

namespace Sys2Proof.Machine

/-! ### A step with a reset pending -/

theorem step_reset_due {s : State} (hr : s.port.resetIn = some 0) : step s = .next s.engineReset := by
  rw [step, if_pos hr]

/-- The operation is run whole, and the reset then cuts it short. -/
theorem step_reset_pending {s t : State} {r : Request} {rest : List Request} {i : Instr} {extra : List Byte} {k : Nat}
    (hr : s.port.resetIn = some (k + 1)) (hi : s.idle = true) (hq : s.port.requests = r :: rest)
    (hf : r.format = .h ∨ s.port.direct = true) (hd : decode r.format r.bytes = .ok (i, extra))
    (hx : exec i s.takeRequest = .next t) : step s = .next (s.takeRequest.abandonAfter (k + 1) t) := by
  simp [step, hr, hi, hq, Port.takes, hf, hd, hx, withReset]

/-! ### What an abandoned operation leaves -/

theorem length_eventsBetween (s t : State) :
    (eventsBetween s t).length = t.env.trace.length - s.env.trace.length := List.length_drop

/-- An operation that has more than `k` events to emit is abandoned after `k` of them. -/
theorem State.abandonAfter_of_lt {s t : State} {k : Nat} (hk : k < (eventsBetween s t).length) :
    s.abandonAfter k t = { s with env := s.env.replay s.pin ((eventsBetween s t).take k) }.engineReset := if_pos hk

/-! ### The obligations -/

/-- Settles O3: the step abandons the operation (`step_reset_pending`, `State.abandonAfter_of_lt`), and the environment
has recorded the events it was given (`Env.replay_trace`), of which there are `k + 1`. -/
theorem resetDuringOperation : Obligations.ResetDuringOperation := by
  intro s t r rest i extra k hr hi hq hf hd hx hlen
  have htake : s.takeRequest = { s with port := { s.port with requests := rest } } := by simp [State.takeRequest, hq]
  have hk : k + 1 < (eventsBetween s t).length := by
    rw [length_eventsBetween]
    omega
  have hstep := step_reset_pending hr hi hq hf hd (htake ▸ hx)
  rw [State.abandonAfter_of_lt (s := s.takeRequest) hk] at hstep
  refine ⟨_, hstep, atReset_engineReset _, rfl, by simp [hq], Env.replay_trace .., ?_⟩
  calc (s.env.replay s.pin ((eventsBetween s t).take (k + 1))).trace.length
      = s.env.trace.length + ((eventsBetween s t).take (k + 1)).length := by simp
    _ = s.env.trace.length + (k + 1) := by rw [List.length_take_of_le hk.le]

/-- Settles O2: the step is the reset itself (`step_reset_due`), and no further reset is pending in the state it leaves
(`step_no_request`). -/
theorem resetInput : Obligations.ResetInput := fun s hr =>
  ⟨s.engineReset, step_reset_due hr, atReset_engineReset s, rfl, rfl, rfl, step_no_request (by simp)⟩

end Sys2Proof.Machine
end
